-- ==== Sys2Proof/Word.lean ====
section
/-! DEFINITION. The word types of QFX16. -/

namespace Sys2Proof

/-- A 32-bit register, address or command word (R8, R20, R90). -/
abbrev Word := BitVec 32

/-- A 16-bit field: IMM16, SRATE, REM (R92, R44). -/
abbrev Half := BitVec 16

/-- One byte of data memory (R60). -/
abbrev Byte := BitVec 8

/-- A register number 0..15 of X0..X15 (R20, R91). -/
abbrev Reg := Fin 16

end Sys2Proof
end

