-- ==== Sys2Proof/Machine/Arith.lean ====
section
/-! DEFINITION. The arithmetic primitives of 00_scope.md R10 to R12 on mathematical integers. `a >> s` and `a << s` of the
spec are `shr` and `shl`; `floor_mod` is `%`; `abs` is `natAbs`. -/

namespace Sys2Proof.Machine

/-- The sentinel, read as signed (R9): the bit pattern 0xFFFFFFFF. -/
def sentinel : Int := -1

/-- F_MAX and F_MIN (R10). -/
def fMax : Int := 32767
def fMin : Int := -32768

/-- F_MAX32 and F_MIN32 (R10). -/
def fMax32 : Int := 2147483647
def fMin32 : Int := -2147483648

/-- `a >> s` (R12): floor(a / 2^s). -/
def shr (a : Int) (s : Nat) : Int := a >>> s

/-- `a << s` (R12): a * 2^s. -/
def shl (a : Int) (s : Nat) : Int := a <<< s

/-- `trunc_div` (R12): the quotient rounded toward zero. -/
def truncDiv (a b : Int) : Int := Int.tdiv a b

/-- `tq` (R12): a right shift that rounds toward zero. -/
def tq (a : Int) (s : Nat) : Int := truncDiv a (shl 1 s)

/-- `clamp` (R12). -/
def clamp (v lo hi : Int) : Int := min hi (max lo v)

/-- `sat16` (R12). -/
def sat16 (v : Int) : Int := clamp v fMin fMax

/-- `sat32` (R12). -/
def sat32 (v : Int) : Int := clamp v fMin32 fMax32

/-- `wrap32` (R12). -/
def wrap32 (v : Int) : Int := (BitVec.ofInt 32 v).toInt

/-- `v mod 2^32` as a register's bit pattern, the narrowing of `x[i] <- v` (R11). -/
def toWord (v : Int) : Word := BitVec.ofInt 32 v

/-- `(v + 2^(s-1)) >> s`, a right shift that rounds half up, with s = 0 the identity (R31's rs30, R123's back, R163).
The sum is taken on the value already shifted by s-1, which is the same number (Laws/Arith.lean, roundShift_eq) and needs
no power of two as large as POW2's shift count. -/
def roundShift (v : Int) (s : Nat) : Int :=
  if s = 0 then v else shr (shr v (s - 1) + 1) 1

/-- `sext_16` of a register: its low 16 bits read as signed (R11, R210). -/
def sext16 (w : Word) : Int := (w.setWidth 16).toInt

end Sys2Proof.Machine
end

