-- ==== Sys2Proof/Machine/ScalarFn.lean ====
section
/-! DEFINITION. The Q16 scalar functions of 42_scalar_saturating.md. -/

namespace Sys2Proof.Machine

/-- FADD_F (R200). -/
def faddF (a b : Int) : Int := wrap32 (a + b)

/-- FSUB_F (R201). -/
def fsubF (a b : Int) : Int := wrap32 (a - b)

/-- FMUL_F (R202): the exact product, floor shift, wrap. -/
def fmulF (a b : Int) : Int := wrap32 (shr (a * b) 16)

/-- FDIV_F (R203): the sentinel for a zero divisor, otherwise rounds toward zero and saturates. -/
def fdivF (a b : Int) : Int :=
  if b = 0 then sentinel else sat32 (truncDiv (a * 65536) b)

end Sys2Proof.Machine
end

