-- ==== Sys2Proof/Machine/Tables.lean ====
section
/-! DEFINITION. The constant tables and constants of 00_scope.md R7. -/

namespace Sys2Proof.Machine

/-- ATAN_TAB, 17 entries, Q30 radians (10_state.md R31). -/
def atanTab : List Int :=
  [843314857, 497837829, 263043837, 133525159, 67021687, 33543516, 16775851, 8388437, 4194283,
   2097149, 1048576, 524288, 262144, 131072, 65536, 32768, 16384]

/-- POW2_TAB, 33 entries, Q14 (10_state.md R32). -/
def pow2Tab : List Int :=
  [16384, 16743, 17109, 17484, 17867, 18258, 18658, 19066, 19484, 19911, 20347,
   20792, 21247, 21713, 22188, 22674, 23170, 23678, 24196, 24726, 25268, 25821,
   26386, 26964, 27554, 28158, 28774, 29405, 30048, 30706, 31379, 32066, 32767]

/-- LOG2_TAB, 33 entries, Q15 (10_state.md R32). -/
def log2Tab : List Int :=
  [0, 1455, 2866, 4236, 5568, 6863, 8124, 9352, 10549, 11716, 12855,
   13968, 15055, 16117, 17156, 18173, 19168, 20143, 21098, 22034, 22952, 23852,
   24736, 25604, 26455, 27292, 28114, 28922, 29717, 30498, 31267, 32024, 32767]

/-- The CORDIC gain reciprocal in Q30 (10_state.md R31). -/
def kinv30 : Int := 652032874

/-- Angle constants in Q16 radians (40_cordic.md R120). -/
def pi16 : Int := 205887
def halfPi16 : Int := 102944
def threeHalfPi16 : Int := 308831
def twoPi16 : Int := 411775

/-- ATAN_TMAX = 1024.0 and ATAN_TMIN (40_cordic.md R127). -/
def atanTMax : Int := 0x04000000
def atanTMin : Int := -0x04000000

/-- E16 = round(e * 2^16) (41_powlog_sqrt.md R172). -/
def e16 : Int := 178145

/-- The pitch-table constants (44_mixer.md R262). -/
def pitchBase : Int := 78643
def pitchRefRate : Int := 11025
def pitchSpan : Int := 64

end Sys2Proof.Machine
end

