-- ==== Sys2Proof/Machine/PowLogFn.lean ====
section
/-! DEFINITION. The functions of 41_powlog_sqrt.md. -/

namespace Sys2Proof.Machine

/-- The table's value between entries `i` and `i + 1` at the Q15 weight `a`, times 2^16: the saturating interpolation of
R162, shared by POW2_F and LOG2_F. -/
def interpolate (tab : List Int) (i : Nat) (a : Int) : Int :=
  let d := sat16 (tab.getD i 0 - tab.getD (i + 1) 0)
  shl (tab.getD i 0) 16 - d * a * 2

/-- POW2_F (R163). `f` is any integer; its low 15 bits count. -/
def pow2F (e f : Int) : Int :=
  let f := f % 32768
  if 30 < e then sentinel
  else
    let i := (shr f 10).toNat
    let a := shl (f % 1024) 5
    roundShift (interpolate pow2Tab i a) (30 - e).toNat

/-- LOG2_F (R165). For x > 0, n = 30 - floor(log2 x) is the one n with 2^30 <= x << n < 2^31. -/
def log2F (x : Int) : Int × Int :=
  if x ≤ 0 then (0, 0)
  else
    let n := 30 - Nat.log2 x.toNat
    let xn := shl x n
    let i := (shr xn 25 - 32).toNat
    let a := shr xn 10 % 32768
    (30 - (n : Int), shr (interpolate log2Tab i a) 16)

/-- log2 of a positive Q16 value in Q15, the LQ of R170. -/
def log2Q15 (v : Int) : Int :=
  let ef := log2F v
  (ef.1 - 16) * 32768 + ef.2

/-- LOG2Q16 (R167). -/
def log2Q16 (v : Int) : Int := log2Q15 v * 2

/-- POW_F (R170). -/
def powF (b p : Int) : Int :=
  if p = 0 then 65536
  else if b = 0 then 0
  else if b < 0 then sentinel
  else
    let t := shr (p * log2Q15 b) 16
    let T := t + 16 * 32768
    pow2F (shr T 15) (T % 32768)

/-- LOG_F (R173). -/
def logF (b x : Int) : Int :=
  if b = 0 ∨ b = 65536 then 0
  else if b < 0 ∨ x ≤ 0 then sentinel
  else fdivF (log2Q16 x) (log2Q16 b)

/-- One digit step of R180 per unit of fuel: `n` is what is left of the radicand, `root` the root so far, `bit` the
digit's weight. -/
def isqrtSteps : Nat → Nat → Nat → Nat → Nat
  | 0, _, root, _ => root
  | k + 1, n, root, bit =>
    if root + bit ≤ n then isqrtSteps k (n - (root + bit)) (root / 2 + bit) (bit / 4)
    else isqrtSteps k n (root / 2) (bit / 4)

/-- ISQRT32 (R180): 16 digit steps from bit 30. -/
def isqrt32 (n : Nat) : Nat := isqrtSteps 16 n 0 (2 ^ 30)

/-- SQRTQ_F (R181). -/
def sqrtqF (v : Int) (q : Nat) : Int :=
  if v < 0 then sentinel
  else if q % 2 = 1 then wrap32 (shl (isqrt32 (shr v 1).toNat) ((q - 1) / 2 + 1))
  else wrap32 (shl (isqrt32 v.toNat) (q / 2))

end Sys2Proof.Machine
end

