-- ==== Sys2Proof/Machine/CordicFn.lean ====
section
/-! DEFINITION. The functions of 40_cordic.md, R120 to R128. -/

namespace Sys2Proof.Machine

/-- rs30 (10_state.md R31): a Q30 value at working fraction width W, rounded half up; W >= 30 keeps it. -/
def rs30 (v : Int) (W : Nat) : Int := roundShift v (30 - W)

/-- AT30 (10_state.md R31): the table for i <= 16, the small-angle value 2^(30-i) above. -/
def at30 (i : Nat) : Int := if i ≤ 16 then atanTab.getD i 0 else shl 1 (30 - i)

/-- AW(i, W), the CORDIC step angle (10_state.md R31). -/
def stepAngle (i W : Nat) : Int := rs30 (at30 i) W

/-- ROTATE (R121) with `k` iterations left, the next one being iteration `i`. -/
def rotateFrom (W : Nat) (early : Bool) : Nat → Nat → Int → Int → Int → Int × Int
  | 0, _, x, y, _ => (x, y)
  | k + 1, i, x, y, z =>
    if early = true ∧ z = 0 then (x, y)
    else if 0 ≤ z then
      rotateFrom W early k (i + 1) (x - shr y i) (y + shr x i) (z - stepAngle i W)
    else
      rotateFrom W early k (i + 1) (x + shr y i) (y - shr x i) (z + stepAngle i W)

/-- ROTATE(x, y, z, W, n, early) (R121). -/
def rotate (x y z : Int) (W n : Nat) (early : Bool) : Int × Int := rotateFrom W early n 0 x y z

/-- VECTOR (R122) with `k` iterations left, the next one being iteration `i`. -/
def vectorFrom (W : Nat) : Nat → Nat → Int → Int → Int → Int
  | 0, _, _, _, z => z
  | k + 1, i, x, y, z =>
    if y = 0 then z
    else if 0 < y then
      vectorFrom W k (i + 1) (x + shr y i) (y - shr x i) (z + stepAngle i W)
    else
      vectorFrom W k (i + 1) (x - shr y i) (y + shr x i) (z - stepAngle i W)

/-- VECTOR(x, y, W, n) (R122). -/
def vectoring (x y : Int) (W n : Nat) : Int := vectorFrom W n 0 x y 0

/-- The quadrant and the angle within it of an angle in [0, TWO_PI16) (R123). -/
def quadrant (a : Int) : Nat × Int :=
  if a < halfPi16 then (0, a)
  else if a < pi16 then (1, a - halfPi16)
  else if a < threeHalfPi16 then (2, a - pi16)
  else (3, a - threeHalfPi16)

/-- A Q16 angle in Q W (R123). -/
def angleTo (r : Int) (W : Nat) : Int := if 16 ≤ W then shl r (W - 16) else shr r (16 - W)

/-- R123's back: a Q W value in Q16, rounded half up. -/
def backTo16 (v : Int) (W : Nat) : Int := if 16 < W then roundShift v (W - 16) else shl v (16 - W)

/-- SINCOS_F (R123): (sin, cos) in Q16. The clamp comes before the quadrant's sign and swap. -/
def sincosF (θ : Int) (N : Nat) : Int × Int :=
  if θ = 0 then (0, 65536)
  else
    let qr := quadrant (θ % twoPi16)
    let xy := rotate (rs30 kinv30 N) 0 (angleTo qr.2 N) N N false
    let s := clamp (backTo16 xy.2 N) (-65536) 65536
    let c := clamp (backTo16 xy.1 N) (-65536) 65536
    match qr.1 with
    | 0 => (s, c)
    | 1 => (c, -s)
    | 2 => (-s, -c)
    | _ => (-c, s)

/-- The tangent of a reduced angle in [0, HALF_PI16] by the Q14 rotation, with the clamp of R133. -/
def tanReduced (a : Int) : Int :=
  let xy := rotate 16384 0 (shr a 2) 14 14 true
  if xy.1 ≤ 0 then fMax32 else truncDiv (xy.2 * 65536) xy.1

/-- TAN_F (R124). -/
def tanF (θ : Int) : Int :=
  let a := (θ.natAbs : Int) % pi16
  let mirrored := halfPi16 ≤ a
  let t := tanReduced (if mirrored then pi16 - a else a)
  if (θ < 0) ≠ mirrored then -t else t

/-- ASIN_F (R125). -/
def asinF (v : Int) : Int :=
  if 65536 < v.natAbs then sentinel
  else
    let u := tq v 2
    let xq := isqrt32 (268435456 - u * u).toNat
    shl (vectoring xq u 14 14) 2

/-- ACOS_F (R126). -/
def acosF (v : Int) : Int :=
  if 65536 < v.natAbs then sentinel else halfPi16 - asinF v

/-- ATAN_F (R127). -/
def atanF (t : Int) : Int :=
  if atanTMax < t then halfPi16
  else if t < atanTMin then -halfPi16
  else shl (vectoring 1024 (tq t 6) 10 10) 6

/-- ATAN2_F (R128), with the quirk of R138. -/
def atan2F (x y : Int) : Int :=
  if x = 0 ∨ y = 0 then 0 else atanF (fdivF x y)

end Sys2Proof.Machine
end

