-- ==== Sys2Proof/Syntax.lean ====
section
/-! DEFINITION. The 40 commands of QFX16 (30_encoding.md R95), one constructor per row of spec/opcode_table.json, with
the operands of the row's shape (R94). -/

namespace Sys2Proof

/-- The control registers 0..6 (10_state.md R34). -/
inductive Csr where
  | status | faultCmd | faultInfo | tick | outRate | config | idReg
  deriving DecidableEq, Repr

/-- A command. `rd`, `rs1`, `rs2` are register numbers, `acc` and `q` the IMM8 of SINCOS and SQRTQ (R98). -/
inductive Instr where
  | sincos (rd rs1 : Reg) (acc : Byte)
  | tan (rd rs1 : Reg)
  | asin (rd rs1 : Reg)
  | acos (rd rs1 : Reg)
  | atan (rd rs1 : Reg)
  | atan2 (rd rs1 rs2 : Reg)
  | pow (rd rs1 rs2 : Reg)
  | exp (rd rs1 : Reg)
  | log (rd rs1 rs2 : Reg)
  | pow2 (rd rs1 rs2 : Reg)
  | log2 (rd rs1 : Reg)
  | sqrt (rd rs1 : Reg)
  | sqrtq (rd rs1 : Reg) (q : Byte)
  | fadd (rd rs1 rs2 : Reg)
  | fsub (rd rs1 rs2 : Reg)
  | fmul (rd rs1 rs2 : Reg)
  | fdiv (rd rs1 rs2 : Reg)
  | sadd16 (rd rs1 rs2 : Reg)
  | ssub16 (rd rs1 rs2 : Reg)
  | smul16 (rd rs1 rs2 : Reg)
  | sat16 (rd rs1 : Reg)
  | vadd (rd rs1 rs2 : Reg)
  | vsub (rd rs1 rs2 : Reg)
  | vscale (rd rs1 rs2 : Reg)
  | vdot (rd rs1 rs2 : Reg)
  | vcross (rd rs1 rs2 : Reg)
  | vnorm (rd rs1 : Reg)
  | li (rd : Reg) (imm : Half)
  | lih (rd : Reg) (imm : Half)
  | mov (rd rs1 : Reg)
  | csrr (rd : Reg) (csr : Csr)
  | csrw (csr : Csr) (rs1 : Reg)
  | minit (rd rs1 : Reg)
  | mstart (rd rs1 : Reg)
  | mupdate (rd rs1 : Reg)
  | mstop (rs1 : Reg)
  | mquery (rd rs1 : Reg)
  | many (rd : Reg)
  | mmix (rs1 rs2 : Reg)
  | minfo (rd rs1 : Reg)
  deriving DecidableEq, Repr

end Sys2Proof
end

