-- ==== Sys2Proof/WellFormed.lean ====
section
/-! DEFINITION. The operand limits of 30_encoding.md: immediate ranges (R98) and register groups (R99). A CSR number
above 6 cannot be written as a term at all. -/

namespace Sys2Proof

/-- Immediate ranges (R98). -/
def Instr.immediateOk : Instr → Bool
  | .sincos _ _ acc => acc.toNat ≤ 30
  | .sqrtq _ _ q => q.toNat ≤ 31
  | _ => true

/-- A group of `k` registers from `r` ends at X15 or before (R99). -/
def groupFits (r : Reg) (k : Nat) : Bool := r.val + k - 1 ≤ 15

/-- Register-group limits (R99). -/
def Instr.groupsOk : Instr → Bool
  | .sincos rd _ _ => groupFits rd 2
  | .log2 rd _ => groupFits rd 2
  | .vadd rd rs1 rs2 => groupFits rd 3 && groupFits rs1 3 && groupFits rs2 3
  | .vsub rd rs1 rs2 => groupFits rd 3 && groupFits rs1 3 && groupFits rs2 3
  | .vcross rd rs1 rs2 => groupFits rd 3 && groupFits rs1 3 && groupFits rs2 3
  | .vscale rd rs1 _ => groupFits rd 3 && groupFits rs1 3
  | .vdot _ rs1 rs2 => groupFits rs1 3 && groupFits rs2 3
  | .vnorm rd rs1 => groupFits rd 3 && groupFits rs1 3
  | .mstart _ rs1 => groupFits rs1 7
  | .mupdate _ rs1 => groupFits rs1 4
  | .minfo rd _ => groupFits rd 4
  | _ => true

/-- A term is a command exactly when its immediates and its register groups are in range. -/
def Instr.wellFormed (i : Instr) : Bool := i.immediateOk && i.groupsOk

end Sys2Proof
end

