-- ==== Sys2Proof/Decode.lean ====
section
/-! DEFINITION. Decoding a command word (30_encoding.md R90 to R102) and encoding a command (R110). -/

namespace Sys2Proof

/-- Why a word is no command: the four checks of R100, in its order. Every one is ILLEGAL_COMMAND (R340). -/
inductive DecodeError where
  | reservedOpcode | reservedField | immediateRange | registerGroup
  deriving DecidableEq, Repr

/-- The operand shapes of R94. -/
inductive Shape where
  | dst | ds | dsi | d | s | st | di | si | imm
  deriving DecidableEq, Repr

/-- R94's column "Mask (bits that must match)". -/
def Shape.mask : Shape → Word
  | .dst => 0xFF000FFF#32
  | .ds => 0xFF00FFFF#32
  | .dsi => 0xFF00FF00#32
  | .d => 0xFF0FFFFF#32
  | .s => 0xFFF0FFFF#32
  | .st => 0xFFF00FFF#32
  | .di => 0xFF0FFF00#32
  | .si => 0xFFF0FF00#32
  | .imm => 0xFF0F0000#32

/-- `bits[hi:lo]` of a word, as an unsigned integer (R11). -/
def bits (w : Word) (hi lo : Nat) : Nat := (w.toNat >>> lo) % 2 ^ (hi - lo + 1)

/-- OPC (R93). -/
def opcField (w : Word) : Nat := bits w 31 24
/-- RD (R93). -/
def rdField (w : Word) : Reg := Fin.ofNat 16 (bits w 23 20)
/-- RS1 (R93). -/
def rs1Field (w : Word) : Reg := Fin.ofNat 16 (bits w 19 16)
/-- RS2 (R93). -/
def rs2Field (w : Word) : Reg := Fin.ofNat 16 (bits w 15 12)
/-- IMM8 (R93). -/
def imm8Field (w : Word) : Byte := BitVec.ofNat 8 (bits w 7 0)
/-- IMM16 (R93). -/
def imm16Field (w : Word) : Half := BitVec.ofNat 16 (bits w 15 0)

/-- The number of a control register (R34). -/
def Csr.number : Csr → Nat
  | .status => 0 | .faultCmd => 1 | .faultInfo => 2 | .tick => 3 | .outRate => 4 | .config => 5 | .idReg => 6

/-- The control register of a number; numbers 7 and above name none (R34, R98). -/
def Csr.ofNumber : Nat → Option Csr
  | 0 => some .status | 1 => some .faultCmd | 2 => some .faultInfo | 3 => some .tick
  | 4 => some .outRate | 5 => some .config | 6 => some .idReg | _ => none

/-- The shape of each opcode of the map; an opcode not listed is reserved (R95, R101). -/
def opcodeShape : Nat → Option Shape
  | 0x01 => some .dsi | 0x02 => some .ds | 0x03 => some .ds | 0x04 => some .ds | 0x05 => some .ds
  | 0x06 => some .dst | 0x08 => some .dst | 0x09 => some .ds | 0x0A => some .dst | 0x0B => some .dst
  | 0x0C => some .ds | 0x0D => some .ds | 0x0E => some .dsi
  | 0x10 => some .dst | 0x11 => some .dst | 0x12 => some .dst | 0x13 => some .dst
  | 0x18 => some .dst | 0x19 => some .dst | 0x1A => some .dst | 0x1B => some .ds
  | 0x20 => some .dst | 0x21 => some .dst | 0x22 => some .dst | 0x23 => some .dst | 0x24 => some .dst
  | 0x25 => some .ds
  | 0x30 => some .imm | 0x31 => some .imm | 0x32 => some .ds
  | 0x38 => some .di | 0x39 => some .si
  | 0x40 => some .ds | 0x41 => some .ds | 0x42 => some .ds | 0x43 => some .s | 0x44 => some .ds
  | 0x45 => some .d | 0x46 => some .st | 0x47 => some .ds
  | _ => none

/-- The command of an opcode with the word's fields as its operands (R95, column "Assembler operands"); none for a CSR
number that names no register. -/
def commandOf (w : Word) : Option Instr :=
  let rd := rdField w
  let rs1 := rs1Field w
  let rs2 := rs2Field w
  match opcField w with
  | 0x01 => some (.sincos rd rs1 (imm8Field w))
  | 0x02 => some (.tan rd rs1)
  | 0x03 => some (.asin rd rs1)
  | 0x04 => some (.acos rd rs1)
  | 0x05 => some (.atan rd rs1)
  | 0x06 => some (.atan2 rd rs1 rs2)
  | 0x08 => some (.pow rd rs1 rs2)
  | 0x09 => some (.exp rd rs1)
  | 0x0A => some (.log rd rs1 rs2)
  | 0x0B => some (.pow2 rd rs1 rs2)
  | 0x0C => some (.log2 rd rs1)
  | 0x0D => some (.sqrt rd rs1)
  | 0x0E => some (.sqrtq rd rs1 (imm8Field w))
  | 0x10 => some (.fadd rd rs1 rs2)
  | 0x11 => some (.fsub rd rs1 rs2)
  | 0x12 => some (.fmul rd rs1 rs2)
  | 0x13 => some (.fdiv rd rs1 rs2)
  | 0x18 => some (.sadd16 rd rs1 rs2)
  | 0x19 => some (.ssub16 rd rs1 rs2)
  | 0x1A => some (.smul16 rd rs1 rs2)
  | 0x1B => some (.sat16 rd rs1)
  | 0x20 => some (.vadd rd rs1 rs2)
  | 0x21 => some (.vsub rd rs1 rs2)
  | 0x22 => some (.vscale rd rs1 rs2)
  | 0x23 => some (.vdot rd rs1 rs2)
  | 0x24 => some (.vcross rd rs1 rs2)
  | 0x25 => some (.vnorm rd rs1)
  | 0x30 => some (.li rd (imm16Field w))
  | 0x31 => some (.lih rd (imm16Field w))
  | 0x32 => some (.mov rd rs1)
  | 0x38 => (Csr.ofNumber (imm8Field w).toNat).map (.csrr rd)
  | 0x39 => (Csr.ofNumber (imm8Field w).toNat).map (.csrw · rs1)
  | 0x40 => some (.minit rd rs1)
  | 0x41 => some (.mstart rd rs1)
  | 0x42 => some (.mupdate rd rs1)
  | 0x43 => some (.mstop rs1)
  | 0x44 => some (.mquery rd rs1)
  | 0x45 => some (.many rd)
  | 0x46 => some (.mmix rs1 rs2)
  | 0x47 => some (.minfo rd rs1)
  | _ => none

/-- The reserved-field rule as R96 has a model check it: `(w & mask) == match`, with match = OPC << 24 (R94). -/
def reservedFieldsZero (sh : Shape) (w : Word) : Bool :=
  w &&& sh.mask == BitVec.ofNat 32 (opcField w <<< 24)

/-- Decoding, with the checks in R100's order. -/
def decode (w : Word) : Except DecodeError Instr :=
  match opcodeShape (opcField w) with
  | none => .error .reservedOpcode
  | some sh =>
    if reservedFieldsZero sh w = false then .error .reservedField
    else
      match commandOf w with
      | none => .error .immediateRange
      | some i =>
        if i.immediateOk = false then .error .immediateRange
        else if i.groupsOk = false then .error .registerGroup
        else .ok i

/-- R110's encR: the fields of format R (R91) are disjoint, so their sum is their bitwise or. -/
def encR (opc rd rs1 rs2 imm8 : Nat) : Word :=
  BitVec.ofNat 32 (opc * 2 ^ 24 + rd * 2 ^ 20 + rs1 * 2 ^ 16 + rs2 * 2 ^ 12 + imm8)

/-- R110's encI: format I (R92). -/
def encI (opc rd imm16 : Nat) : Word :=
  BitVec.ofNat 32 (opc * 2 ^ 24 + rd * 2 ^ 20 + imm16)

/-- The word of a command (R95, R110); fields a shape does not use are 0 (R94). -/
def encode : Instr → Word
  | .sincos rd rs1 acc => encR 0x01 rd rs1 0 acc.toNat
  | .tan rd rs1 => encR 0x02 rd rs1 0 0
  | .asin rd rs1 => encR 0x03 rd rs1 0 0
  | .acos rd rs1 => encR 0x04 rd rs1 0 0
  | .atan rd rs1 => encR 0x05 rd rs1 0 0
  | .atan2 rd rs1 rs2 => encR 0x06 rd rs1 rs2 0
  | .pow rd rs1 rs2 => encR 0x08 rd rs1 rs2 0
  | .exp rd rs1 => encR 0x09 rd rs1 0 0
  | .log rd rs1 rs2 => encR 0x0A rd rs1 rs2 0
  | .pow2 rd rs1 rs2 => encR 0x0B rd rs1 rs2 0
  | .log2 rd rs1 => encR 0x0C rd rs1 0 0
  | .sqrt rd rs1 => encR 0x0D rd rs1 0 0
  | .sqrtq rd rs1 q => encR 0x0E rd rs1 0 q.toNat
  | .fadd rd rs1 rs2 => encR 0x10 rd rs1 rs2 0
  | .fsub rd rs1 rs2 => encR 0x11 rd rs1 rs2 0
  | .fmul rd rs1 rs2 => encR 0x12 rd rs1 rs2 0
  | .fdiv rd rs1 rs2 => encR 0x13 rd rs1 rs2 0
  | .sadd16 rd rs1 rs2 => encR 0x18 rd rs1 rs2 0
  | .ssub16 rd rs1 rs2 => encR 0x19 rd rs1 rs2 0
  | .smul16 rd rs1 rs2 => encR 0x1A rd rs1 rs2 0
  | .sat16 rd rs1 => encR 0x1B rd rs1 0 0
  | .vadd rd rs1 rs2 => encR 0x20 rd rs1 rs2 0
  | .vsub rd rs1 rs2 => encR 0x21 rd rs1 rs2 0
  | .vscale rd rs1 rs2 => encR 0x22 rd rs1 rs2 0
  | .vdot rd rs1 rs2 => encR 0x23 rd rs1 rs2 0
  | .vcross rd rs1 rs2 => encR 0x24 rd rs1 rs2 0
  | .vnorm rd rs1 => encR 0x25 rd rs1 0 0
  | .li rd imm => encI 0x30 rd imm.toNat
  | .lih rd imm => encI 0x31 rd imm.toNat
  | .mov rd rs1 => encR 0x32 rd rs1 0 0
  | .csrr rd csr => encR 0x38 rd 0 0 csr.number
  | .csrw csr rs1 => encR 0x39 0 rs1 0 csr.number
  | .minit rd rs1 => encR 0x40 rd rs1 0 0
  | .mstart rd rs1 => encR 0x41 rd rs1 0 0
  | .mupdate rd rs1 => encR 0x42 rd rs1 0 0
  | .mstop rs1 => encR 0x43 0 rs1 0 0
  | .mquery rd rs1 => encR 0x44 rd rs1 0 0
  | .many rd => encR 0x45 rd 0 0 0
  | .mmix rs1 rs2 => encR 0x46 0 rs1 rs2 0
  | .minfo rd rs1 => encR 0x47 rd rs1 0 0

/-- The command that the table's bits stand for. A command is one 32-bit word that arrives as a value (R90), so the bits
above `nbits` are 0 and no byte order enters. -/
def decodeTableWord (nbits w : Nat) : Option Instr :=
  match decode (BitVec.ofNat 32 (w % 2 ^ nbits)) with
  | .ok i => some i
  | .error _ => none

end Sys2Proof
end

