-- ==== Sys2Proof/Config.lean ====
section
/-! DEFINITION. What an implementation of QFX16 fixes: the parameters of 00_scope.md R6, as plain data that State
carries, so that every statement about every state is a statement about every choice of them. NCH is the length of the
slot list and ADMIT the list of withheld ranges, both in Machine/State.lean. There is no free value: the spec leaves no
result of a command open. -/

namespace Sys2Proof.Config

/-- The parameters of R6 that are single values. -/
structure Params where
  /-- OUT_RATE_RESET: the OUTRATE value after reset, 1..65535. -/
  outRateReset : Nat
  /-- VOL_DIV: the soft-clip divisor of the volume table, at least 1 (R263). -/
  volDiv : Nat
  /-- END_ADJUST: END = BASE + length - END_ADJUST, 1..8 (R281). -/
  endAdjust : Nat
  /-- MIX_ADD_EXISTING: MMIX starts from the existing output sample (R290). -/
  mixAddExisting : Bool
  /-- QFX_BASE: the host-side base address of the host register window (R360). -/
  qfxBase : Word
  deriving DecidableEq, Repr

/-- The defaults of R6. R6 gives QFX_BASE no default; DESIGN CHOICE 0 (log 4, unsafe only for a claim about the
host-side address itself). -/
def Params.default : Params where
  outRateReset := 11025
  volDiv := 191
  endAdjust := 1
  mixAddExisting := false
  qfxBase := 0

/-- R6's column "Legal values". -/
def Params.legal (p : Params) : Bool :=
  1 ≤ p.outRateReset && p.outRateReset ≤ 65535 && 1 ≤ p.volDiv && 1 ≤ p.endAdjust && p.endAdjust ≤ 8

/-- NCH at its default (R6, R33's decision D33). -/
def nchDefault : Nat := 32

end Sys2Proof.Config
end

