-- ==== Sys2Proof/Machine/MixerFn.lean ====
section
/-! DEFINITION. The shared procedures and tables of 44_mixer.md that need no state: STEPTAB, VOL and the pan rule. -/

namespace Sys2Proof.Machine

/-- STEPTAB[p] at output rate R (R262); a sentinel of POW_F becomes 0xFFFFFFFF (C13). -/
def stepEntry (R p : Nat) : Word :=
  toWord (powF pitchBase (truncDiv (((p : Int) - 128) * pitchRefRate * 65536) (pitchSpan * R)))

/-- The whole of STEPTAB for an output rate (R262). -/
def buildStepTab (outRate : Word) : Vector Word 256 :=
  Vector.ofFn fun p => stepEntry outRate.toNat p.val

/-- VOL[v][s] (R263). -/
def volEntry (volDiv : Nat) (v : Fin 128) (s : Nat) : Int :=
  truncDiv ((v.val : Int) * ((s : Int) - 128) * 256) volDiv

/-- The left volume of VOLPAN before its check (R270). -/
def panLeft (vol sep : Int) : Int :=
  let s1 := sep + 1
  vol - shr (vol * s1 * s1) 16

/-- The right volume of VOLPAN before its check (R270): the offset is (separation + 1) - 257 (C10). -/
def panRight (vol sep : Int) : Int :=
  let s2 := sep + 1 - 257
  vol - shr (vol * s2 * s2) 16

/-- FAULT_INFO of VOLUME_RANGE (R270, R340): zext_16(lv) | zext_16(rv) << 16. -/
def volumeInfo (lv rv : Int) : Word := (BitVec.ofInt 16 rv) ++ (BitVec.ofInt 16 lv)

/-- A volume as a row of VOL, if it is one (R270, R272). -/
def volumeRow (v : Int) : Option (Fin 128) :=
  if h : 0 ≤ v ∧ v ≤ 127 then some ⟨v.toNat, by omega⟩ else none

/-- VOLPAN (R270): the two rows, or the information word of VOLUME_RANGE. -/
def volPan (vol sep : Int) : Except Word (Fin 128 × Fin 128) :=
  let lv := panLeft vol sep
  let rv := panRight vol sep
  match volumeRow lv, volumeRow rv with
  | some l, some r => .ok (l, r)
  | _, _ => .error (volumeInfo lv rv)

end Sys2Proof.Machine
end

