-- ==== Sys2Proof/Machine/State.lean ====
section
/-! DEFINITION. The state of QFX16 and of the system around it (10_state.md R20 to R54), as plain data, and the state
after reset (70_reset_and_hazards.md R380). -/

namespace Sys2Proof.Machine

/-- STATUS.CAUSE (R340). The codes 4..15 are never produced and have no constructor. -/
inductive Cause where
  | none | illegalCommand | volumeRange | busError
  deriving DecidableEq, Repr

/-- The kind of a data-port access (R60). -/
inductive AccessKind where
  | read | write
  deriving DecidableEq, Repr

/-- A range of data addresses that ADMIT refuses, both ends included, for reads, writes or both (R60, log 3). -/
structure Withheld where
  first : Nat
  last : Nat
  read : Bool
  write : Bool
  deriving DecidableEq, Repr

/-- An event of the event stream (R52). -/
inductive Event where
  | release (channel : Nat) (base : Word)
  deriving DecidableEq, Repr

/-- A channel slot (R44). `cur = 0` means empty (R45); `lvol` and `rvol` are rows of VOL. -/
structure Slot where
  cur : Word
  endAddr : Word
  base : Word
  srate : Half
  step : Word
  rem : Half
  lvol : Fin 128
  rvol : Fin 128
  id : Word
  stime : Word
  deriving DecidableEq, Repr

/-- Every field 0 (R44). -/
def Slot.zero : Slot where
  cur := 0
  endAddr := 0
  base := 0
  srate := 0
  step := 0
  rem := 0
  lvol := 0
  rvol := 0
  id := 0
  stime := 0

/-- The width of a host access to the register window (R360). -/
inductive AccessSize where
  | byte | half | word
  deriving DecidableEq, Repr

/-- What the host can do to the machine (60_exceptions.md R360 to R362, 20_memory.md R72, R73, 70_reset_and_hazards.md
R380, R381). -/
inductive HostAction where
  /-- A write to the host-side address `addr` (R360). A write of a word to CMD issues a command (R348). -/
  | windowWrite (addr : Word) (size : AccessSize) (w : Word)
  /-- A read of the host-side address `addr` (R360). -/
  | windowRead (addr : Word) (size : AccessSize)
  /-- The host stores a byte in its data memory between two commands (R72). -/
  | store (addr : Word) (b : Byte)
  /-- The host writes `w` to CMD and stores a byte in data memory while that command executes, which R72 forbids. -/
  | storeDuring (w : Word) (addr : Word) (b : Byte)
  /-- The host changes which bytes exist (R73: it may withdraw admission). -/
  | setAdmission (withheld : List Withheld)
  /-- Reset is asserted, while the given command was executing if there is one; that command is abandoned (R381,
  log 8). -/
  | reset (running : Option Word)
  deriving DecidableEq, Repr

/-- Data memory (R50): the bytes that differ from `initialByte`, addresses strictly rising. -/
abbrev Memory := List Host.Cell

/-- What a byte of data memory that nothing has written holds. DESIGN CHOICE (log 2): 0, as in the programs of
95_test_vectors.md section 3. -/
def initialByte : Byte := 0

structure State where
  /-- X0..X15 (R20). -/
  regs : Vector Word 16
  /-- STATUS.HALTED (R35). -/
  halted : Bool
  /-- STATUS.CAUSE (R35). -/
  cause : Cause
  /-- FAULT_CMD (R36). -/
  faultCmd : Word
  /-- FAULT_INFO (R37). -/
  faultInfo : Word
  /-- TICK (R38). -/
  tick : Word
  /-- OUTRATE (R41). -/
  outRate : Word
  /-- CONFIG.PITCHED (R39). -/
  pitched : Bool
  /-- The channel slots (R44); NCH is their number (R6, log 4). -/
  slots : List Slot
  /-- STEPTAB (R30, R262). -/
  stepTab : Vector Word 256
  /-- Data memory (R50). -/
  mem : Memory
  /-- ADMIT, as the ranges it refuses (R60, log 3). -/
  withheld : List Withheld
  /-- The event stream, oldest first (R52). -/
  events : List Event
  /-- The parameters of R6 (log 4). No step changes them. -/
  params : Config.Params
  /-- The MODEL's own field: the host's actions still to happen, oldest first (log 1). -/
  input : List HostAction
  /-- The MODEL's own field: the word that the last host read of the window returned (log 5). -/
  readData : Word
  deriving DecidableEq, Repr

/-- Reasons for which the run ends with no next state. The faults of the SPEC (R340) are not here: they halt the block,
which is a next state (R341). -/
inductive Fault where
  /-- Raised by `step` when the host stores to data memory while a command executes: R72 forbids it and "QFX16 defines no
  result for a host that does". Safe: the model goes no further (log 7). -/
  | hostStoreRace
  deriving DecidableEq, Repr

/-- Reasons for which the model gives no meaning. -/
inductive Refusal where
  /-- Raised by an arm of `exec` whose command has no meaning yet; no arm is such. Safe. -/
  | notModelled (mnemonic : String)
  /-- Raised by `step` for a host access that is not an aligned 32-bit word of the register window: R360 gives it "no
  defined effect". Safe (log 6). -/
  | undefinedWindowAccess
  deriving DecidableEq, Repr

/-- The outcome of a command. -/
abbrev Result := Host.Outcome State Fault Refusal

/-- The machine right after reset with every parameter at its default (R380, R6), nothing in memory, every address
admitted, no event, and no action of the host yet. -/
def State.reset : State where
  regs := Vector.replicate 16 0
  halted := false
  cause := .none
  faultCmd := 0
  faultInfo := 0
  tick := 0
  outRate := BitVec.ofNat 32 Config.Params.default.outRateReset
  pitched := false
  slots := List.replicate Config.nchDefault Slot.zero
  stepTab := buildStepTab (BitVec.ofNat 32 Config.Params.default.outRateReset)
  mem := []
  withheld := []
  events := []
  params := Config.Params.default
  input := []
  readData := 0

end Sys2Proof.Machine
end

