-- ==== Sys2Proof/Machine/Flags.lean ====
section
/-! DEFINITION. QFX16 has no condition flags (10_state.md R23): no command computes one. What it has of this kind are the
bits of the control registers, put together here (10_state.md R34 to R41). -/

namespace Sys2Proof.Machine

/-- The code of a fault cause (R340). -/
def Cause.code : Cause → Nat
  | .none => 0 | .illegalCommand => 1 | .volumeRange => 2 | .busError => 3

/-- STATUS: HALTED in bit 0, CAUSE in bits 11:8, every other bit 0 (R35). -/
def statusWord (halted : Bool) (cause : Cause) : Word :=
  BitVec.ofNat 32 (halted.toNat + cause.code * 2 ^ 8)

/-- CONFIG: PITCHED in bit 0, every other bit reads 0 (R39). -/
def configWord (pitched : Bool) : Word := BitVec.ofNat 32 pitched.toNat

/-- IDREG: NCH in bits 7:0, VERSION = 1 in bits 15:8 (R40). -/
def idWord (nch : Nat) : Word := BitVec.ofNat 32 (nch + 1 * 2 ^ 8)

/-- The value of a control register (R34). -/
def State.csr (s : State) : Csr → Word
  | .status => statusWord s.halted s.cause
  | .faultCmd => s.faultCmd
  | .faultInfo => s.faultInfo
  | .tick => s.tick
  | .outRate => s.outRate
  | .config => configWord s.pitched
  | .idReg => idWord s.slots.length

/-- A write to a control register, by CSRW or by the host: TICK takes the word, CONFIG its bit 0, the others ignore it
(R34, R324, R360). -/
def State.csrWrite (s : State) (c : Csr) (v : Word) : State :=
  match c with
  | .tick => { s with tick := v }
  | .config => { s with pitched := v.getLsbD 0 }
  | .status | .faultCmd | .faultInfo | .outRate | .idReg => s

end Sys2Proof.Machine
end

