-- ==== Sys2Proof/Machine/Ops.lean ====
section
/-! DEFINITION. The named operations over registers, memory, the data port, the slots and the event stream, and taking a
fault. -/

namespace Sys2Proof.Machine

/-! ### Registers (R20, R21) -/

/-- `x[r]` (R11). -/
def State.x (s : State) (r : Reg) : Word := s.regs[r]

/-- `sx[r]` (R11). -/
def State.sx (s : State) (r : Reg) : Int := (s.x r).toInt

/-- Register Xr receives a word. No register is hard-wired (R20). -/
def State.setX (s : State) (r : Reg) (v : Word) : State := { s with regs := s.regs.set r v }

/-- `x[r] <- v` (R11): v mod 2^32. -/
def State.put (s : State) (r : Reg) (v : Int) : State := s.setX r (toWord v)

/-- A group of three consecutive results, in order (R230). -/
def State.put3 (s : State) (r : Reg) (v0 v1 v2 : Int) : State :=
  ((s.put r v0).put (r + 1) v1).put (r + 2) v2

/-! ### Data memory (R50) -/

/-- The byte of memory at an address; a byte not listed holds `initialByte` (log 2). -/
def Memory.get (m : Memory) (a : Nat) : Byte :=
  match m with
  | [] => initialByte
  | (b, v) :: rest => if a = b then v else Memory.get rest a

/-- A cell put in its place among rising addresses. -/
def Memory.insertCell (m : Memory) (a : Nat) (v : Byte) : Memory :=
  match m with
  | [] => [(a, v)]
  | (b, u) :: rest => if a < b then (a, v) :: (b, u) :: rest else (b, u) :: Memory.insertCell rest a v

/-- Storing a byte keeps the canonical form: a byte that equals `initialByte` is not listed. -/
def Memory.put (m : Memory) (a : Nat) (v : Byte) : Memory :=
  let others := m.filter fun c => c.1 ≠ a
  if v = initialByte then others else Memory.insertCell others a v

/-- The canonical form: addresses strictly rising and below 2^32, no listed byte equal to `initialByte`. -/
def Memory.wf (m : Memory) : Bool :=
  (m.map Prod.fst).Pairwise (· < ·) && m.all fun c => c.1 < 2 ^ 32 && c.2 != initialByte

/-- A byte of the state's memory. -/
def State.byteAt (s : State) (a : Nat) : Byte := Memory.get s.mem a

/-- One byte stored in memory. -/
def State.putByte (s : State) (a : Nat) (v : Byte) : State := { s with mem := Memory.put s.mem a v }

/-! ### The data port (20_memory.md R60 to R63) -/

/-- Whether a withheld range refuses this access. -/
def Withheld.refuses (r : Withheld) (a : Nat) (k : AccessKind) : Bool :=
  r.first ≤ a && a ≤ r.last && (match k with | .read => r.read | .write => r.write)

/-- ADMIT(addr, kind) (R6, R60). -/
def State.admits (s : State) (a : Nat) (k : AccessKind) : Bool := s.withheld.all fun r => !r.refuses a k

/-- Whether a byte access goes through: the address exists and is admitted for the kind (R60). -/
def State.canAccess (s : State) (a : Nat) (k : AccessKind) : Bool := a < 2 ^ 32 && s.admits a k

/-- A byte read through the data port, or BUS_ERROR's information word (R60, R340). -/
def State.portRead (s : State) (a : Nat) : Except Word Byte :=
  if s.canAccess a .read then .ok (s.byteAt a) else .error (BitVec.ofNat 32 a)

/-- `MemRead(addr, 2)`, little-endian; the first byte that faults ends it (R62). -/
def State.portRead2 (s : State) (a : Nat) : Except Word Half :=
  match s.portRead a with
  | .error e => .error e
  | .ok b0 =>
    match s.portRead (a + 1) with
    | .error e => .error e
    | .ok b1 => .ok (b1 ++ b0)

/-- `MemWrite(addr, 2, v)`, low byte first (R63). MIX_FRAME has checked both bytes before (R290). -/
def State.portWrite2 (s : State) (a : Nat) (v : Half) : State :=
  (s.putByte a (v.setWidth 8)).putByte (a + 1) ((v >>> 8).setWidth 8)

/-! ### Slots and events (R44, R52, R261) -/

/-- NCH, the number of channel slots (R6). -/
def State.nch (s : State) : Nat := s.slots.length

/-- `slot[c]`; for a c that is no channel, the zero slot, which no command reaches. -/
def State.slot (s : State) (c : Nat) : Slot := s.slots.getD c Slot.zero

/-- An active slot (R45). -/
def Slot.active (sl : Slot) : Bool := sl.cur ≠ 0

/-- A slot rewritten as a whole (R260). -/
def State.setSlot (s : State) (c : Nat) (sl : Slot) : State := { s with slots := s.slots.set c sl }

/-- An argument register as a channel number, if 0 <= ch < NCH (R281 to R284, R287). -/
def State.channel (s : State) (r : Reg) : Option Nat :=
  if 0 ≤ s.sx r ∧ s.sx r < s.nch then some (s.sx r).toNat else none

/-- RELEASE_SLOT(c) (R261): the event, and CUR becomes 0; the other fields stay. -/
def State.releaseSlot (s : State) (c : Nat) : State :=
  { s.setSlot c { s.slot c with cur := 0 } with events := s.events ++ [.release c (s.slot c).base] }

/-- RELEASE_SLOT for a slot that is active, nothing for an empty one (R281, R283). -/
def State.releaseIfActive (s : State) (c : Nat) : State :=
  if (s.slot c).active then s.releaseSlot c else s

/-! ### Taking a fault (60_exceptions.md R341) -/

/-- RAISE(k, i) for the command word `w`, on the state before the command (for MMIX, after its committed frames, R343):
the block halts with the cause, the word and the information word recorded, and nothing else changes. There is no
handler and no return (R342). -/
def State.raise (s : State) (w : Word) (k : Cause) (i : Word) : State :=
  { s with halted := true, cause := k, faultCmd := w, faultInfo := i }

/-- A command raises a fault: a next state, in which the block is halted. FAULT_CMD is the word of the command; a legal
word is the one encoding of its command (R102, stated in Obligations.LegalWordsHaveOneCommand). -/
def faultBy (i : Instr) (k : Cause) (info : Word) (s : State) : Result :=
  .next (s.raise (encode i) k info)

end Sys2Proof.Machine
end

