-- ==== Sys2Proof/Machine/Operands.lean ====
section
/-! DEFINITION. The operand forms of the commands: register triples, 16-bit halves, iteration counts, argument groups.
Every one only reads the state (R13, R391: sources are read before any destination is written). -/

namespace Sys2Proof.Machine

/-- A vector operand (R230): the triple at three consecutive registers, read as signed. -/
structure Vec3 where
  x : Int
  y : Int
  z : Int
  deriving DecidableEq, Repr

/-- The vector operand named by a register number (R230). -/
def State.vec (s : State) (r : Reg) : Vec3 := ⟨s.sx r, s.sx (r + 1), s.sx (r + 2)⟩

/-- A vector result written at a register number (R230). -/
def State.putVec (s : State) (r : Reg) (v : Vec3) : State := s.put3 r v.x v.y v.z

/-- `h(r)`, the low 16 bits of a register read as signed (R210). -/
def State.half (s : State) (r : Reg) : Int := sext16 (s.x r)

/-- The iteration count of SINCOS (R98, R130): 0 means 30. -/
def iterationCount (acc : Byte) : Nat := if acc = 0 then 30 else acc.toNat

/-- MSTART's arguments besides the channel (R281). -/
structure StartArgs where
  id : Word
  base : Word
  len : Int
  vol : Int
  sep : Int
  pitch : Word
  deriving DecidableEq, Repr

/-- The six registers after MSTART's channel register (R281). -/
def State.startArgs (s : State) (r : Reg) : StartArgs where
  id := s.x (r + 1)
  base := s.x (r + 2)
  len := s.sx (r + 3)
  vol := s.sx (r + 4)
  sep := s.sx (r + 5)
  pitch := s.x (r + 6)

end Sys2Proof.Machine
end

