-- ==== Sys2Proof/Machine/Cordic.lean ====
section
/-! DEFINITION. The commands of 40_cordic.md. None raises a fault at execution. -/

namespace Sys2Proof.Machine

/-- SINCOS (R130). -/
def execSincos (rd rs1 : Reg) (acc : Byte) (s : State) : Result :=
  let sc := sincosF (s.sx rs1) (iterationCount acc)
  .next ((s.put rd sc.1).put (rd + 1) sc.2)

/-- TAN (R132). -/
def execTan (rd rs1 : Reg) (s : State) : Result := .next (s.put rd (tanF (s.sx rs1)))

/-- ASIN (R134). -/
def execAsin (rd rs1 : Reg) (s : State) : Result := .next (s.put rd (asinF (s.sx rs1)))

/-- ACOS (R135). -/
def execAcos (rd rs1 : Reg) (s : State) : Result := .next (s.put rd (acosF (s.sx rs1)))

/-- ATAN (R136). -/
def execAtan (rd rs1 : Reg) (s : State) : Result := .next (s.put rd (atanF (s.sx rs1)))

/-- ATAN2 (R137): x is rs1 and y is rs2. -/
def execAtan2 (rd rs1 rs2 : Reg) (s : State) : Result :=
  .next (s.put rd (atan2F (s.sx rs1) (s.sx rs2)))

end Sys2Proof.Machine
end

