-- ==== Sys2Proof/Machine/Mixer.lean ====
section
/-! DEFINITION. The mixer commands of 44_mixer.md. MSTART and MUPDATE can raise VOLUME_RANGE, MSTART and MMIX
BUS_ERROR (R340); a fault is a next state in which the block is halted (R341). -/

namespace Sys2Proof.Machine

/-- STEP_F (R265), from the current OUTRATE, STEPTAB and CONFIG.PITCHED (R266). -/
def State.stepF (s : State) (srate : Half) (pitch : Word) : Word :=
  let b := srate.toNat * 65536 / s.outRate.toNat
  if s.pitched then
    BitVec.ofNat 32 (min (2 ^ 32 - 1) ((b * s.stepTab[(Fin.ofNat 256 pitch.toNat)].toNat) >>> 16))
  else BitVec.ofNat 32 b

/-- RELEASE_SLOT for every active slot, in increasing order from channel `c` on (R280). -/
def releasesFrom : Nat → List Slot → List Event
  | _, [] => []
  | c, sl :: rest => if sl.active then .release c sl.base :: releasesFrom (c + 1) rest else releasesFrom (c + 1) rest

/-- What MINIT does with a legal rate: releases every active slot, zeroes every slot, sets OUTRATE, rebuilds STEPTAB
(R280). -/
def State.initMixer (s : State) (rate : Word) : State :=
  { s with
    events := s.events ++ releasesFrom 0 s.slots
    slots := List.replicate s.nch Slot.zero
    outRate := rate
    stepTab := buildStepTab rate }

/-- MINIT (R280): -1 and nothing else for a rate outside 1..65535. -/
def execMinit (rd rs1 : Reg) (s : State) : Result :=
  let rate := s.x rs1
  if rate.toNat < 1 ∨ 65535 < rate.toNat then .next (s.put rd (-1))
  else .next ((s.initMixer rate).put rd 0)

/-- The slot that MSTART installs (R281). -/
def State.newSlot (s : State) (a : StartArgs) (srate : Half) (lv rv : Fin 128) : Slot where
  cur := a.base + 8
  endAddr := toWord ((a.base.toNat : Int) + a.len - s.params.endAdjust)
  base := a.base
  srate := srate
  step := s.stepF srate a.pitch
  rem := 0
  lvol := lv
  rvol := rv
  id := a.id
  stime := s.tick

/-- Whether MSTART's length and address checks pass: a sample after the header, and no byte past 0xFFFFFFFF (R281). -/
def StartArgs.playable (a : StartArgs) : Bool :=
  0 < a.len - 8 && (a.base.toNat : Int) + a.len - 1 ≤ 0xFFFFFFFF

/-- MSTART (R281), its checks in R344's order: channel, length, address, header read, volume. -/
def execMstart (rd rs1 : Reg) (s : State) : Result :=
  let a := s.startArgs rs1
  match s.channel rs1 with
  | none => .next (s.put rd (-1))
  | some ch =>
    if a.playable = false then .next (s.put rd (-1))
    else
      match s.portRead2 (a.base.toNat + 2) with
      | .error e => faultBy (.mstart rd rs1) .busError e s
      | .ok srate =>
        match volPan a.vol a.sep with
        | .error info => faultBy (.mstart rd rs1) .volumeRange info s
        | .ok (lv, rv) =>
          .next (((s.releaseIfActive ch).setSlot ch (s.newSlot a srate lv rv)).put rd ch)

/-- MUPDATE (R282). -/
def execMupdate (rd rs1 : Reg) (s : State) : Result :=
  match s.channel rs1 with
  | none => .next (s.put rd (-1))
  | some ch =>
    match volPan (s.sx (rs1 + 1)) (s.sx (rs1 + 2)) with
    | .error info => faultBy (.mupdate rd rs1) .volumeRange info s
    | .ok (lv, rv) =>
      let sl := s.slot ch
      .next ((s.setSlot ch { sl with step := s.stepF sl.srate (s.x (rs1 + 3)), lvol := lv, rvol := rv }).put rd 0)

/-- MSTOP (R283): a no-op for an empty slot or a number that is no channel. -/
def execMstop (rs1 : Reg) (s : State) : Result :=
  match s.channel rs1 with
  | none => .next s
  | some ch => .next (s.releaseIfActive ch)

/-- MQUERY (R284). -/
def execMquery (rd rs1 : Reg) (s : State) : Result :=
  match s.channel rs1 with
  | none => .next (s.put rd 0)
  | some ch => .next (s.put rd (if (s.slot ch).active then 1 else 0))

/-- MANY (R285). -/
def execMany (rd : Reg) (s : State) : Result :=
  .next (s.put rd (if s.slots.any Slot.active then 1 else 0))

/-- MINFO (R287): ID, STIME, CUR and REM, or four times -1. -/
def execMinfo (rd rs1 : Reg) (s : State) : Result :=
  match s.channel rs1 with
  | none => .next ((((s.put rd (-1)).put (rd + 1) (-1)).put (rd + 2) (-1)).put (rd + 3) (-1))
  | some ch =>
    let sl := s.slot ch
    .next ((((s.setX rd sl.id).setX (rd + 1) sl.stime).setX (rd + 2) sl.cur).setX (rd + 3) (sl.rem.setWidth 32))

/-! ### The mix frame (R290) -/

/-- The interpolated sample of an active slot, 0..255: the current byte and the next one, which is clamped at END
(R290, R291, C3). -/
def State.sampleOf (s : State) (sl : Slot) : Except Word Nat :=
  let p := sl.cur.toNat
  match s.portRead p with
  | .error e => .error e
  | .ok s0 =>
    match s.portRead (if p + 1 ≤ sl.endAddr.toNat then p + 1 else p) with
    | .error e => .error e
    | .ok s1 => .ok ((s0.toNat * (65536 - sl.rem.toNat) + s1.toNat * sl.rem.toNat) >>> 16)

/-- Where an active slot's cursor goes in one frame, before any release, as a natural number (R290). -/
def Slot.nextCursor (sl : Slot) : Nat := sl.cur.toNat + (sl.rem.toNat + sl.step.toNat) >>> 16

/-- Whether the frame ends the sound: the cursor reaches or passes END (R290). -/
def Slot.finishes (sl : Slot) : Bool := sl.endAddr.toNat ≤ sl.nextCursor

/-- An active slot after one frame, its release included: REM is masked to 16 bits, CUR advances or becomes 0 (R290,
R261). -/
def Slot.advance (sl : Slot) : Slot :=
  { sl with
    cur := if sl.finishes then 0 else BitVec.ofNat 32 sl.nextCursor
    rem := BitVec.ofNat 16 (sl.rem.toNat + sl.step.toNat) }

/-- The result of walking the slots in one frame: the working copy S after its releases, the events, the accumulators
(R290). -/
structure Walk where
  slots : List Slot
  released : List Event
  accL : Int
  accR : Int
  deriving DecidableEq, Repr

/-- The slot walk of MIX_FRAME, low index to high index from channel `c` on; the first sample byte that is not admitted
ends it (R290, R344). -/
def State.walkSlots (s : State) : Nat → List Slot → Int → Int → Except Word Walk
  | _, [], l, r => .ok ⟨[], [], l, r⟩
  | c, sl :: rest, l, r =>
    if sl.active = false then
      match s.walkSlots (c + 1) rest l r with
      | .error e => .error e
      | .ok w => .ok { w with slots := sl :: w.slots }
    else
      match s.sampleOf sl with
      | .error e => .error e
      | .ok smp =>
        match s.walkSlots (c + 1) rest (l + volEntry s.params.volDiv sl.lvol smp)
            (r + volEntry s.params.volDiv sl.rvol smp) with
        | .error e => .error e
        | .ok w =>
          .ok { w with
            slots := sl.advance :: w.slots
            released := if sl.finishes then .release c sl.base :: w.released else w.released }

/-- The first of the four output bytes that is not admitted for write, as BUS_ERROR's information word (R290). -/
def State.outputRefused (s : State) (o : Nat) : Option Word :=
  ([o, o + 1, o + 2, o + 3].find? fun a => !s.canAccess a .write).map (BitVec.ofNat 32)

/-- The accumulators before the walk: 0, or the existing samples if MIX_ADD_EXISTING (R290). -/
def State.startAcc (s : State) (o : Nat) : Except Word (Int × Int) :=
  if s.params.mixAddExisting then
    match s.portRead2 o with
    | .error e => .error e
    | .ok l =>
      match s.portRead2 (o + 2) with
      | .error e => .error e
      | .ok r => .ok (l.toInt, r.toInt)
  else .ok (0, 0)

/-- MIX_FRAME(o) (R290): the state after the whole frame, or the address of the byte that fails. -/
def State.mixFrame (s : State) (o : Nat) : Except Word State :=
  match s.outputRefused o with
  | some e => .error e
  | none =>
    match s.startAcc o with
    | .error e => .error e
    | .ok (l, r) =>
      match s.walkSlots 0 s.slots l r with
      | .error e => .error e
      | .ok w =>
        .ok (({ s with slots := w.slots, events := s.events ++ w.released }.portWrite2 o
          (BitVec.ofInt 16 (sat16 w.accL))).portWrite2 (o + 2) (BitVec.ofInt 16 (sat16 w.accR)))

/-- `n` frames from address `o` on: the state after the frames that committed, and the failing address if one did not
(R286, R293). -/
def State.mixFrames : Nat → Nat → State → State × Option Word
  | 0, _, s => (s, none)
  | n + 1, o, s =>
    match s.mixFrame o with
    | .error e => (s, some e)
    | .ok t => State.mixFrames n (o + 4) t

/-- The frame count of MMIX (R286). -/
def frameCount (n : Int) : Nat := if 0 < n then (shr n 2).toNat else 0

/-- MMIX (R286); on a BUS_ERROR the frames before stay committed (R293, R343). -/
def execMmix (rs1 rs2 : Reg) (s : State) : Result :=
  match State.mixFrames (frameCount (s.sx rs2)) (s.x rs1).toNat s with
  | (t, none) => .next t
  | (t, some e) => faultBy (.mmix rs1 rs2) .busError e t

end Sys2Proof.Machine
end

