-- ==== Sys2Proof/Machine/PowLog.lean ====
section
/-! DEFINITION. The commands of 41_powlog_sqrt.md. None raises a fault at execution. -/

namespace Sys2Proof.Machine

/-- POW (R171): base rs1, exponent rs2. -/
def execPow (rd rs1 rs2 : Reg) (s : State) : Result := .next (s.put rd (powF (s.sx rs1) (s.sx rs2)))

/-- EXP (R172). -/
def execExp (rd rs1 : Reg) (s : State) : Result := .next (s.put rd (powF e16 (s.sx rs1)))

/-- LOG (R174): base rs1, input rs2. -/
def execLog (rd rs1 rs2 : Reg) (s : State) : Result := .next (s.put rd (logF (s.sx rs1) (s.sx rs2)))

/-- POW2 (R164): signed exponent rs1, fraction in the low 15 bits of rs2. -/
def execPow2 (rd rs1 rs2 : Reg) (s : State) : Result :=
  .next (s.put rd (pow2F (s.sx rs1) ((s.x rs2).toNat : Int)))

/-- LOG2 (R166): the exponent in rd, the Q15 fraction in the next register. -/
def execLog2 (rd rs1 : Reg) (s : State) : Result :=
  let ef := log2F (s.sx rs1)
  .next ((s.put rd ef.1).put (rd + 1) ef.2)

/-- SQRT (R182). -/
def execSqrt (rd rs1 : Reg) (s : State) : Result := .next (s.put rd (sqrtqF (s.sx rs1) 16))

/-- SQRTQ (R181). -/
def execSqrtq (rd rs1 : Reg) (q : Byte) (s : State) : Result :=
  .next (s.put rd (sqrtqF (s.sx rs1) q.toNat))

end Sys2Proof.Machine
end

