-- ==== Sys2Proof/Machine/RegCsr.lean ====
section
/-! DEFINITION. The register and control-register commands of 45_register_csr.md. None raises a fault at execution. -/

namespace Sys2Proof.Machine

/-- LI (R320): the immediate sign-extended. -/
def execLi (rd : Reg) (imm : Half) (s : State) : Result := .next (s.put rd imm.toInt)

/-- LIH (R321): the upper half; the lower half of the register stays. -/
def execLih (rd : Reg) (imm : Half) (s : State) : Result :=
  .next (s.setX rd (imm ++ (s.x rd).setWidth 16))

/-- MOV (R322). -/
def execMov (rd rs1 : Reg) (s : State) : Result := .next (s.setX rd (s.x rs1))

/-- CSRR (R323). -/
def execCsrr (rd : Reg) (csr : Csr) (s : State) : Result := .next (s.setX rd (s.csr csr))

/-- CSRW (R324): writes TICK and CONFIG, ignored for the read-only registers. -/
def execCsrw (csr : Csr) (rs1 : Reg) (s : State) : Result := .next (s.csrWrite csr (s.x rs1))

end Sys2Proof.Machine
end

