-- ==== Sys2Proof/Machine/Scalar.lean ====
section
/-! DEFINITION. The Q16 scalar commands and the 16-bit saturating unit of 42_scalar_saturating.md. None raises a fault at
execution, and saturation leaves no trace but the result (R23). -/

namespace Sys2Proof.Machine

/-- FADD (R200). -/
def execFadd (rd rs1 rs2 : Reg) (s : State) : Result := .next (s.put rd (faddF (s.sx rs1) (s.sx rs2)))

/-- FSUB (R201). -/
def execFsub (rd rs1 rs2 : Reg) (s : State) : Result := .next (s.put rd (fsubF (s.sx rs1) (s.sx rs2)))

/-- FMUL (R202). -/
def execFmul (rd rs1 rs2 : Reg) (s : State) : Result := .next (s.put rd (fmulF (s.sx rs1) (s.sx rs2)))

/-- FDIV (R203): dividend rs1, divisor rs2. -/
def execFdiv (rd rs1 rs2 : Reg) (s : State) : Result := .next (s.put rd (fdivF (s.sx rs1) (s.sx rs2)))

/-- SADD16 (R211). -/
def execSadd16 (rd rs1 rs2 : Reg) (s : State) : Result := .next (s.put rd (sat16 (s.half rs1 + s.half rs2)))

/-- SSUB16 (R212). -/
def execSsub16 (rd rs1 rs2 : Reg) (s : State) : Result := .next (s.put rd (sat16 (s.half rs1 - s.half rs2)))

/-- SMUL16 (R213): a Q15 product. -/
def execSmul16 (rd rs1 rs2 : Reg) (s : State) : Result :=
  .next (s.put rd (sat16 (shr (s.half rs1 * s.half rs2) 15)))

/-- SAT16 (R214): of the full 32-bit value. -/
def execSat16 (rd rs1 : Reg) (s : State) : Result := .next (s.put rd (sat16 (s.sx rs1)))

end Sys2Proof.Machine
end

