-- ==== Sys2Proof/Machine/Vector.lean ====
section
/-! DEFINITION. The vector functions and commands of 43_vector.md. Sources are read before any destination is written,
so groups may overlap (R230). None raises a fault at execution. -/

namespace Sys2Proof.Machine

/-- VDOT_F (R234). -/
def vdotF (a b : Vec3) : Int := faddF (faddF (fmulF a.x b.x) (fmulF a.y b.y)) (fmulF a.z b.z)

/-- The components of VCROSS (R235). -/
def vcrossF (a b : Vec3) : Vec3 where
  x := fsubF (fmulF a.y b.z) (fmulF a.z b.y)
  y := fsubF (fmulF a.z b.x) (fmulF a.x b.z)
  z := fsubF (fmulF a.x b.y) (fmulF a.y b.x)

/-- A vector times a Q16 scalar (R233). -/
def vscaleF (a : Vec3) (k : Int) : Vec3 := ⟨fmulF a.x k, fmulF a.y k, fmulF a.z k⟩

/-- The scale factor of VNORM (R236). -/
def normScale (a : Vec3) : Int :=
  let d := vdotF a a
  if d ≤ 0 then 0 else fdivF 65536 (sqrtqF d 16)

/-- VADD (R231). -/
def execVadd (rd rs1 rs2 : Reg) (s : State) : Result :=
  let a := s.vec rs1
  let b := s.vec rs2
  .next (s.putVec rd ⟨faddF a.x b.x, faddF a.y b.y, faddF a.z b.z⟩)

/-- VSUB (R232). -/
def execVsub (rd rs1 rs2 : Reg) (s : State) : Result :=
  let a := s.vec rs1
  let b := s.vec rs2
  .next (s.putVec rd ⟨fsubF a.x b.x, fsubF a.y b.y, fsubF a.z b.z⟩)

/-- VSCALE (R233). -/
def execVscale (rd rs1 rs2 : Reg) (s : State) : Result :=
  .next (s.putVec rd (vscaleF (s.vec rs1) (s.sx rs2)))

/-- VDOT (R234). -/
def execVdot (rd rs1 rs2 : Reg) (s : State) : Result :=
  .next (s.put rd (vdotF (s.vec rs1) (s.vec rs2)))

/-- VCROSS (R235). -/
def execVcross (rd rs1 rs2 : Reg) (s : State) : Result :=
  .next (s.putVec rd (vcrossF (s.vec rs1) (s.vec rs2)))

/-- VNORM (R236). -/
def execVnorm (rd rs1 : Reg) (s : State) : Result :=
  .next (s.putVec rd (vscaleF (s.vec rs1) (normScale (s.vec rs1))))

end Sys2Proof.Machine
end

