-- ==== Sys2Proof/Machine/Dispatch.lean ====
section
/-! DEFINITION. The meaning of every command: one arm per constructor. -/

namespace Sys2Proof.Machine

def exec (i : Instr) (s : State) : Host.Outcome State Fault Refusal :=
  match i with
  | .sincos rd rs1 acc => Sys2Proof.Machine.execSincos rd rs1 acc s
  | .tan rd rs1 => Sys2Proof.Machine.execTan rd rs1 s
  | .asin rd rs1 => Sys2Proof.Machine.execAsin rd rs1 s
  | .acos rd rs1 => Sys2Proof.Machine.execAcos rd rs1 s
  | .atan rd rs1 => Sys2Proof.Machine.execAtan rd rs1 s
  | .atan2 rd rs1 rs2 => Sys2Proof.Machine.execAtan2 rd rs1 rs2 s
  | .pow rd rs1 rs2 => Sys2Proof.Machine.execPow rd rs1 rs2 s
  | .exp rd rs1 => Sys2Proof.Machine.execExp rd rs1 s
  | .log rd rs1 rs2 => Sys2Proof.Machine.execLog rd rs1 rs2 s
  | .pow2 rd rs1 rs2 => Sys2Proof.Machine.execPow2 rd rs1 rs2 s
  | .log2 rd rs1 => Sys2Proof.Machine.execLog2 rd rs1 s
  | .sqrt rd rs1 => Sys2Proof.Machine.execSqrt rd rs1 s
  | .sqrtq rd rs1 q => Sys2Proof.Machine.execSqrtq rd rs1 q s
  | .fadd rd rs1 rs2 => Sys2Proof.Machine.execFadd rd rs1 rs2 s
  | .fsub rd rs1 rs2 => Sys2Proof.Machine.execFsub rd rs1 rs2 s
  | .fmul rd rs1 rs2 => Sys2Proof.Machine.execFmul rd rs1 rs2 s
  | .fdiv rd rs1 rs2 => Sys2Proof.Machine.execFdiv rd rs1 rs2 s
  | .sadd16 rd rs1 rs2 => Sys2Proof.Machine.execSadd16 rd rs1 rs2 s
  | .ssub16 rd rs1 rs2 => Sys2Proof.Machine.execSsub16 rd rs1 rs2 s
  | .smul16 rd rs1 rs2 => Sys2Proof.Machine.execSmul16 rd rs1 rs2 s
  | .sat16 rd rs1 => Sys2Proof.Machine.execSat16 rd rs1 s
  | .vadd rd rs1 rs2 => Sys2Proof.Machine.execVadd rd rs1 rs2 s
  | .vsub rd rs1 rs2 => Sys2Proof.Machine.execVsub rd rs1 rs2 s
  | .vscale rd rs1 rs2 => Sys2Proof.Machine.execVscale rd rs1 rs2 s
  | .vdot rd rs1 rs2 => Sys2Proof.Machine.execVdot rd rs1 rs2 s
  | .vcross rd rs1 rs2 => Sys2Proof.Machine.execVcross rd rs1 rs2 s
  | .vnorm rd rs1 => Sys2Proof.Machine.execVnorm rd rs1 s
  | .li rd imm => Sys2Proof.Machine.execLi rd imm s
  | .lih rd imm => Sys2Proof.Machine.execLih rd imm s
  | .mov rd rs1 => Sys2Proof.Machine.execMov rd rs1 s
  | .csrr rd csr => Sys2Proof.Machine.execCsrr rd csr s
  | .csrw csr rs1 => Sys2Proof.Machine.execCsrw csr rs1 s
  | .minit rd rs1 => Sys2Proof.Machine.execMinit rd rs1 s
  | .mstart rd rs1 => Sys2Proof.Machine.execMstart rd rs1 s
  | .mupdate rd rs1 => Sys2Proof.Machine.execMupdate rd rs1 s
  | .mstop rs1 => Sys2Proof.Machine.execMstop rs1 s
  | .mquery rd rs1 => Sys2Proof.Machine.execMquery rd rs1 s
  | .many rd => Sys2Proof.Machine.execMany rd s
  | .mmix rs1 rs2 => Sys2Proof.Machine.execMmix rs1 rs2 s
  | .minfo rd rs1 => Sys2Proof.Machine.execMinfo rd rs1 s

end Sys2Proof.Machine
end

