-- ==== Sys2Proof/Machine/Window.lean ====
section
/-! DEFINITION. The host register window (60_exceptions.md R360, R361) and reset (70_reset_and_hazards.md R380, R381). -/

namespace Sys2Proof.Machine

/-- What stands at a word of the window (R360). -/
inductive WindowReg where
  | cmd | csr (c : Csr) | reserved | x (r : Reg)
  deriving DecidableEq, Repr

/-- The word at a byte offset of the window; none past its 32 words or off alignment (R360). -/
def windowReg (off : Nat) : Option WindowReg :=
  if off % 4 ≠ 0 ∨ 0x80 ≤ off then none
  else if off = 0 then some .cmd
  else if 0x40 ≤ off then some (.x (Fin.ofNat 16 ((off - 0x40) / 4)))
  else
    match Csr.ofNumber (off / 4 - 1) with
    | some c => some (.csr c)
    | none => some .reserved

/-- The window word of a host access; none for an access that R360 gives no defined effect (log 6). The byte offset is
taken from QFX_BASE (R6). -/
def State.windowTarget (s : State) (addr : Word) (size : AccessSize) : Option WindowReg :=
  match size with
  | .word => windowReg (addr - s.params.qfxBase).toNat
  | .half | .byte => none

/-- What a host read of a window word returns (R360, column "Host read"). -/
def State.windowRead (s : State) : WindowReg → Word
  | .cmd => 0
  | .csr c => s.csr c
  | .reserved => 0
  | .x r => s.x r

/-- Reset (R380): every field of the block at its reset value. R381: data memory, the events already emitted, admission
and the parameters stay, and no event is emitted. The input and the host's last read are not the block's. -/
def State.resetBlock (s : State) : State :=
  { s with
    regs := Vector.replicate 16 0
    halted := false
    cause := .none
    faultCmd := 0
    faultInfo := 0
    tick := 0
    outRate := BitVec.ofNat 32 s.params.outRateReset
    pitched := false
    slots := List.replicate s.nch Slot.zero
    stepTab := buildStepTab (BitVec.ofNat 32 s.params.outRateReset) }

end Sys2Proof.Machine
end

