-- ==== Sys2Proof/Machine/Issue.lean ====
section
/-! DEFINITION. What one action of the host does to the machine: a command issued through CMD (60_exceptions.md R348),
the other window accesses (R360, R361), the host's stores, admission and reset. -/

namespace Sys2Proof.Machine

/-- A word written to CMD (R348): ignored while halted (R342); otherwise decoded (R100), a word that fails a check
raising ILLEGAL_COMMAND with FAULT_INFO 0 (R340), a legal one run. -/
def issue (w : Word) (s : State) : Result :=
  if s.halted then .next s
  else
    match decode w with
    | .error _ => .next (s.raise w .illegalCommand 0)
    | .ok i => exec i s

/-- A host write of a word to a register of the window (R360). -/
def windowWrite (r : WindowReg) (w : Word) (s : State) : Result :=
  match r with
  | .cmd => issue w s
  | .csr c => .next (s.csrWrite c w)
  | .reserved => .next s
  | .x q => .next (s.setX q w)

/-- One action of the host. -/
def perform (a : HostAction) (s : State) : Result :=
  match a with
  | .windowWrite addr size w =>
    match s.windowTarget addr size with
    | none => .refused .undefinedWindowAccess
    | some r => windowWrite r w s
  | .windowRead addr size =>
    match s.windowTarget addr size with
    | none => .refused .undefinedWindowAccess
    | some r => .next { s with readData := s.windowRead r }
  | .store addr b => .next (s.putByte addr.toNat b)
  | .storeDuring _ addr b =>
    -- while halted the CMD write runs no command (R342), so the store falls between commands
    if s.halted then .next (s.putByte addr.toNat b) else .fault .hostStoreRace
  | .setAdmission l => .next { s with withheld := l }
  | .reset _ => .next s.resetBlock

/-- The word of a command whose bits are `w`, every bit from `nbits` on being 0. -/
def commandWord (nbits w : Nat) : Word := BitVec.ofNat 32 (w % 2 ^ nbits)

/-- The host's write of a word to CMD, at QFX_BASE + 0 (R360). -/
def State.cmdWrite (s : State) (w : Word) : HostAction := .windowWrite s.params.qfxBase .word w

end Sys2Proof.Machine
end

