-- ==== Sys2Proof/Machine/Step.lean ====
section
/-! DEFINITION. One step: the host's next action happens, a whole command if it is a write to CMD (20_memory.md R70). -/

namespace Sys2Proof.Machine

/-- With no action of the host left nothing happens: the block executes nothing on its own (R383). -/
def step (s : State) : Host.Outcome State Fault Refusal :=
  match s.input with
  | [] => .next s
  | a :: rest => perform a { s with input := rest }

/-- `s` with the command of `nbits` bits `w` as the host's next write to CMD: QFX16 fetches nothing from memory, and a
command is the value of one host write (R22, R90; log 1). -/
def State.withFetchWord (s : State) (nbits w : Nat) : State :=
  { s with input := s.cmdWrite (commandWord nbits w) :: s.input }

end Sys2Proof.Machine
end

