-- ==== Sys2Proof/Safety.lean ====
section
/-! DEFINITION. The terms in which statements speak of runs: what a command leaves unchanged, the states that obey the
spec's own invariants, and the opcode table as an independent list of rows. -/

namespace Sys2Proof.Machine

/-! ### Frames -/

/-- HALTED, CAUSE, FAULT_CMD and FAULT_INFO are unchanged. -/
def SameFaultRecord (s t : State) : Prop :=
  t.halted = s.halted ∧ t.cause = s.cause ∧ t.faultCmd = s.faultCmd ∧ t.faultInfo = s.faultInfo

/-- TICK, OUTRATE, CONFIG and STEPTAB are unchanged. -/
def SameControl (s t : State) : Prop :=
  t.tick = s.tick ∧ t.outRate = s.outRate ∧ t.pitched = s.pitched ∧ t.stepTab = s.stepTab

/-- Every slot and the event stream are unchanged. -/
def SameChannels (s t : State) : Prop := t.slots = s.slots ∧ t.events = s.events

/-- Admission, the parameters, the host's pending actions and its last read are unchanged. -/
def SameHostSide (s t : State) : Prop :=
  t.withheld = s.withheld ∧ t.params = s.params ∧ t.input = s.input ∧ t.readData = s.readData

/-- Every register outside the list is unchanged. -/
def SameRegsBut (written : List Reg) (s t : State) : Prop := ∀ r, r ∉ written → t.x r = s.x r

/-- Every byte of memory whose address is not in the range of `n` bytes from `a` is unchanged. -/
def SameBytesOutside (a n : Nat) (s t : State) : Prop :=
  ∀ b, ¬(a ≤ b ∧ b < a + n) → t.byteAt b = s.byteAt b

/-- Every byte of memory is unchanged. -/
def SameBytes (s t : State) : Prop := ∀ a, t.byteAt a = s.byteAt a

/-- Nothing but the listed registers may differ. -/
def OnlyRegs (written : List Reg) (s t : State) : Prop :=
  SameRegsBut written s t ∧ SameFaultRecord s t ∧ SameControl s t ∧ SameChannels s t ∧ SameHostSide s t ∧
    SameBytes s t

/-- Nothing but the fault record may differ (R341), and it holds the cause, the word and the information. -/
def HaltedBy (w : Word) (k : Cause) (info : Word) (s t : State) : Prop :=
  t.halted = true ∧ t.cause = k ∧ t.faultCmd = w ∧ t.faultInfo = info ∧
    SameRegsBut [] s t ∧ SameControl s t ∧ SameChannels s t ∧ SameHostSide s t ∧ SameBytes s t

/-- The command completes: its next state holds `v` in register `rd` and differs in nothing else. -/
def CompletesWith (i : Instr) (s : State) (rd : Reg) (v : Word) : Prop :=
  ∃ t, exec i s = .next t ∧ t.x rd = v ∧ OnlyRegs [rd] s t

/-- The command completes with two results in consecutive registers. -/
def CompletesWith2 (i : Instr) (s : State) (rd : Reg) (v0 v1 : Word) : Prop :=
  ∃ t, exec i s = .next t ∧ t.x rd = v0 ∧ t.x (rd + 1) = v1 ∧ OnlyRegs [rd, rd + 1] s t

/-- The command completes with three results in consecutive registers. -/
def CompletesWith3 (i : Instr) (s : State) (rd : Reg) (v0 v1 v2 : Word) : Prop :=
  ∃ t, exec i s = .next t ∧ t.x rd = v0 ∧ t.x (rd + 1) = v1 ∧ t.x (rd + 2) = v2 ∧
    OnlyRegs [rd, rd + 1, rd + 2] s t

/-- The command completes with four results in consecutive registers. -/
def CompletesWith4 (i : Instr) (s : State) (rd : Reg) (v0 v1 v2 v3 : Word) : Prop :=
  ∃ t, exec i s = .next t ∧ t.x rd = v0 ∧ t.x (rd + 1) = v1 ∧ t.x (rd + 2) = v2 ∧ t.x (rd + 3) = v3 ∧
    OnlyRegs [rd, rd + 1, rd + 2, rd + 3] s t

/-- An event of the channel `c`. -/
def eventOf (c : Nat) (e : Event) : Bool :=
  match e with
  | .release ch _ => ch = c

/-- The address of the sample byte after `p`, clamped at END (R290, R291). -/
def Slot.byteAfter (sl : Slot) (p : Nat) : Nat := if p + 1 ≤ sl.endAddr.toNat then p + 1 else p

/-- The byte accesses of the frame at `o`, in the order in which R344 item 4 checks them: the output bytes for write,
with MIX_ADD_EXISTING for read too, then the current and the next sample byte of every active slot, by index. -/
def State.frameAccesses (s : State) (o : Nat) : List (Nat × AccessKind) :=
  [(o, .write), (o + 1, .write), (o + 2, .write), (o + 3, .write)] ++
    (if s.params.mixAddExisting then [(o, .read), (o + 1, .read), (o + 2, .read), (o + 3, .read)] else []) ++
    (s.slots.filter Slot.active).flatMap fun sl =>
      [(sl.cur.toNat, .read), (sl.byteAfter sl.cur.toNat, .read)]

/-- The Q16 product of two registers' values as a register (R202). -/
def q16Product (a b : Word) : Word := BitVec.ofInt 32 (a.toInt * b.toInt / 65536)

/-! ### The invariant of every run -/

/-- The slot invariant (R45, R294): an active slot's cursor lies after the header and, with END_ADJUST = 1, at or
before END. -/
def Slot.Ok (endAdjust : Nat) (sl : Slot) : Prop :=
  sl.active = true →
    sl.base.toNat + 8 ≤ sl.cur.toNat ∧ (endAdjust = 1 → sl.cur.toNat ≤ sl.endAddr.toNat)

/-- What holds at reset and after every step. -/
structure Inv (s : State) : Prop where
  /-- Memory keeps its canonical form. -/
  memory : Memory.wf s.mem = true
  /-- The parameters have legal values (R6). -/
  params : s.params.legal = true
  /-- NCH is 1..255 (R6). -/
  channels : 1 ≤ s.nch ∧ s.nch ≤ 255
  /-- OUTRATE is 1..65535 (R41). -/
  rate : 1 ≤ s.outRate.toNat ∧ s.outRate.toNat ≤ 65535
  /-- STEPTAB is the table of the current OUTRATE (R262). -/
  table : s.stepTab = buildStepTab s.outRate
  /-- CAUSE is 0 exactly while HALTED is 0, and the fault record is 0 until the first fault (R35 to R37). -/
  running : s.halted = false → s.cause = .none ∧ s.faultCmd = 0 ∧ s.faultInfo = 0
  stopped : s.halted = true → s.cause ≠ .none
  /-- Every slot obeys the slot invariant (R294). -/
  slots : ∀ sl ∈ s.slots, sl.Ok s.params.endAdjust

/-! ### The opcode table -/

/-- The fields R94 requires to be 0 for each shape, named as in its column "Fields required 0" (R93: RD is bits 23:20,
RS1 19:16, RS2 15:12, RSV 11:8, IMM8 7:0). -/
def unusedFieldsZero (sh : Shape) (w : Word) : Prop :=
  let rd := bits w 23 20
  let rs1 := bits w 19 16
  let rs2 := bits w 15 12
  let rsv := bits w 11 8
  let imm8 := bits w 7 0
  match sh with
  | .dst => rsv = 0 ∧ imm8 = 0
  | .ds => rs2 = 0 ∧ rsv = 0 ∧ imm8 = 0
  | .dsi => rs2 = 0 ∧ rsv = 0
  | .d => rs1 = 0 ∧ rs2 = 0 ∧ rsv = 0 ∧ imm8 = 0
  | .s => rd = 0 ∧ rs2 = 0 ∧ rsv = 0 ∧ imm8 = 0
  | .st => rd = 0 ∧ rsv = 0 ∧ imm8 = 0
  | .di => rs1 = 0 ∧ rs2 = 0 ∧ rsv = 0
  | .si => rd = 0 ∧ rs2 = 0 ∧ rsv = 0
  | .imm => rs1 = 0

/-- The column "Limit" of R99, as the register numbers past it. -/
def pastX15 : Instr → Prop
  | .sincos rd _ _ => 14 < rd.val
  | .log2 rd _ => 14 < rd.val
  | .vadd rd rs1 rs2 => 13 < rd.val ∨ 13 < rs1.val ∨ 13 < rs2.val
  | .vsub rd rs1 rs2 => 13 < rd.val ∨ 13 < rs1.val ∨ 13 < rs2.val
  | .vcross rd rs1 rs2 => 13 < rd.val ∨ 13 < rs1.val ∨ 13 < rs2.val
  | .vscale rd rs1 _ => 13 < rd.val ∨ 13 < rs1.val
  | .vdot _ rs1 rs2 => 13 < rs1.val ∨ 13 < rs2.val
  | .vnorm rd rs1 => 13 < rd.val ∨ 13 < rs1.val
  | .mstart _ rs1 => 9 < rs1.val
  | .mupdate _ rs1 => 12 < rs1.val
  | .minfo rd _ => 12 < rd.val
  | _ => False

/-- A row of spec/opcode_table.json: match, mask and limits of the fields. -/
structure OpcodeRow where
  value : Word
  mask : Word
  rdMax : Nat := 15
  rs1Max : Nat := 15
  rs2Max : Nat := 15
  imm8Max : Nat := 255
  deriving DecidableEq, Repr

/-- A word is of a row when its masked bits match and its fields are within the row's limits (R96, R98, R99). -/
def OpcodeRow.accepts (r : OpcodeRow) (w : Word) : Bool :=
  w &&& r.mask == r.value && (rdField w).val ≤ r.rdMax && (rs1Field w).val ≤ r.rs1Max &&
    (rs2Field w).val ≤ r.rs2Max && (imm8Field w).toNat ≤ r.imm8Max

/-- The rows of spec/opcode_table.json in its order. -/
def opcodeRows : List OpcodeRow :=
  [ { value := 0x01000000#32, mask := 0xFF00FF00#32, rdMax := 14, imm8Max := 30 },
    { value := 0x02000000#32, mask := 0xFF00FFFF#32 },
    { value := 0x03000000#32, mask := 0xFF00FFFF#32 },
    { value := 0x04000000#32, mask := 0xFF00FFFF#32 },
    { value := 0x05000000#32, mask := 0xFF00FFFF#32 },
    { value := 0x06000000#32, mask := 0xFF000FFF#32 },
    { value := 0x08000000#32, mask := 0xFF000FFF#32 },
    { value := 0x09000000#32, mask := 0xFF00FFFF#32 },
    { value := 0x0A000000#32, mask := 0xFF000FFF#32 },
    { value := 0x0B000000#32, mask := 0xFF000FFF#32 },
    { value := 0x0C000000#32, mask := 0xFF00FFFF#32, rdMax := 14 },
    { value := 0x0D000000#32, mask := 0xFF00FFFF#32 },
    { value := 0x0E000000#32, mask := 0xFF00FF00#32, imm8Max := 31 },
    { value := 0x10000000#32, mask := 0xFF000FFF#32 },
    { value := 0x11000000#32, mask := 0xFF000FFF#32 },
    { value := 0x12000000#32, mask := 0xFF000FFF#32 },
    { value := 0x13000000#32, mask := 0xFF000FFF#32 },
    { value := 0x18000000#32, mask := 0xFF000FFF#32 },
    { value := 0x19000000#32, mask := 0xFF000FFF#32 },
    { value := 0x1A000000#32, mask := 0xFF000FFF#32 } ] ++
  [ { value := 0x1B000000#32, mask := 0xFF00FFFF#32 },
    { value := 0x20000000#32, mask := 0xFF000FFF#32, rdMax := 13, rs1Max := 13, rs2Max := 13 },
    { value := 0x21000000#32, mask := 0xFF000FFF#32, rdMax := 13, rs1Max := 13, rs2Max := 13 },
    { value := 0x22000000#32, mask := 0xFF000FFF#32, rdMax := 13, rs1Max := 13 },
    { value := 0x23000000#32, mask := 0xFF000FFF#32, rs1Max := 13, rs2Max := 13 },
    { value := 0x24000000#32, mask := 0xFF000FFF#32, rdMax := 13, rs1Max := 13, rs2Max := 13 },
    { value := 0x25000000#32, mask := 0xFF00FFFF#32, rdMax := 13, rs1Max := 13 },
    { value := 0x30000000#32, mask := 0xFF0F0000#32 },
    { value := 0x31000000#32, mask := 0xFF0F0000#32 },
    { value := 0x32000000#32, mask := 0xFF00FFFF#32 },
    { value := 0x38000000#32, mask := 0xFF0FFF00#32, imm8Max := 6 },
    { value := 0x39000000#32, mask := 0xFFF0FF00#32, imm8Max := 6 },
    { value := 0x40000000#32, mask := 0xFF00FFFF#32 },
    { value := 0x41000000#32, mask := 0xFF00FFFF#32, rs1Max := 9 },
    { value := 0x42000000#32, mask := 0xFF00FFFF#32, rs1Max := 12 },
    { value := 0x43000000#32, mask := 0xFFF0FFFF#32 },
    { value := 0x44000000#32, mask := 0xFF00FFFF#32 },
    { value := 0x45000000#32, mask := 0xFF0FFFFF#32 },
    { value := 0x46000000#32, mask := 0xFFF00FFF#32 },
    { value := 0x47000000#32, mask := 0xFF00FFFF#32, rdMax := 12 } ]

end Sys2Proof.Machine
end

