-- ==== Sys2Proof/Certificates/Slice0/Obligations.lean ====
section
/-! DEFINITION. The statements for the provers. Each docstring names the rules of spec/ that it formalises. -/

open Sys2Proof Sys2Proof.Machine

/-! ### Encoding (30_encoding.md) -/

/-- R95, R98, R99, R110: every command within its limits is read back from its word, with every operand. -/
def Obligations.DecodeOfEncode : Prop :=
  ∀ i : Instr, i.wellFormed = true → decode (encode i) = .ok i

/-- R102: a legal word is the encoding of its one command, two legal words of one command are one word, and OPC decides
which command it is. -/
def Obligations.LegalWordsHaveOneCommand : Prop :=
  (∀ w i, decode w = .ok i → i.wellFormed = true ∧ encode i = w) ∧
  (∀ w w' i, decode w = .ok i → decode w' = .ok i → w = w') ∧
  (∀ w w' i i', decode w = .ok i → decode w' = .ok i' → (opcField w = opcField w' ↔ i.ctorIdx = i'.ctorIdx))

/-- R95, R96, R98 to R100: a word is legal exactly when some row of opcode_table.json accepts it by mask, match and
limits. -/
def Obligations.LegalWordsMatchTheTable : Prop :=
  ∀ w, (∃ i, decode w = .ok i) ↔ ∃ row ∈ opcodeRows, row.accepts w = true

/-- R96: the mask rule says that every field the shape does not use is 0, and a word that breaks it is
ILLEGAL_COMMAND. -/
def Obligations.ReservedFieldsAreZero : Prop :=
  ∀ w sh, opcodeShape (opcField w) = some sh →
    ((w &&& sh.mask = BitVec.ofNat 32 (opcField w * 2 ^ 24)) ↔ unusedFieldsZero sh w) ∧
    (¬unusedFieldsZero sh w → ∀ s : State, s.halted = false →
      ∃ t, issue w s = .next t ∧ HaltedBy w .illegalCommand 0 s t)

/-- R98: an immediate outside its range makes the word ILLEGAL_COMMAND, one inside does not; SINCOS reads it as the
iteration count, 0 as 30, SQRTQ as the Q-factor, CSRR and CSRW as the control register's number. -/
def Obligations.ImmediateLimits : Prop :=
  (∀ (rd rs1 : Reg) (v : Byte),
    (30 < v.toNat → decode (encR 0x01 rd rs1 0 v.toNat) = .error .immediateRange) ∧
    (v.toNat ≤ 30 → rd.val ≤ 14 → decode (encR 0x01 rd rs1 0 v.toNat) = .ok (.sincos rd rs1 v)) ∧
    (31 < v.toNat → decode (encR 0x0E rd rs1 0 v.toNat) = .error .immediateRange) ∧
    (v.toNat ≤ 31 → decode (encR 0x0E rd rs1 0 v.toNat) = .ok (.sqrtq rd rs1 v)) ∧
    (6 < v.toNat → decode (encR 0x38 rd 0 0 v.toNat) = .error .immediateRange ∧
      decode (encR 0x39 0 rs1 0 v.toNat) = .error .immediateRange) ∧
    (v.toNat ≤ 6 → ∃ c : Csr, c.number = v.toNat ∧ decode (encR 0x38 rd 0 0 v.toNat) = .ok (.csrr rd c) ∧
      decode (encR 0x39 0 rs1 0 v.toNat) = .ok (.csrw c rs1))) ∧
  (∀ (rd rs1 : Reg) (v : Byte) (s : State),
    (v ≠ 0 → CompletesWith2 (.sincos rd rs1 v) s rd (toWord (sincosF (s.sx rs1) v.toNat).1)
      (toWord (sincosF (s.sx rs1) v.toNat).2)) ∧
    exec (.sincos rd rs1 0) s = exec (.sincos rd rs1 30) s ∧
    CompletesWith (.sqrtq rd rs1 v) s rd (toWord (sqrtqF (s.sx rs1) v.toNat))) ∧
  (∀ w e (s : State), decode w = .error e → s.halted = false →
    ∃ t, issue w s = .next t ∧ HaltedBy w .illegalCommand 0 s t)

/-- R99: a register group that would pass X15 makes the word ILLEGAL_COMMAND, by the table of R99. -/
def Obligations.RegisterGroupsEndAtX15 : Prop :=
  ∀ i : Instr, i.immediateOk = true →
    (decode (encode i) = .error .registerGroup ↔ pastX15 i) ∧ (decode (encode i) = .ok i ↔ ¬pastX15 i)

/-- R91, R92, R95: words written out in the spec (95_test_vectors.md section 2.1 and the examples of the rules) decode to
the commands they stand for. -/
def Obligations.SpecWordsDecode : Prop :=
  decode 0x0121001E#32 = .ok (.sincos 2 1 30) ∧ decode 0x06723000#32 = .ok (.atan2 7 2 3) ∧
  decode 0x0E21000F#32 = .ok (.sqrtq 2 1 15) ∧ decode 0x19DB8000#32 = .ok (.ssub16 13 11 8) ∧
  decode 0x22DDE000#32 = .ok (.vscale 13 13 14) ∧ decode 0x3010860B#32 = .ok (.li 1 0x860B) ∧
  decode 0x39010005#32 = .ok (.csrw .config 1) ∧ decode 0x4609A000#32 = .ok (.mmix 9 10) ∧
  decode 0x01F10000#32 = .error .registerGroup ∧ decode 0x02210100#32 = .error .reservedField ∧
  decode 0x00000000#32 = .error .reservedOpcode ∧ decode 0xFFFFFFFF#32 = .error .reservedOpcode ∧
  decode 0x38100007#32 = .error .immediateRange

/-! ### Steps, the host register window, halting and reset -/

/-- R348, R70: when the host's next action writes a legal word to CMD and the block is not halted, the step is the
command's, on the state whose input has lost that action. -/
def Obligations.StepRunsTheDecodedCommand : Prop :=
  ∀ (s : State) (w : Word) (rest : List HostAction) (i : Instr), s.halted = false →
    s.input = s.cmdWrite w :: rest → decode w = .ok i → step s = exec i { s with input := rest }

/-- R100, R340, R341: a word that fails a decode check halts the block with cause 1, FAULT_INFO 0 and the word, and has
no other effect. -/
def Obligations.IllegalWordHaltsTheBlock : Prop :=
  ∀ (s : State) (w : Word) (rest : List HostAction) (e : DecodeError), s.halted = false →
    s.input = s.cmdWrite w :: rest → decode w = .error e →
    ∃ t, step s = .next t ∧ HaltedBy w .illegalCommand 0 { s with input := rest } t

/-- R342: while halted a CMD write is ignored; the window's registers are still read and written; nothing but reset
clears HALTED or changes the fault record. -/
def Obligations.HaltedUntilReset : Prop :=
  ∀ (s : State) (a : HostAction) (rest : List HostAction), s.halted = true → s.input = a :: rest →
    (∀ w, a = s.cmdWrite w → step s = .next { s with input := rest }) ∧
    (∀ (r : Reg) w, a = .windowWrite (s.params.qfxBase + BitVec.ofNat 32 (0x40 + 4 * r.val)) .word w →
      step s = .next ({ s with input := rest }.setX r w)) ∧
    (∀ w, a = .windowWrite (s.params.qfxBase + 0x10) .word w → step s = .next { s with input := rest, tick := w }) ∧
    (∀ w, a = .windowWrite (s.params.qfxBase + 0x18) .word w →
      step s = .next { s with input := rest, pitched := w.getLsbD 0 }) ∧
    (a = .windowRead (s.params.qfxBase + 4) .word →
      step s = .next { s with input := rest, readData := BitVec.ofNat 32 (1 + 256 * s.cause.code) }) ∧
    (∀ t, step s = .next t → (∀ r, a ≠ .reset r) → SameFaultRecord s t) ∧
    (∀ r, a = .reset r → ∃ t, step s = .next t ∧ t.halted = false)

/-- R360, column "Host read": what the host reads at each offset of the window, and that the read changes nothing of the
block. -/
def Obligations.WindowReadValues : Prop :=
  ∀ (s : State) (off : Nat) (rest : List HostAction), off < 0x80 → off % 4 = 0 →
    s.input = .windowRead (s.params.qfxBase + BitVec.ofNat 32 off) .word :: rest →
    step s = .next { s with
      input := rest
      readData :=
        if off = 0x04 then BitVec.ofNat 32 (s.halted.toNat + 256 * s.cause.code)
        else if off = 0x08 then s.faultCmd
        else if off = 0x0C then s.faultInfo
        else if off = 0x10 then s.tick
        else if off = 0x14 then s.outRate
        else if off = 0x18 then BitVec.ofNat 32 s.pitched.toNat
        else if off = 0x1C then BitVec.ofNat 32 (s.nch + 0x100)
        else if 0x40 ≤ off then s.x (Fin.ofNat 16 ((off - 0x40) / 4))
        else 0 }

/-- R360, R361, column "Host write", besides CMD: TICK, CONFIG and the registers are written, halted or not; every other
offset ignores the write. -/
def Obligations.WindowWriteEffects : Prop :=
  ∀ (s : State) (off : Nat) (w : Word) (rest : List HostAction), 0 < off → off < 0x80 → off % 4 = 0 →
    s.input = .windowWrite (s.params.qfxBase + BitVec.ofNat 32 off) .word w :: rest →
    step s = .next (
      if off = 0x10 then { s with input := rest, tick := w }
      else if off = 0x18 then { s with input := rest, pitched := w.getLsbD 0 }
      else if 0x40 ≤ off then { s with input := rest }.setX (Fin.ofNat 16 ((off - 0x40) / 4)) w
      else { s with input := rest })

/-- R72, R360 and the model's choices of log 6 and log 7: a window access that is not an aligned word of the window is
refused; a host store lands between commands and ends the run when a command executes. -/
def Obligations.OtherHostActions : Prop :=
  (∀ (s : State) (addr : Word) (size : AccessSize) (w : Word) (rest : List HostAction),
    (size ≠ .word ∨ (addr - s.params.qfxBase).toNat % 4 ≠ 0 ∨ 0x80 ≤ (addr - s.params.qfxBase).toNat) →
    (s.input = .windowWrite addr size w :: rest ∨ s.input = .windowRead addr size :: rest) →
    step s = .refused .undefinedWindowAccess) ∧
  (∀ (s : State) (addr : Word) (b : Byte) (rest : List HostAction), s.input = .store addr b :: rest →
    ∃ t, step s = .next t ∧ t = { s with input := rest, mem := t.mem } ∧
      ∀ a, t.byteAt a = if a = addr.toNat then b else s.byteAt a) ∧
  (∀ (s : State) (w addr : Word) (b : Byte) (rest : List HostAction), s.halted = false →
    s.input = .storeDuring w addr b :: rest → step s = .fault .hostStoreRace)

/-- R380, R381: reset gives every register, control register, slot and STEPTAB entry its reset value, the mixer's part
being what MINIT leaves from a state with no active slot; it keeps memory, events, admission and parameters. -/
def Obligations.ResetRestoresTheBlock : Prop :=
  ∀ (s : State) (running : Option Word) (rest : List HostAction), s.input = .reset running :: rest →
    ∃ t, step s = .next t ∧ (∀ r, t.x r = 0) ∧ t.halted = false ∧ t.csr .status = 0 ∧ t.faultCmd = 0 ∧
      t.faultInfo = 0 ∧ t.tick = 0 ∧ t.outRate = BitVec.ofNat 32 s.params.outRateReset ∧ t.csr .config = 0 ∧
      t.csr .idReg = BitVec.ofNat 32 (s.nch + 0x100) ∧ t.nch = s.nch ∧ (∀ c, t.slot c = Slot.zero) ∧
      (∀ p : Fin 256, t.stepTab[p] = stepEntry (BitVec.ofNat 32 s.params.outRateReset).toNat p.val) ∧
      t.events = s.events ∧ SameBytes s t ∧ t.withheld = s.withheld ∧ t.params = s.params ∧ t.input = rest ∧
      t.readData = s.readData ∧
      (∀ rd rs1 u v, s.params.legal = true → (∀ sl ∈ u.slots, sl.active = false) → u.nch = s.nch →
        u.x rs1 = BitVec.ofNat 32 s.params.outRateReset → exec (.minit rd rs1) u = .next v →
        v.slots = t.slots ∧ v.outRate = t.outRate ∧ v.stepTab = t.stepTab ∧ v.events = u.events)

/-- R380, R383, R6: the machine's reset state at the default parameters (OUT_RATE_RESET 11025, NCH 32, IDREG 0x120), and
a block that is given nothing to do does nothing (log 1 for the step without input). -/
def Obligations.MachineStartsAtReset : Prop :=
  (∀ r, State.reset.x r = 0) ∧ State.reset.csr .status = 0 ∧ State.reset.faultCmd = 0 ∧
  State.reset.faultInfo = 0 ∧ State.reset.tick = 0 ∧ State.reset.outRate = 11025 ∧ State.reset.csr .config = 0 ∧
  State.reset.csr .idReg = 0x120 ∧ State.reset.slots = List.replicate 32 Slot.zero ∧
  (∀ p : Fin 256, State.reset.stepTab[p] = stepEntry 11025 p.val) ∧ State.reset.events = [] ∧
  (∀ s : State, s.input = [] → step s = .next s)

/-! ### Rules of the whole machine -/

/-- The invariant of Safety.lean (R6, R35 to R37, R41, R45, R262, R294, memory's canonical form) is kept by every step,
the host's actions and reset included. -/
def Obligations.StepKeepsTheInvariant : Prop :=
  ∀ s t : State, Inv s → step s = .next t → Inv t

/-- The reset state has the invariant. -/
def Obligations.ResetHasTheInvariant : Prop := Inv State.reset

/-- R6, R52, R381: no step changes a parameter or the number of channels, and every step only appends to the event
stream. -/
def Obligations.StepsKeepParametersAndEvents : Prop :=
  ∀ s t : State, step s = .next t →
    t.params = s.params ∧ t.nch = s.nch ∧ ∃ new, t.events = s.events ++ new

/-- R348, R340 to R343: every 32-bit word the host writes to CMD leads to a next state. -/
def Obligations.EveryCommandWordGoesOn : Prop :=
  ∀ (s : State) (w : Word), ∃ t, issue w s = .next t

/-- R46, R52, R261: a command releases a channel at most once, with the base it held, and only an active one; every
change from active to empty is released; only MSTART releases a channel that is active afterwards. -/
def Obligations.ReleasesMatchStops : Prop :=
  ∀ (i : Instr) (s t : State), exec i s = .next t →
    ∃ new, t.events = s.events ++ new ∧
      ∀ c, (new.filter (eventOf c) = [] ∨
          ((s.slot c).active = true ∧ new.filter (eventOf c) = [.release c (s.slot c).base])) ∧
        ((s.slot c).active = true → (t.slot c).active = false → new.filter (eventOf c) ≠ []) ∧
        ((∀ rd rs1, i ≠ .mstart rd rs1) → new.filter (eventOf c) ≠ [] → (t.slot c).active = false)

/-- R341, R343, R293: a command that faults leaves the state before it with the fault record set; MMIX leaves the state
after the frames before the failing one. MUPDATE faults only with VOLUME_RANGE, MMIX only with BUS_ERROR, and no command
but these and MSTART faults. -/
def Obligations.FaultsArePrecise : Prop :=
  ∀ (i : Instr) (s t : State), s.halted = false → exec i s = .next t → t.halted = true →
    (∃ rd rs1, i = .mstart rd rs1 ∧ (t.cause = .busError ∨ t.cause = .volumeRange) ∧
      HaltedBy (encode i) t.cause t.faultInfo s t) ∨
    (∃ rd rs1, i = .mupdate rd rs1 ∧ HaltedBy (encode i) .volumeRange t.faultInfo s t) ∨
    (∃ rs1 rs2, ∃ f : Nat, ∃ u : State, i = .mmix rs1 rs2 ∧ (f : Int) < s.sx rs2 / 4 ∧
      State.mixFrames f (s.x rs1).toNat s = (u, none) ∧
      u.mixFrame ((s.x rs1).toNat + 4 * f) = .error t.faultInfo ∧ HaltedBy (encode i) .busError t.faultInfo u t)

/-- R61: a command other than MSTART and MMIX neither reads nor writes data memory and does not depend on admission;
MSTART reads only the two header bytes and writes none. -/
def Obligations.OnlyTwoCommandsUseThePort : Prop :=
  (∀ (i : Instr) (s t : State) (m : Memory) (d : List Withheld), (∀ rd rs1, i ≠ .mstart rd rs1) →
    (∀ rs1 rs2, i ≠ .mmix rs1 rs2) → exec i s = .next t →
    SameBytes s t ∧ exec i { s with mem := m, withheld := d } = .next { t with mem := m, withheld := d }) ∧
  (∀ (rd rs1 : Reg) (s t : State) (m : Memory), exec (.mstart rd rs1) s = .next t →
    Memory.get m ((s.x (rs1 + 2)).toNat + 2) = s.byteAt ((s.x (rs1 + 2)).toNat + 2) →
    Memory.get m ((s.x (rs1 + 2)).toNat + 3) = s.byteAt ((s.x (rs1 + 2)).toNat + 3) →
    SameBytes s t ∧ exec (.mstart rd rs1) { s with mem := m } = .next { t with mem := m })

/-- R260, R34, R38, R39, R41: which commands can change the slots and the event stream, OUTRATE and STEPTAB, and TICK
and CONFIG. -/
def Obligations.WritersOfMixerAndControl : Prop :=
  ∀ (i : Instr) (s t : State), exec i s = .next t →
    ((∀ rd rs1, i ≠ .minit rd rs1 ∧ i ≠ .mstart rd rs1 ∧ i ≠ .mupdate rd rs1 ∧ i ≠ .mstop rd ∧ i ≠ .mmix rd rs1) →
      SameChannels s t) ∧
    ((∀ rd rs1, i ≠ .minit rd rs1) → t.outRate = s.outRate ∧ t.stepTab = s.stepTab) ∧
    ((∀ c rs1, i ≠ .csrw c rs1) → t.tick = s.tick ∧ t.pitched = s.pitched) ∧ SameHostSide s t

/-! ### CORDIC unit (40_cordic.md) -/

/-- R130, R123: SINCOS writes sine and cosine to two consecutive registers; angle 0 gives exactly (0, 1.0) at every
iteration count; every other angle the two components of SINCOS_F. -/
def Obligations.SincosWritesThePair : Prop :=
  ∀ (rd rs1 : Reg) (acc : Byte) (s : State),
    (rd.val ≤ 14 → acc.toNat ≤ 30 → decode (encR 0x01 rd rs1 0 acc.toNat) = .ok (.sincos rd rs1 acc)) ∧
    CompletesWith2 (.sincos rd rs1 acc) s rd
      (if s.x rs1 = 0 then 0 else toWord (sincosF (s.sx rs1) (if acc = 0 then 30 else acc.toNat)).1)
      (if s.x rs1 = 0 then 0x10000 else toWord (sincosF (s.sx rs1) (if acc = 0 then 30 else acc.toNat)).2)

/-- R123: both components lie in [-1.0, 1.0] for every angle and iteration count, and the function has the period
TWO_PI16 but for the fast path at 0. -/
def Obligations.SincosRangeAndPeriod : Prop :=
  ∀ (θ : Int) (N : Nat),
    (-65536 ≤ (sincosF θ N).1 ∧ (sincosF θ N).1 ≤ 65536 ∧ -65536 ≤ (sincosF θ N).2 ∧ (sincosF θ N).2 ≤ 65536) ∧
    (θ ≠ 0 → θ + 411775 ≠ 0 → sincosF (θ + 411775) N = sincosF θ N)

/-- R127, R128, R132, R136 to R138: TAN, ATAN and ATAN2 write one register: the tangent function; the clamp of ATAN past
+-1024.0 and its 0 below 64; the 0 of ATAN2 for a zero argument and the arctangent of the quotient otherwise. -/
def Obligations.TangentCommandsComplete : Prop :=
  ∀ (rd rs1 rs2 : Reg) (s : State),
    decode (encR 0x02 rd rs1 0 0) = .ok (.tan rd rs1) ∧
    CompletesWith (.tan rd rs1) s rd (toWord (tanF (s.sx rs1))) ∧
    decode (encR 0x05 rd rs1 0 0) = .ok (.atan rd rs1) ∧
    CompletesWith (.atan rd rs1) s rd (
      if 0x04000000 < s.sx rs1 then 102944
      else if s.sx rs1 < -0x04000000 then BitVec.ofInt 32 (-102944)
      else if (s.sx rs1).natAbs < 64 then 0
      else BitVec.ofInt 32 (vectoring 1024 (Int.tdiv (s.sx rs1) 64) 10 10 * 64)) ∧
    decode (encR 0x06 rd rs1 rs2 0) = .ok (.atan2 rd rs1 rs2) ∧
    CompletesWith (.atan2 rd rs1 rs2) s rd (
      if s.x rs1 = 0 ∨ s.x rs2 = 0 then 0 else BitVec.ofInt 32 (atanF (fdivF (s.sx rs1) (s.sx rs2))))

/-- R124: the tangent is odd over all angles and has the period PI16 over the non-negative ones. -/
def Obligations.TangentIsOddAndPeriodic : Prop :=
  (∀ θ : Int, tanF (-θ) = -tanF θ) ∧ (∀ θ : Int, 0 ≤ θ → tanF (θ + 205887) = tanF θ)

/-- R125, R126, R134, R135: ASIN and ACOS give the sentinel exactly for |v| > 1.0. Otherwise ASIN is four times the
vectoring angle of v in Q14, u, with the floor of the square root of 2^28 - u * u (R125), and the two angles add to
HALF_PI16 exactly (R126). -/
def Obligations.AsinAndAcosAddToHalfPi : Prop :=
  ∀ (rd rs1 : Reg) (s : State),
    decode (encR 0x03 rd rs1 0 0) = .ok (.asin rd rs1) ∧ decode (encR 0x04 rd rs1 0 0) = .ok (.acos rd rs1) ∧
    if 65536 < (s.sx rs1).natAbs then
      CompletesWith (.asin rd rs1) s rd 0xFFFFFFFF ∧ CompletesWith (.acos rd rs1) s rd 0xFFFFFFFF
    else
      let u := Int.tdiv (s.sx rs1) 4
      ∃ a c : Word, CompletesWith (.asin rd rs1) s rd a ∧ CompletesWith (.acos rd rs1) s rd c ∧
        a = BitVec.ofInt 32 (vectoring (Nat.sqrt (2 ^ 28 - u.natAbs ^ 2)) u 14 14 * 4) ∧
        a + c = 102944 ∧ a ≠ 0xFFFFFFFF ∧ c ≠ 0xFFFFFFFF

/-- The last sentence of R127, "ATAN_F is odd". It does not hold of R127's own pseudocode, whose floor shifts are not
symmetric: t = 256 gives 192 and t = -256 gives -320 (log 10). -/
def Obligations.ArctangentIsOdd : Prop := ∀ t : Int, atanF (-t) = -atanF t

/-! ### Power, logarithm and square-root unit (41_powlog_sqrt.md) -/

/-- R170 to R174: the results of POW, EXP and LOG in one register, with the special cases in the order of the rules. -/
def Obligations.PowExpLogResults : Prop :=
  ∀ (rd rs1 rs2 : Reg) (s : State),
    decode (encR 0x08 rd rs1 rs2 0) = .ok (.pow rd rs1 rs2) ∧
    CompletesWith (.pow rd rs1 rs2) s rd (
      if s.x rs2 = 0 then 65536 else if s.x rs1 = 0 then 0 else if s.sx rs1 < 0 then 0xFFFFFFFF
      else
        let T := s.sx rs2 * (((log2F (s.sx rs1)).1 - 16) * 32768 + (log2F (s.sx rs1)).2) / 65536 + 524288
        if 30 < T / 32768 then 0xFFFFFFFF else toWord (pow2F (T / 32768) (T % 32768))) ∧
    decode (encR 0x09 rd rs1 0 0) = .ok (.exp rd rs1) ∧
    CompletesWith (.exp rd rs1) s rd (if s.x rs1 = 0 then 65536 else toWord (powF 178145 (s.sx rs1))) ∧
    decode (encR 0x0A rd rs1 rs2 0) = .ok (.log rd rs1 rs2) ∧
    CompletesWith (.log rd rs1 rs2) s rd (
      if s.x rs1 = 0 ∨ s.x rs1 = 65536 then 0
      else if s.sx rs1 < 0 ∨ s.sx rs2 ≤ 0 then 0xFFFFFFFF
      else if log2Q16 (s.sx rs1) = 0 then 0xFFFFFFFF
      else toWord (max (-2147483648)
        (min 2147483647 (Int.tdiv (log2Q16 (s.sx rs2) * 65536) (log2Q16 (s.sx rs1))))))

/-- R163, R164: POW2 writes one register; the sentinel exactly for an exponent above 30, otherwise a value in
0..2147373248, exactly 2^e for fraction 0 and e in 0..30, 1 for exponent -1 and 0 below; only the low 15 bits of the
fraction count. -/
def Obligations.PowerOfTwoResults : Prop :=
  ∀ (rd rs1 rs2 : Reg) (s : State), decode (encR 0x0B rd rs1 rs2 0) = .ok (.pow2 rd rs1 rs2) ∧ ∃ v : Int,
    CompletesWith (.pow2 rd rs1 rs2) s rd (toWord v) ∧ v = pow2F (s.sx rs1) ((s.x rs2).toNat % 32768 : Nat) ∧
    (30 < s.sx rs1 → v = -1) ∧ (s.sx rs1 ≤ 30 → 0 ≤ v ∧ v ≤ 2147373248) ∧
    (0 ≤ s.sx rs1 → s.sx rs1 ≤ 30 → (s.x rs2).toNat % 32768 = 0 → v = 2 ^ (s.sx rs1).toNat) ∧
    (s.sx rs1 = -1 → v = 1) ∧ (s.sx rs1 < -1 → v = 0)

/-- R165, R166: LOG2 writes the floor of the base-2 logarithm and a Q15 fraction in 0..32766, 0 at a power of two: the
interpolation of LOG2_TAB at bits 29:25 of the normalised input with the weight of its bits 24:10. It writes (0, 0) for
an input that is not positive; LOG2(3) and LOG2(0x7FFFFFFF) are as R166 prints them. -/
def Obligations.LogarithmOfTwoResults : Prop :=
  ∀ (rd rs1 : Reg) (s : State), (rd.val ≤ 14 → decode (encR 0x0C rd rs1 0 0) = .ok (.log2 rd rs1)) ∧ ∃ e f : Nat,
    CompletesWith2 (.log2 rd rs1) s rd (BitVec.ofNat 32 e) (BitVec.ofNat 32 f) ∧
    (s.sx rs1 ≤ 0 → e = 0 ∧ f = 0) ∧
    (0 < s.sx rs1 →
      let xn := (s.x rs1).toNat * 2 ^ (30 - e)
      let here := log2Tab.getD (xn / 2 ^ 25 - 32) 0
      let next := log2Tab.getD (xn / 2 ^ 25 - 31) 0
      let weight : Nat := xn / 2 ^ 10 % 2 ^ 15
      2 ^ e ≤ s.sx rs1 ∧ s.sx rs1 < 2 ^ (e + 1) ∧
      (f : Int) = (here * 65536 - sat16 (here - next) * weight * 2) / 65536 ∧
      f ≤ 32766 ∧ (s.sx rs1 = 2 ^ e → f = 0)) ∧
    (s.sx rs1 = 3 → e = 1 ∧ f = 19168) ∧ (s.sx rs1 = 2147483647 → e = 30 ∧ f = 32766)

/-- R180 to R182: SQRT and SQRTQ are the floor of the square root, moved to the Q-factor; the sentinel for a negative
input. -/
def Obligations.SquareRootResults : Prop :=
  ∀ (rd rs1 : Reg) (q : Byte) (s : State), q.toNat ≤ 31 →
    decode (encR 0x0D rd rs1 0 0) = .ok (.sqrt rd rs1) ∧
    decode (encR 0x0E rd rs1 0 q.toNat) = .ok (.sqrtq rd rs1 q) ∧
    CompletesWith (.sqrt rd rs1) s rd (
      if s.sx rs1 < 0 then 0xFFFFFFFF else BitVec.ofNat 32 (Nat.sqrt (s.x rs1).toNat * 256)) ∧
    CompletesWith (.sqrtq rd rs1 q) s rd (
      if s.sx rs1 < 0 then 0xFFFFFFFF
      else if q.toNat % 2 = 0 then BitVec.ofNat 32 (Nat.sqrt (s.x rs1).toNat * 2 ^ (q.toNat / 2))
      else BitVec.ofNat 32 (Nat.sqrt ((s.x rs1).toNat / 2) * 2 ^ ((q.toNat + 1) / 2)))

/-- R183: sqrt(0) = 0 and the square root is monotonic over the non-negative inputs, for every Q-factor. -/
def Obligations.SquareRootIsMonotonic : Prop :=
  ∀ q ≤ 31, sqrtqF 0 q = 0 ∧
    ∀ v v' : Int, 0 ≤ v → v ≤ v' → v' < 2147483648 → sqrtqF v q ≤ sqrtqF v' q

/-! ### Scalar and saturating unit (42_scalar_saturating.md) -/

/-- R200 to R202: FADD and FSUB wrap modulo 2^32, FMUL floors the exact product by 2^16 and wraps; each word decodes to
its command, and no fault is raised. -/
def Obligations.ScalarArithmeticWraps : Prop :=
  ∀ (rd rs1 rs2 : Reg) (s : State),
    decode (encR 0x10 rd rs1 rs2 0) = .ok (.fadd rd rs1 rs2) ∧
    CompletesWith (.fadd rd rs1 rs2) s rd (s.x rs1 + s.x rs2) ∧
    decode (encR 0x11 rd rs1 rs2 0) = .ok (.fsub rd rs1 rs2) ∧
    CompletesWith (.fsub rd rs1 rs2) s rd (s.x rs1 - s.x rs2) ∧
    decode (encR 0x12 rd rs1 rs2 0) = .ok (.fmul rd rs1 rs2) ∧
    CompletesWith (.fmul rd rs1 rs2) s rd (BitVec.ofInt 32 (s.sx rs1 * s.sx rs2 / 65536))

/-- R203: FDIV gives the sentinel for a zero divisor, otherwise the quotient by 2^16 rounded toward zero and saturated to
the 32-bit range. -/
def Obligations.DivisionSaturates : Prop :=
  ∀ (rd rs1 rs2 : Reg) (s : State),
    decode (encR 0x13 rd rs1 rs2 0) = .ok (.fdiv rd rs1 rs2) ∧
    ∃ q : Int, CompletesWith (.fdiv rd rs1 rs2) s rd (BitVec.ofInt 32 q) ∧ -2147483648 ≤ q ∧ q ≤ 2147483647 ∧
      (s.x rs2 = 0 → q = -1) ∧
      (s.x rs2 ≠ 0 →
        let n := (s.sx rs1 * 65536).natAbs / (s.sx rs2).natAbs
        q = if (s.sx rs1 < 0) = (s.sx rs2 < 0) then min 2147483647 (n : Int) else max (-2147483648) (-(n : Int)))

/-- R210 to R214: the 16-bit unit reads the low halves as signed (SAT16 the whole register), saturates to
[-32768, 32767] and writes the result sign-extended. -/
def Obligations.SaturatingUnitResults : Prop :=
  ∀ (rd rs1 rs2 : Reg) (s : State),
    let a := ((s.x rs1).extractLsb' 0 16).toInt
    let b := ((s.x rs2).extractLsb' 0 16).toInt
    let sat := fun v : Int => BitVec.ofInt 32 (if v < -32768 then -32768 else if 32767 < v then 32767 else v)
    decode (encR 0x18 rd rs1 rs2 0) = .ok (.sadd16 rd rs1 rs2) ∧
    CompletesWith (.sadd16 rd rs1 rs2) s rd (sat (a + b)) ∧
    decode (encR 0x19 rd rs1 rs2 0) = .ok (.ssub16 rd rs1 rs2) ∧
    CompletesWith (.ssub16 rd rs1 rs2) s rd (sat (a - b)) ∧
    decode (encR 0x1A rd rs1 rs2 0) = .ok (.smul16 rd rs1 rs2) ∧
    CompletesWith (.smul16 rd rs1 rs2) s rd (sat (a * b / 32768)) ∧
    decode (encR 0x1B rd rs1 0 0) = .ok (.sat16 rd rs1) ∧
    CompletesWith (.sat16 rd rs1) s rd (sat (s.sx rs1))

/-! ### Vector operations (43_vector.md) -/

/-- R230 to R234: VADD, VSUB, VSCALE and VDOT component by component, every source read before any destination is
written, whatever groups overlap. -/
def Obligations.VectorSumsAndProducts : Prop :=
  ∀ (rd rs1 rs2 : Reg) (s : State),
    (rd.val ≤ 13 → rs1.val ≤ 13 → decode (encR 0x22 rd rs1 rs2 0) = .ok (.vscale rd rs1 rs2) ∧ (rs2.val ≤ 13 →
      decode (encR 0x20 rd rs1 rs2 0) = .ok (.vadd rd rs1 rs2) ∧
      decode (encR 0x21 rd rs1 rs2 0) = .ok (.vsub rd rs1 rs2))) ∧
    (rs1.val ≤ 13 → rs2.val ≤ 13 → decode (encR 0x23 rd rs1 rs2 0) = .ok (.vdot rd rs1 rs2)) ∧
    CompletesWith3 (.vadd rd rs1 rs2) s rd (s.x rs1 + s.x rs2) (s.x (rs1 + 1) + s.x (rs2 + 1))
      (s.x (rs1 + 2) + s.x (rs2 + 2)) ∧
    CompletesWith3 (.vsub rd rs1 rs2) s rd (s.x rs1 - s.x rs2) (s.x (rs1 + 1) - s.x (rs2 + 1))
      (s.x (rs1 + 2) - s.x (rs2 + 2)) ∧
    CompletesWith3 (.vscale rd rs1 rs2) s rd (q16Product (s.x rs1) (s.x rs2))
      (q16Product (s.x (rs1 + 1)) (s.x rs2)) (q16Product (s.x (rs1 + 2)) (s.x rs2)) ∧
    CompletesWith (.vdot rd rs1 rs2) s rd (q16Product (s.x rs1) (s.x rs2) +
      q16Product (s.x (rs1 + 1)) (s.x (rs2 + 1)) + q16Product (s.x (rs1 + 2)) (s.x (rs2 + 2)))

/-- R235: the cross product, and the zero vector when both operands are one register group. -/
def Obligations.CrossProductResults : Prop :=
  ∀ (rd rs1 rs2 : Reg) (s : State),
    (rd.val ≤ 13 → rs1.val ≤ 13 → rs2.val ≤ 13 →
      decode (encR 0x24 rd rs1 rs2 0) = .ok (.vcross rd rs1 rs2)) ∧
    CompletesWith3 (.vcross rd rs1 rs2) s rd
      (q16Product (s.x (rs1 + 1)) (s.x (rs2 + 2)) - q16Product (s.x (rs1 + 2)) (s.x (rs2 + 1)))
      (q16Product (s.x (rs1 + 2)) (s.x rs2) - q16Product (s.x rs1) (s.x (rs2 + 2)))
      (q16Product (s.x rs1) (s.x (rs2 + 1)) - q16Product (s.x (rs1 + 1)) (s.x rs2)) ∧
    CompletesWith3 (.vcross rd rs1 rs1) s rd 0 0 0

/-- R236, R182, R203: VNORM multiplies by 0 when the squared length is not positive, otherwise by 2^24 over the floor of
its square root. -/
def Obligations.NormalizeResults : Prop :=
  ∀ (rd rs1 : Reg) (s : State),
    let d := q16Product (s.x rs1) (s.x rs1) + q16Product (s.x (rs1 + 1)) (s.x (rs1 + 1)) +
      q16Product (s.x (rs1 + 2)) (s.x (rs1 + 2))
    let scale : Word := if d.toInt ≤ 0 then 0 else BitVec.ofNat 32 (16777216 / Nat.sqrt d.toNat)
    (rd.val ≤ 13 → rs1.val ≤ 13 → decode (encR 0x25 rd rs1 0 0) = .ok (.vnorm rd rs1)) ∧
    CompletesWith3 (.vnorm rd rs1) s rd (q16Product (s.x rs1) scale)
      (q16Product (s.x (rs1 + 1)) scale) (q16Product (s.x (rs1 + 2)) scale)

/-! ### Registers and control registers (45_register_csr.md) -/

/-- R320 to R322: LI sign-extends, LIH writes the upper half and keeps the lower, MOV copies; LI then LIH loads any
32-bit pattern. -/
def Obligations.LoadAndMoveResults : Prop :=
  ∀ (rd rs1 : Reg) (lo hi : Half) (s : State),
    decode (encI 0x30 rd lo.toNat) = .ok (.li rd lo) ∧ CompletesWith (.li rd lo) s rd (lo.signExtend 32) ∧
    decode (encI 0x31 rd hi.toNat) = .ok (.lih rd hi) ∧
    CompletesWith (.lih rd hi) s rd (BitVec.ofNat 32 (hi.toNat * 65536 + (s.x rd).toNat % 65536)) ∧
    decode (encR 0x32 rd rs1 0 0) = .ok (.mov rd rs1) ∧ CompletesWith (.mov rd rs1) s rd (s.x rs1) ∧
    (∃ t u, exec (.li rd lo) s = .next t ∧ exec (.lih rd hi) t = .next u ∧ u.x rd = hi ++ lo ∧ OnlyRegs [rd] s u)

/-- R323, R34 to R41: what CSRR reads of each control register; in a state that has the invariant and is not halted,
STATUS, FAULT_CMD and FAULT_INFO read 0. -/
def Obligations.ControlRegisterReads : Prop :=
  ∀ (rd : Reg) (s : State),
    (∀ c : Csr, decode (encR 0x38 rd 0 0 c.number) = .ok (.csrr rd c)) ∧
    CompletesWith (.csrr rd .status) s rd (BitVec.ofNat 32 (s.halted.toNat + 256 * s.cause.code)) ∧
    CompletesWith (.csrr rd .faultCmd) s rd s.faultCmd ∧ CompletesWith (.csrr rd .faultInfo) s rd s.faultInfo ∧
    CompletesWith (.csrr rd .tick) s rd s.tick ∧ CompletesWith (.csrr rd .outRate) s rd s.outRate ∧
    CompletesWith (.csrr rd .config) s rd (if s.pitched then 1 else 0) ∧
    CompletesWith (.csrr rd .idReg) s rd (BitVec.ofNat 32 (s.nch + 0x100)) ∧
    (Inv s → s.halted = false → CompletesWith (.csrr rd .status) s rd 0 ∧
      CompletesWith (.csrr rd .faultCmd) s rd 0 ∧ CompletesWith (.csrr rd .faultInfo) s rd 0)

/-- R324: CSRW writes TICK whole and CONFIG's bit 0, and has no effect on the read-only registers. -/
def Obligations.ControlRegisterWrites : Prop :=
  ∀ (c : Csr) (rs1 : Reg) (s : State),
    decode (encR 0x39 0 rs1 0 c.number) = .ok (.csrw c rs1) ∧
    exec (.csrw c rs1) s = .next (
      if c.number = 3 then { s with tick := s.x rs1 }
      else if c.number = 5 then { s with pitched := decide ((s.x rs1).toNat % 2 = 1) }
      else s)

/-! ### Mixer (44_mixer.md) -/

/-- R280: MINIT with a rate outside 1..65535 writes -1 and nothing else; otherwise it releases every active slot in
index order, zeroes every slot, sets OUTRATE, rebuilds STEPTAB and writes 0; TICK and CONFIG stay. -/
def Obligations.MinitRestartsTheMixer : Prop :=
  ∀ (rd rs1 : Reg) (s : State),
    decode (encR 0x40 rd rs1 0 0) = .ok (.minit rd rs1) ∧
    (if (s.x rs1).toNat = 0 ∨ 65535 < (s.x rs1).toNat then CompletesWith (.minit rd rs1) s rd 0xFFFFFFFF
    else
      ∃ t, exec (.minit rd rs1) s = .next t ∧ t.x rd = 0 ∧ SameRegsBut [rd] s t ∧ t.nch = s.nch ∧
        (∀ c, t.slot c = Slot.zero) ∧ t.outRate = s.x rs1 ∧
        (∀ p : Fin 256, t.stepTab[p] = stepEntry (s.x rs1).toNat p.val) ∧
        t.events = s.events ++ ((List.range s.nch).filter fun c => (s.slot c).active).map
          (fun c => .release c (s.slot c).base) ∧
        SameFaultRecord s t ∧ t.tick = s.tick ∧ t.pitched = s.pitched ∧ SameHostSide s t ∧ SameBytes s t)

/-- R281, R345: MSTART writes -1 and changes nothing else for a channel out of range, a total length of 8 or less, or a
buffer that would pass 0xFFFFFFFF. -/
def Obligations.MstartRejections : Prop :=
  ∀ (rd rs1 : Reg) (s : State),
    (s.sx rs1 < 0 ∨ (s.nch : Int) ≤ s.sx rs1 ∨ s.sx (rs1 + 3) ≤ 8 ∨
      0xFFFFFFFF < ((s.x (rs1 + 2)).toNat : Int) + s.sx (rs1 + 3) - 1) →
    CompletesWith (.mstart rd rs1) s rd 0xFFFFFFFF

/-- R281, R270, R345: MSTART with arguments that pass every check releases the slot's old sound, installs the new one and
writes the channel number; every other slot stays. -/
def Obligations.MstartInstallsTheSound : Prop :=
  ∀ (rd rs1 : Reg) (s : State) (c : Nat) (lv rv : Fin 128),
    let base := (s.x (rs1 + 2)).toNat
    let vol := s.sx (rs1 + 4)
    let sep := s.sx (rs1 + 5)
    s.sx rs1 = c → c < s.nch → 8 < s.sx (rs1 + 3) → (base : Int) + s.sx (rs1 + 3) - 1 ≤ 0xFFFFFFFF →
    s.canAccess (base + 2) .read = true → s.canAccess (base + 3) .read = true →
    vol - vol * (sep + 1) * (sep + 1) / 65536 = lv.val → vol - vol * (sep - 256) * (sep - 256) / 65536 = rv.val →
    ∃ t, exec (.mstart rd rs1) s = .next t ∧ t.x rd = BitVec.ofNat 32 c ∧ SameRegsBut [rd] s t ∧
      t.nch = s.nch ∧ (∀ d, d ≠ c → t.slot d = s.slot d) ∧
      t.events = s.events ++ (if (s.slot c).active then [.release c (s.slot c).base] else []) ∧
      (t.slot c).cur = BitVec.ofNat 32 (base + 8) ∧
      (t.slot c).endAddr = BitVec.ofInt 32 (base + s.sx (rs1 + 3) - s.params.endAdjust) ∧
      (t.slot c).base = s.x (rs1 + 2) ∧ (t.slot c).srate = s.byteAt (base + 3) ++ s.byteAt (base + 2) ∧
      (t.slot c).step = s.stepF (t.slot c).srate (s.x (rs1 + 6)) ∧ (t.slot c).rem = 0 ∧ (t.slot c).lvol = lv ∧
      (t.slot c).rvol = rv ∧ (t.slot c).id = s.x (rs1 + 1) ∧ (t.slot c).stime = s.tick ∧
      SameFaultRecord s t ∧ SameControl s t ∧ SameHostSide s t ∧ SameBytes s t

/-- R281, R272, R340, R344: where MSTART traps. A header byte that is not admitted raises BUS_ERROR with its address;
then a volume outside 0..127 raises VOLUME_RANGE with both volumes in FAULT_INFO. -/
def Obligations.MstartFaults : Prop :=
  ∀ (rd rs1 : Reg) (s : State) (c : Nat),
    let base := (s.x (rs1 + 2)).toNat
    let vol := s.sx (rs1 + 4)
    let sep := s.sx (rs1 + 5)
    let lv := vol - vol * (sep + 1) * (sep + 1) / 65536
    let rv := vol - vol * (sep - 256) * (sep - 256) / 65536
    s.sx rs1 = c → c < s.nch → 8 < s.sx (rs1 + 3) → (base : Int) + s.sx (rs1 + 3) - 1 ≤ 0xFFFFFFFF →
    (s.canAccess (base + 2) .read = false → ∃ t, exec (.mstart rd rs1) s = .next t ∧
      HaltedBy (encode (.mstart rd rs1)) .busError (BitVec.ofNat 32 (base + 2)) s t) ∧
    (s.canAccess (base + 2) .read = true → s.canAccess (base + 3) .read = false →
      ∃ t, exec (.mstart rd rs1) s = .next t ∧
        HaltedBy (encode (.mstart rd rs1)) .busError (BitVec.ofNat 32 (base + 3)) s t) ∧
    (s.canAccess (base + 2) .read = true → s.canAccess (base + 3) .read = true →
      (lv < 0 ∨ 127 < lv ∨ rv < 0 ∨ 127 < rv) → ∃ t, exec (.mstart rd rs1) s = .next t ∧
        HaltedBy (encode (.mstart rd rs1)) .volumeRange (BitVec.ofInt 32 (lv % 65536 + rv % 65536 * 65536)) s t)

/-- R282: MUPDATE writes -1 for a channel out of range; raises VOLUME_RANGE for a volume out of range; otherwise rewrites
STEP, LVOL and RVOL of the slot, empty or not, writes 0 and leaves everything else. -/
def Obligations.MupdateRewritesTheVoice : Prop :=
  ∀ (rd rs1 : Reg) (s : State),
    let vol := s.sx (rs1 + 1)
    let sep := s.sx (rs1 + 2)
    let lv := vol - vol * (sep + 1) * (sep + 1) / 65536
    let rv := vol - vol * (sep - 256) * (sep - 256) / 65536
    (rs1.val ≤ 12 → decode (encR 0x42 rd rs1 0 0) = .ok (.mupdate rd rs1)) ∧
    (s.sx rs1 < 0 ∨ (s.nch : Int) ≤ s.sx rs1 → CompletesWith (.mupdate rd rs1) s rd 0xFFFFFFFF) ∧
    (∀ c : Nat, s.sx rs1 = c → c < s.nch →
      if lv < 0 ∨ 127 < lv ∨ rv < 0 ∨ 127 < rv then
        ∃ t, exec (.mupdate rd rs1) s = .next t ∧
          HaltedBy (encode (.mupdate rd rs1)) .volumeRange (BitVec.ofInt 32 (lv % 65536 + rv % 65536 * 65536)) s t
      else
        ∃ t, exec (.mupdate rd rs1) s = .next t ∧ t.x rd = 0 ∧ SameRegsBut [rd] s t ∧ t.nch = s.nch ∧
          (∀ d, d ≠ c → t.slot d = s.slot d) ∧
          t.slot c = { s.slot c with
            step := s.stepF (s.slot c).srate (s.x (rs1 + 3))
            lvol := (t.slot c).lvol
            rvol := (t.slot c).rvol } ∧
          ((t.slot c).lvol.val : Int) = lv ∧ ((t.slot c).rvol.val : Int) = rv ∧ t.events = s.events ∧
          SameFaultRecord s t ∧ SameControl s t ∧ SameHostSide s t ∧ SameBytes s t)

/-- R283, R261: MSTOP of an active slot emits one RELEASE and clears CUR alone; of an empty slot or a number that is no
channel it is a no-op; a second MSTOP changes nothing. -/
def Obligations.MstopReleasesOnce : Prop :=
  ∀ (rs1 : Reg) (s : State),
    decode (encR 0x43 0 rs1 0 0) = .ok (.mstop rs1) ∧
    (∀ c : Nat, s.sx rs1 = c → c < s.nch → (s.slot c).active = true →
      ∃ t, exec (.mstop rs1) s = .next t ∧ t = { s with slots := t.slots, events := t.events } ∧
        t.events = s.events ++ [.release c (s.slot c).base] ∧ t.nch = s.nch ∧
        t.slot c = { s.slot c with cur := 0 } ∧ (∀ d, d ≠ c → t.slot d = s.slot d) ∧
        exec (.mstop rs1) t = .next t) ∧
    ((∀ c : Nat, s.sx rs1 = c → c < s.nch → (s.slot c).active = false) → exec (.mstop rs1) s = .next s)

/-- R284, R285, R287: MQUERY tells whether the channel is active, MANY whether any is, MINFO reads ID, STIME, CUR and REM,
or -1 four times; none changes anything but its result registers. -/
def Obligations.SlotQueries : Prop :=
  ∀ (rd rs1 : Reg) (s : State),
    decode (encR 0x44 rd rs1 0 0) = .ok (.mquery rd rs1) ∧ decode (encR 0x45 rd 0 0 0) = .ok (.many rd) ∧
    (rd.val ≤ 12 → decode (encR 0x47 rd rs1 0 0) = .ok (.minfo rd rs1)) ∧
    (∀ c : Nat, s.sx rs1 = c → c < s.nch →
      CompletesWith (.mquery rd rs1) s rd (if (s.slot c).cur = 0 then 0 else 1) ∧
      CompletesWith4 (.minfo rd rs1) s rd (s.slot c).id (s.slot c).stime (s.slot c).cur
        (BitVec.ofNat 32 (s.slot c).rem.toNat)) ∧
    (s.sx rs1 < 0 ∨ (s.nch : Int) ≤ s.sx rs1 →
      CompletesWith (.mquery rd rs1) s rd 0 ∧
      CompletesWith4 (.minfo rd rs1) s rd 0xFFFFFFFF 0xFFFFFFFF 0xFFFFFFFF 0xFFFFFFFF) ∧
    ((∃ c < s.nch, (s.slot c).cur ≠ 0) → CompletesWith (.many rd) s rd 1) ∧
    ((∀ c < s.nch, (s.slot c).cur = 0) → CompletesWith (.many rd) s rd 0)

/-- R286, R290, R293: MMIX completes when every byte its frames use is admitted: the 4 bytes of each frame for write
(with MIX_ADD_EXISTING for read too) and, for each active slot and each frame it reaches before END, the byte at its
cursor and the next one. It stores only those 4 bytes of each frame, changes of the slots only CUR and REM, and no
register; a byte length of 3 or less changes nothing. -/
def Obligations.MmixCompletes : Prop :=
  ∀ (rs1 rs2 : Reg) (s : State),
    let o := (s.x rs1).toNat
    let F := (s.sx rs2 / 4).toNat
    (s.sx rs2 ≤ 3 → exec (.mmix rs1 rs2) s = .next s) ∧
    ((∀ k < 4 * F, s.canAccess (o + k) .write = true ∧
        (s.params.mixAddExisting = true → s.canAccess (o + k) .read = true)) →
      (∀ sl ∈ s.slots, sl.active = true → ∀ f < F,
        let p := sl.cur.toNat + (sl.rem.toNat + f * sl.step.toNat) / 65536
        (f = 0 ∨ p < sl.endAddr.toNat) →
          s.canAccess p .read = true ∧ s.canAccess (sl.byteAfter p) .read = true) →
      ∃ t, exec (.mmix rs1 rs2) s = .next t ∧ SameRegsBut [] s t ∧ SameFaultRecord s t ∧ SameControl s t ∧
        SameHostSide s t ∧ t.nch = s.nch ∧
        (∀ c, t.slot c = { s.slot c with cur := (t.slot c).cur, rem := (t.slot c).rem }) ∧
        SameBytesOutside o (4 * F) s t)

/-- R290, R293, R340, R344: where MMIX traps. After f frames that did not fail, the first byte in the order of R344 that
frame f uses and that is not admitted for its kind raises BUS_ERROR with its address; the frames before stay, and nothing
of frame f happens. -/
def Obligations.MmixFaults : Prop :=
  ∀ (rs1 rs2 : Reg) (s u : State) (f a : Nat) (k : AccessKind) (before after : List (Nat × AccessKind)),
    (f : Int) < s.sx rs2 / 4 → State.mixFrames f (s.x rs1).toNat s = (u, none) →
    u.frameAccesses ((s.x rs1).toNat + 4 * f) = before ++ (a, k) :: after →
    (∀ b ∈ before, u.canAccess b.1 b.2 = true) → u.canAccess a k = false →
    ∃ t, exec (.mmix rs1 rs2) s = .next t ∧
      HaltedBy (encode (.mmix rs1 rs2)) .busError (BitVec.ofNat 32 a) u t

/-- R286: with no active slot and MIX_ADD_EXISTING false, MMIX over admitted output bytes writes every frame as (0, 0) and
changes no slot and no event. -/
def Obligations.MmixWithoutSoundWritesZeros : Prop :=
  ∀ (rs1 rs2 : Reg) (s : State), (∀ sl ∈ s.slots, sl.active = false) → s.params.mixAddExisting = false →
    (∀ a : Nat, (s.x rs1).toNat ≤ a → (a : Int) < (s.x rs1).toNat + 4 * (s.sx rs2 / 4) →
      s.canAccess a .write = true) →
    ∃ t, exec (.mmix rs1 rs2) s = .next t ∧ t = { s with mem := t.mem } ∧
      ∀ a : Nat, t.byteAt a =
        if (s.x rs1).toNat ≤ a ∧ (a : Int) < (s.x rs1).toNat + 4 * (s.sx rs2 / 4) then 0 else s.byteAt a

/-- R290 to R292, R263: one frame over admitted bytes, with any number of channels. Its four bytes are the little-endian
left and right samples, each the saturated sum of the existing sample (with MIX_ADD_EXISTING) and, for every active slot,
the volume table's entry for the interpolated sample. Every active slot's cursor advances, or the slot is released when
it reaches END, in increasing order of the channels. -/
def Obligations.MmixOneFrame : Prop :=
  ∀ (rs1 rs2 : Reg) (s : State),
    let o := (s.x rs1).toNat
    let smp := fun sl : Slot => ((s.byteAt sl.cur.toNat).toNat * (65536 - sl.rem.toNat) +
      (s.byteAt (sl.byteAfter sl.cur.toNat)).toNat * sl.rem.toNat) / 65536
    let sample := fun (a : Nat) (row : Slot → Fin 128) =>
      let existing : Int := if s.params.mixAddExisting then (s.byteAt (a + 1) ++ s.byteAt a : Half).toInt else 0
      let sum := existing + ((s.slots.filter Slot.active).map fun sl =>
        Int.tdiv ((row sl).val * ((smp sl : Int) - 128) * 256) s.params.volDiv).sum
      (BitVec.ofInt 16 (max (-32768) (min 32767 sum)) : Half)
    let cursor := fun sl : Slot => sl.cur.toNat + (sl.rem.toNat + sl.step.toNat) / 65536
    s.sx rs2 / 4 = 1 → (∀ b ∈ s.frameAccesses o, s.canAccess b.1 b.2 = true) →
    ∃ t, exec (.mmix rs1 rs2) s = .next t ∧
      t.byteAt o = (sample o Slot.lvol).extractLsb' 0 8 ∧ t.byteAt (o + 1) = (sample o Slot.lvol).extractLsb' 8 8 ∧
      t.byteAt (o + 2) = (sample (o + 2) Slot.rvol).extractLsb' 0 8 ∧
      t.byteAt (o + 3) = (sample (o + 2) Slot.rvol).extractLsb' 8 8 ∧
      SameBytesOutside o 4 s t ∧
      t.slots = (s.slots.map fun sl => if sl.active then { sl with
        cur := if sl.endAddr.toNat ≤ cursor sl then 0 else BitVec.ofNat 32 (cursor sl)
        rem := BitVec.ofNat 16 ((sl.rem.toNat + sl.step.toNat) % 65536) } else sl) ∧
      t.events = s.events ++ ((List.range s.nch).filter fun c =>
          (s.slot c).active && (s.slot c).endAddr.toNat ≤ cursor (s.slot c)).map
        (fun c => .release c (s.slot c).base) ∧
      SameRegsBut [] s t ∧ SameFaultRecord s t ∧ SameControl s t ∧ SameHostSide s t

/-- R286, R293, R343, R344: MMIX mixes the floor of its byte length over 4 frames and ends at the first frame with a byte
that is not admitted, keeping the frames before it: mixing m + n frames is mixing m and, if none fails, n more from where
they end. -/
def Obligations.MmixFramesRunInOrder : Prop :=
  (∀ (rs1 rs2 : Reg) (s : State), exec (.mmix rs1 rs2) s =
    match State.mixFrames (s.sx rs2 / 4).toNat (s.x rs1).toNat s with
    | (t, none) => .next t
    | (t, some e) => .next (t.raise (encode (.mmix rs1 rs2)) .busError e)) ∧
  (∀ (m n o : Nat) (s : State),
    State.mixFrames (m + n) o s =
      match State.mixFrames m o s with
      | (t, none) => State.mixFrames n (o + 4 * m) t
      | (t, some e) => (t, some e))

/-- R292: the accumulators of a frame are the starting values plus the contributions of the active slots, so they do not
depend on the order of the slots. -/
def Obligations.FrameSumsContributions : Prop :=
  ∀ (s : State) (c : Nat) (slots : List Slot) (l r : Int) (w : Walk), s.walkSlots c slots l r = .ok w →
    let part := fun (row : Slot → Fin 128) (sl : Slot) =>
      if sl.active then
        match s.sampleOf sl with
        | .ok smp => volEntry s.params.volDiv (row sl) smp
        | .error _ => 0
      else 0
    w.accL = l + (slots.map (part Slot.lvol)).sum ∧ w.accR = r + (slots.map (part Slot.rvol)).sum

/-- R295: an active slot with no fraction, mixed without a fault for F frames, has its cursor advanced by
floor(F * STEP / 65536) and REM (F * STEP) mod 65536 while that lies before END; otherwise, from the first frame on, it
has been released, once, by this command. -/
def Obligations.CursorAdvancesByTheStep : Prop :=
  ∀ (rs1 rs2 : Reg) (s t : State) (c : Nat), s.halted = false → exec (.mmix rs1 rs2) s = .next t →
    t.halted = false → c < s.nch → (s.slot c).active = true → (s.slot c).rem = 0 →
    let F := (s.sx rs2 / 4).toNat
    let cursor := (s.slot c).cur.toNat + F * (s.slot c).step.toNat / 65536
    (cursor < (s.slot c).endAddr.toNat →
      t.slot c = { s.slot c with
        cur := BitVec.ofNat 32 cursor
        rem := BitVec.ofNat 16 (F * (s.slot c).step.toNat % 65536) }) ∧
    (0 < F → (s.slot c).endAddr.toNat ≤ cursor →
      (t.slot c).active = false ∧
        ∃ new, t.events = s.events ++ new ∧ new.filter (eventOf c) = [.release c (s.slot c).base])

/-- R291, R294: the samples that an active slot obeying the slot invariant with END_ADJUST = 1 reads lie between the end
of its header and END: two memories that agree there give the same sample. -/
def Obligations.SamplesStayInTheBuffer : Prop :=
  ∀ (s : State) (m : Memory) (sl : Slot), sl.active = true → sl.Ok 1 →
    (∀ a, sl.base.toNat + 8 ≤ a → a ≤ sl.endAddr.toNat → Memory.get m a = s.byteAt a) →
    { s with mem := m }.sampleOf sl = s.sampleOf sl

/-- R270, R271, R273: the right volume is the mirror of the left over all arguments, every volume 0..127 and separation
0..255 passes the check, and the check reports exactly the volumes outside 0..127. -/
def Obligations.PanIsMirrored : Prop :=
  (∀ vol sep : Int, panRight vol sep = panLeft vol (255 - sep)) ∧
  (∀ vol sep : Int, 0 ≤ vol → vol ≤ 127 → 0 ≤ sep → sep ≤ 255 →
    ∃ l r : Fin 128, volPan vol sep = .ok (l, r) ∧ (l.val : Int) = panLeft vol sep ∧ (r.val : Int) = panRight vol sep) ∧
  (∀ vol sep : Int, (∃ info, volPan vol sep = .error info) ↔
    ¬(0 ≤ panLeft vol sep ∧ panLeft vol sep ≤ 127 ∧ 0 ≤ panRight vol sep ∧ panRight vol sep ≤ 127))

/-- R265, R266, R262: the step is the floor of SRATE * 2^16 / OUTRATE; with PITCHED it is multiplied by the STEPTAB entry
of the pitch's low 8 bits over 2^16 and limited to 2^32 - 1; the entry of pitch 128 is the identity. -/
def Obligations.StepIsTheRateRatio : Prop :=
  ∀ (s : State) (srate : Half) (pitch : Word), 1 ≤ s.outRate.toNat →
    let b := srate.toNat * 65536 / s.outRate.toNat
    (s.pitched = false → (s.stepF srate pitch).toNat * s.outRate.toNat ≤ srate.toNat * 65536 ∧
      srate.toNat * 65536 < ((s.stepF srate pitch).toNat + 1) * s.outRate.toNat) ∧
    (s.pitched = true → (s.stepF srate pitch).toNat =
      min 4294967295 (b * s.stepTab[Fin.ofNat 256 (pitch.toNat % 256)].toNat / 65536)) ∧
    (s.stepTab = buildStepTab s.outRate → pitch.toNat % 256 = 128 → (s.stepF srate pitch).toNat = b)
end

