-- ==== Sys2Proof/Laws/Arith.lean ====
section
/-! SUPPORT. The arithmetic primitives as divisions, bounds and bit-vector operations. -/

namespace Sys2Proof.Machine

/-- A floor shift is a division. -/
theorem shr_eq (a : Int) (s : Nat) : shr a s = a / 2 ^ s := by
  rw [shr, Int.shiftRight_eq_div_pow]; push_cast; rfl

theorem shl_eq (a : Int) (s : Nat) : shl a s = a * 2 ^ s := Int.shiftLeft_eq a s

/-- The rounding shift of the spec, `(v + 2^(s-1)) >> s` (R31, R123, R163). -/
theorem roundShift_eq (v : Int) {s : Nat} (h : s ≠ 0) : roundShift v s = shr (v + 2 ^ (s - 1)) s := by
  obtain ⟨k, rfl⟩ := Nat.exists_eq_succ_of_ne_zero h
  have hp : (2 : Int) ^ k ≠ 0 := by positivity
  rw [roundShift, if_neg h]
  have e : (v + 2 ^ k) / 2 ^ k = v / 2 ^ k + 1 := by
    rw [Int.add_ediv_of_dvd_right (dvd_refl _), Int.ediv_self hp]
  simp only [Nat.succ_eq_add_one, Nat.add_sub_cancel, shr_eq, pow_one]
  rw [pow_succ, ← Int.ediv_ediv_of_nonneg (by positivity), e]

theorem roundShift_zero (v : Int) : roundShift v 0 = v := if_pos rfl

theorem sat16_bounds (v : Int) : -32768 ≤ sat16 v ∧ sat16 v ≤ 32767 := by
  simp only [sat16, clamp, fMin, fMax]; omega

theorem sat16_of_mem {v : Int} (h : -32768 ≤ v ∧ v ≤ 32767) : sat16 v = v := by
  simp only [sat16, clamp, fMin, fMax]; omega

theorem sat32_bounds (v : Int) : -2147483648 ≤ sat32 v ∧ sat32 v ≤ 2147483647 := by
  simp only [sat32, clamp, fMin32, fMax32]; omega

/-- wrap32 is the balanced remainder by 2^32. -/
theorem wrap32_eq (v : Int) : wrap32 v = v.bmod (2 ^ 32) := by
  simp [wrap32, BitVec.toInt_ofInt]

theorem wrap32_of_mem {v : Int} (h : -2147483648 ≤ v ∧ v < 2147483648) : wrap32 v = v := by
  rw [wrap32_eq, Int.bmod_eq_of_le_mul_two] <;> omega

theorem toWord_wrap32 (v : Int) : toWord (wrap32 v) = toWord v := by
  apply BitVec.eq_of_toInt_eq
  simp [toWord, wrap32, BitVec.toInt_ofInt]

@[simp] theorem toWord_toInt (w : Word) : toWord w.toInt = w := by simp [toWord]

theorem toInt_toWord (v : Int) : (toWord v).toInt = wrap32 v := rfl

theorem toWord_sentinel : toWord sentinel = 0xFFFFFFFF#32 := by decide

theorem toWord_add (a b : Word) : toWord (a.toInt + b.toInt) = a + b := by simp [toWord, BitVec.ofInt_add]

theorem toWord_sub (a b : Word) : toWord (a.toInt - b.toInt) = a - b := by
  apply BitVec.eq_of_toInt_eq; simp [toWord, BitVec.toInt_sub, BitVec.toInt_ofInt]

theorem wrap32_range (v : Int) : -2147483648 ≤ wrap32 v ∧ wrap32 v < 2147483648 := by
  have := BitVec.toInt_lt (x := BitVec.ofInt 32 v)
  have := BitVec.le_toInt (x := BitVec.ofInt 32 v)
  simp only [wrap32]; omega

/-- A value of VOLPAN is a row exactly when it lies in 0..127 (R270). -/
theorem volumeRow_eq_some {v : Int} {r : Fin 128} : volumeRow v = some r ↔ (r.val : Int) = v := by
  unfold volumeRow
  split
  · next h =>
    constructor
    · intro e; cases e; simp; omega
    · intro e; congr 1; ext; simp; omega
  · next h =>
    constructor
    · intro e; cases e
    · intro e; exact absurd ⟨by omega, by have := r.isLt; omega⟩ h

theorem volumeRow_eq_none {v : Int} : volumeRow v = none ↔ v < 0 ∨ 127 < v := by
  unfold volumeRow
  split <;> simp <;> omega

/-- VOLPAN says the two rows when both volumes are in range, the information word otherwise (R270). -/
theorem volPan_cases (vol sep : Int) :
    (∃ l r : Fin 128, (l.val : Int) = panLeft vol sep ∧ (r.val : Int) = panRight vol sep ∧
        volPan vol sep = .ok (l, r)) ∨
      ((panLeft vol sep < 0 ∨ 127 < panLeft vol sep ∨ panRight vol sep < 0 ∨ 127 < panRight vol sep) ∧
        volPan vol sep = .error (volumeInfo (panLeft vol sep) (panRight vol sep))) := by
  rcases hl : volumeRow (panLeft vol sep) with _ | l <;> rcases hr : volumeRow (panRight vol sep) with _ | r
  · right; rw [volumeRow_eq_none] at hl; exact ⟨by omega, by simp [volPan, volumeRow_eq_none.2 hl]⟩
  · right; rw [volumeRow_eq_none] at hl; exact ⟨by omega, by simp [volPan, volumeRow_eq_none.2 hl]⟩
  · right; rw [volumeRow_eq_none] at hr; exact ⟨by omega, by simp [volPan, hl, volumeRow_eq_none.2 hr]⟩
  · left; exact ⟨l, r, volumeRow_eq_some.1 hl, volumeRow_eq_some.1 hr, by simp [volPan, hl, hr]⟩

end Sys2Proof.Machine
end

