-- ==== Sys2Proof/Laws/Decode.lean ====
section
/-! SUPPORT. The fields of an encoded word, and the reserved-field rule read field by field. -/

namespace Sys2Proof

/-- A field of a word, as division and remainder. -/
theorem bits_eq (w : Word) (hi lo : Nat) : bits w hi lo = w.toNat / 2 ^ lo % 2 ^ (hi - lo + 1) := by
  simp [bits, Nat.shiftRight_eq_div_pow]

theorem encR_toNat {opc rd rs1 rs2 imm8 : Nat} (ho : opc < 256) (hd : rd < 16) (h1 : rs1 < 16) (h2 : rs2 < 16)
    (hi : imm8 < 256) :
    (encR opc rd rs1 rs2 imm8).toNat = opc * 2 ^ 24 + rd * 2 ^ 20 + rs1 * 2 ^ 16 + rs2 * 2 ^ 12 + imm8 := by
  simp only [encR, BitVec.toNat_ofNat]
  omega

theorem encI_toNat {opc rd imm : Nat} (ho : opc < 256) (hd : rd < 16) (hi : imm < 65536) :
    (encI opc rd imm).toNat = opc * 2 ^ 24 + rd * 2 ^ 20 + imm := by
  simp only [encI, BitVec.toNat_ofNat]
  omega

section FormatR
variable {opc rd rs1 rs2 imm8 : Nat}

theorem bits_encR (ho : opc < 256) (hd : rd < 16) (h1 : rs1 < 16) (h2 : rs2 < 16) (hi : imm8 < 256) :
    bits (encR opc rd rs1 rs2 imm8) 31 24 = opc ∧ bits (encR opc rd rs1 rs2 imm8) 23 20 = rd ∧
      bits (encR opc rd rs1 rs2 imm8) 19 16 = rs1 ∧ bits (encR opc rd rs1 rs2 imm8) 15 12 = rs2 ∧
      bits (encR opc rd rs1 rs2 imm8) 7 0 = imm8 := by
  simp only [bits_eq, encR_toNat ho hd h1 h2 hi]
  omega

/-- Every field of a format-R word reads back as it was written (R91, R93). -/
theorem fields_encR (rd rs1 rs2 : Reg) (ho : opc < 256) (hi : imm8 < 256) :
    opcField (encR opc rd rs1 rs2 imm8) = opc ∧ rdField (encR opc rd rs1 rs2 imm8) = rd ∧
      rs1Field (encR opc rd rs1 rs2 imm8) = rs1 ∧ rs2Field (encR opc rd rs1 rs2 imm8) = rs2 ∧
      imm8Field (encR opc rd rs1 rs2 imm8) = BitVec.ofNat 8 imm8 := by
  obtain ⟨a, b, c, d, e⟩ := bits_encR (opc := opc) (imm8 := imm8) ho rd.isLt rs1.isLt rs2.isLt hi
  simp only [opcField, rdField, rs1Field, rs2Field, imm8Field, a, b, c, d, e]
  simp

/-- Every field of a format-I word reads back as it was written (R92, R93). -/
theorem fields_encI (rd : Reg) (imm : Half) (ho : opc < 256) :
    opcField (encI opc rd imm.toNat) = opc ∧ rdField (encI opc rd imm.toNat) = rd ∧
      imm16Field (encI opc rd imm.toNat) = imm := by
  have hi := imm.isLt
  have hd := rd.isLt
  have e := encI_toNat (opc := opc) ho rd.isLt imm.isLt
  have a : bits (encI opc rd imm.toNat) 31 24 = opc := by rw [bits_eq, e]; omega
  have b : bits (encI opc rd imm.toNat) 23 20 = rd := by rw [bits_eq, e]; omega
  have c : bits (encI opc rd imm.toNat) 15 0 = imm.toNat := by rw [bits_eq, e]; omega
  simp [opcField, rdField, imm16Field, a, b, c]

end FormatR

/-- The fields R94 requires to be 0 for a shape. -/
def Shape.requiredZero (sh : Shape) (w : Word) : Prop :=
  match sh with
  | .dst => bits w 11 0 = 0
  | .ds => bits w 15 0 = 0
  | .dsi => bits w 15 8 = 0
  | .d => bits w 19 0 = 0
  | .s => bits w 23 20 = 0 ∧ bits w 15 0 = 0
  | .st => bits w 23 20 = 0 ∧ bits w 11 0 = 0
  | .di => bits w 19 8 = 0
  | .si => bits w 23 20 = 0 ∧ bits w 15 8 = 0
  | .imm => bits w 19 16 = 0

/-- A field is 0 exactly when each of its bits is. -/
theorem bits_eq_zero_iff (w : Word) {hi lo : Nat} (h : lo ≤ hi) :
    bits w hi lo = 0 ↔ ∀ i, lo ≤ i → i ≤ hi → w.getLsbD i = false := by
  constructor
  · intro e i hl hh
    have : (bits w hi lo).testBit (i - lo) = false := by simp [e]
    rw [bits, Nat.testBit_mod_two_pow, Nat.testBit_shiftRight] at this
    have hlt : i - lo < hi - lo + 1 := by omega
    rw [show lo + (i - lo) = i by omega] at this
    simpa [hlt, BitVec.getLsbD] using this
  · intro H
    apply Nat.eq_of_testBit_eq
    intro j
    rw [bits, Nat.testBit_mod_two_pow, Nat.testBit_shiftRight]
    by_cases hj : j < hi - lo + 1
    · have := H (lo + j) (by omega) (by omega)
      rw [BitVec.getLsbD] at this
      simp [this]
    · simp [hj]

/-- `w & mask == OPC << 24`, bit by bit: no bit below 24 that the mask keeps is set. -/
theorem reservedFieldsZero_bits (sh : Shape) (w : Word) :
    reservedFieldsZero sh w = true ↔ ∀ i < 24, sh.mask.getLsbD i = true → w.getLsbD i = false := by
  have high : ∀ i, 24 ≤ i → i < 32 → sh.mask.getLsbD i = true := by
    cases sh <;> decide
  have opc : ∀ i < 32, (BitVec.ofNat 32 (opcField w <<< 24)).getLsbD i = (decide (24 ≤ i) && w.getLsbD i) := by
    intro i hi
    rw [BitVec.getLsbD_ofNat, Nat.testBit_shiftLeft, opcField, bits, Nat.testBit_mod_two_pow,
      Nat.testBit_shiftRight]
    by_cases h : 24 ≤ i
    · have : i - 24 < 31 - 24 + 1 := by omega
      rw [show 24 + (i - 24) = i by omega]
      simp [h, this, hi, BitVec.getLsbD]
    · simp [h]
  rw [reservedFieldsZero, beq_iff_eq]
  constructor
  · intro e i hi hm
    have := congrArg (fun v : Word => v.getLsbD i) e
    simp only [BitVec.getLsbD_and, opc i (by omega), hm] at this
    have : ¬ 24 ≤ i := by omega
    simp_all
  · intro H
    apply BitVec.eq_of_getLsbD_eq
    intro i hi
    rw [BitVec.getLsbD_and, opc i hi]
    by_cases h : 24 ≤ i
    · simp [h, high i h hi]
    · have := H i (by omega)
      cases hm : sh.mask.getLsbD i <;> simp_all

/-- The reserved-field rule read field by field (R94, R96). -/
theorem reservedFieldsZero_iff (sh : Shape) (w : Word) : reservedFieldsZero sh w = true ↔ sh.requiredZero w := by
  rw [reservedFieldsZero_bits]
  have key : ∀ f : Nat → Bool, (∀ i < 24, sh.mask.getLsbD i = f i) →
      ((∀ i < 24, sh.mask.getLsbD i = true → w.getLsbD i = false) ↔
        ∀ i < 24, f i = true → w.getLsbD i = false) := by
    intro f hf
    exact forall₂_congr fun i hi => by rw [hf i hi]
  cases sh <;> simp only [Shape.requiredZero]
  case dst =>
    rw [key (fun i => decide (i ≤ 11)) (by decide), bits_eq_zero_iff _ (by decide)]
    exact ⟨fun H i _ h => H i (by omega) (by simpa using h), fun H i _ h => H i (by omega) (by simpa using h)⟩
  case ds =>
    rw [key (fun i => decide (i ≤ 15)) (by decide), bits_eq_zero_iff _ (by decide)]
    exact ⟨fun H i _ h => H i (by omega) (by simpa using h), fun H i _ h => H i (by omega) (by simpa using h)⟩
  case d =>
    rw [key (fun i => decide (i ≤ 19)) (by decide), bits_eq_zero_iff _ (by decide)]
    exact ⟨fun H i _ h => H i (by omega) (by simpa using h), fun H i _ h => H i (by omega) (by simpa using h)⟩
  case dsi =>
    rw [key (fun i => decide (8 ≤ i ∧ i ≤ 15)) (by decide), bits_eq_zero_iff _ (by decide)]
    exact ⟨fun H i a h => H i (by omega) (by simp; omega), fun H i _ h => by
      have h := of_decide_eq_true h
      exact H i h.1 h.2⟩
  case di =>
    rw [key (fun i => decide (8 ≤ i ∧ i ≤ 19)) (by decide), bits_eq_zero_iff _ (by decide)]
    exact ⟨fun H i a h => H i (by omega) (by simp; omega), fun H i _ h => by
      have h := of_decide_eq_true h
      exact H i h.1 h.2⟩
  case imm =>
    rw [key (fun i => decide (16 ≤ i ∧ i ≤ 19)) (by decide), bits_eq_zero_iff _ (by decide)]
    exact ⟨fun H i a h => H i (by omega) (by simp; omega), fun H i _ h => by
      have h := of_decide_eq_true h
      exact H i h.1 h.2⟩
  case s =>
    rw [key (fun i => decide (i ≤ 15 ∨ 20 ≤ i)) (by decide), bits_eq_zero_iff _ (by decide),
      bits_eq_zero_iff _ (by decide)]
    exact ⟨fun H => ⟨fun i a h => H i (by omega) (by simp; omega), fun i a h => H i (by omega) (by simp; omega)⟩,
      fun H i hi h => by
        rcases of_decide_eq_true h with h | h
        · exact H.2 i (by omega) h
        · exact H.1 i h (by omega)⟩
  case st =>
    rw [key (fun i => decide (i ≤ 11 ∨ 20 ≤ i)) (by decide), bits_eq_zero_iff _ (by decide),
      bits_eq_zero_iff _ (by decide)]
    exact ⟨fun H => ⟨fun i a h => H i (by omega) (by simp; omega), fun i a h => H i (by omega) (by simp; omega)⟩,
      fun H i hi h => by
        rcases of_decide_eq_true h with h | h
        · exact H.2 i (by omega) h
        · exact H.1 i h (by omega)⟩
  case si =>
    rw [key (fun i => decide ((8 ≤ i ∧ i ≤ 15) ∨ 20 ≤ i)) (by decide), bits_eq_zero_iff _ (by decide),
      bits_eq_zero_iff _ (by decide)]
    exact ⟨fun H => ⟨fun i a h => H i (by omega) (by simp; omega), fun i a h => H i (by omega) (by simp; omega)⟩,
      fun H i hi h => by
        rcases of_decide_eq_true h with h | h
        · exact H.2 i h.1 h.2
        · exact H.1 i h (by omega)⟩

theorem Csr.ofNumber_number (c : Csr) : Csr.ofNumber c.number = some c := by cases c <;> rfl

theorem Csr.number_of_ofNumber {n : Nat} {c : Csr} (h : Csr.ofNumber n = some c) : c.number = n := by
  unfold Csr.ofNumber at h
  split at h <;> first | (cases h; rfl) | cases h

theorem Csr.number_lt (c : Csr) : c.number < 256 := by cases c <;> decide

end Sys2Proof
end

