-- ==== Sys2Proof/Laws/State.lean ====
section
/-! SUPPORT. What each named update does to each field of State: one lemma per field per update, so that no proof unfolds
a record update. -/

namespace Sys2Proof.Machine

/-! ### setX -/

@[simp] theorem setX_regs (s : State) (r : Reg) (v : Word) : (s.setX r v).regs = s.regs.set r v := rfl
@[simp] theorem setX_halted (s : State) (r : Reg) (v : Word) : (s.setX r v).halted = s.halted := rfl
@[simp] theorem setX_cause (s : State) (r : Reg) (v : Word) : (s.setX r v).cause = s.cause := rfl
@[simp] theorem setX_faultCmd (s : State) (r : Reg) (v : Word) : (s.setX r v).faultCmd = s.faultCmd := rfl
@[simp] theorem setX_faultInfo (s : State) (r : Reg) (v : Word) : (s.setX r v).faultInfo = s.faultInfo := rfl
@[simp] theorem setX_tick (s : State) (r : Reg) (v : Word) : (s.setX r v).tick = s.tick := rfl
@[simp] theorem setX_outRate (s : State) (r : Reg) (v : Word) : (s.setX r v).outRate = s.outRate := rfl
@[simp] theorem setX_pitched (s : State) (r : Reg) (v : Word) : (s.setX r v).pitched = s.pitched := rfl
@[simp] theorem setX_slots (s : State) (r : Reg) (v : Word) : (s.setX r v).slots = s.slots := rfl
@[simp] theorem setX_stepTab (s : State) (r : Reg) (v : Word) : (s.setX r v).stepTab = s.stepTab := rfl
@[simp] theorem setX_mem (s : State) (r : Reg) (v : Word) : (s.setX r v).mem = s.mem := rfl
@[simp] theorem setX_withheld (s : State) (r : Reg) (v : Word) : (s.setX r v).withheld = s.withheld := rfl
@[simp] theorem setX_events (s : State) (r : Reg) (v : Word) : (s.setX r v).events = s.events := rfl
@[simp] theorem setX_params (s : State) (r : Reg) (v : Word) : (s.setX r v).params = s.params := rfl
@[simp] theorem setX_input (s : State) (r : Reg) (v : Word) : (s.setX r v).input = s.input := rfl
@[simp] theorem setX_readData (s : State) (r : Reg) (v : Word) : (s.setX r v).readData = s.readData := rfl

/-! ### put -/

@[simp] theorem put_regs (s : State) (r : Reg) (v : Int) : (s.put r v).regs = s.regs.set r (toWord v) := rfl
@[simp] theorem put_halted (s : State) (r : Reg) (v : Int) : (s.put r v).halted = s.halted := rfl
@[simp] theorem put_cause (s : State) (r : Reg) (v : Int) : (s.put r v).cause = s.cause := rfl
@[simp] theorem put_faultCmd (s : State) (r : Reg) (v : Int) : (s.put r v).faultCmd = s.faultCmd := rfl
@[simp] theorem put_faultInfo (s : State) (r : Reg) (v : Int) : (s.put r v).faultInfo = s.faultInfo := rfl
@[simp] theorem put_tick (s : State) (r : Reg) (v : Int) : (s.put r v).tick = s.tick := rfl
@[simp] theorem put_outRate (s : State) (r : Reg) (v : Int) : (s.put r v).outRate = s.outRate := rfl
@[simp] theorem put_pitched (s : State) (r : Reg) (v : Int) : (s.put r v).pitched = s.pitched := rfl
@[simp] theorem put_slots (s : State) (r : Reg) (v : Int) : (s.put r v).slots = s.slots := rfl
@[simp] theorem put_stepTab (s : State) (r : Reg) (v : Int) : (s.put r v).stepTab = s.stepTab := rfl
@[simp] theorem put_mem (s : State) (r : Reg) (v : Int) : (s.put r v).mem = s.mem := rfl
@[simp] theorem put_withheld (s : State) (r : Reg) (v : Int) : (s.put r v).withheld = s.withheld := rfl
@[simp] theorem put_events (s : State) (r : Reg) (v : Int) : (s.put r v).events = s.events := rfl
@[simp] theorem put_params (s : State) (r : Reg) (v : Int) : (s.put r v).params = s.params := rfl
@[simp] theorem put_input (s : State) (r : Reg) (v : Int) : (s.put r v).input = s.input := rfl
@[simp] theorem put_readData (s : State) (r : Reg) (v : Int) : (s.put r v).readData = s.readData := rfl

/-! ### putByte -/

@[simp] theorem putByte_regs (s : State) (a : Nat) (v : Byte) : (s.putByte a v).regs = s.regs := rfl
@[simp] theorem putByte_halted (s : State) (a : Nat) (v : Byte) : (s.putByte a v).halted = s.halted := rfl
@[simp] theorem putByte_cause (s : State) (a : Nat) (v : Byte) : (s.putByte a v).cause = s.cause := rfl
@[simp] theorem putByte_faultCmd (s : State) (a : Nat) (v : Byte) : (s.putByte a v).faultCmd = s.faultCmd := rfl
@[simp] theorem putByte_faultInfo (s : State) (a : Nat) (v : Byte) : (s.putByte a v).faultInfo = s.faultInfo := rfl
@[simp] theorem putByte_tick (s : State) (a : Nat) (v : Byte) : (s.putByte a v).tick = s.tick := rfl
@[simp] theorem putByte_outRate (s : State) (a : Nat) (v : Byte) : (s.putByte a v).outRate = s.outRate := rfl
@[simp] theorem putByte_pitched (s : State) (a : Nat) (v : Byte) : (s.putByte a v).pitched = s.pitched := rfl
@[simp] theorem putByte_slots (s : State) (a : Nat) (v : Byte) : (s.putByte a v).slots = s.slots := rfl
@[simp] theorem putByte_stepTab (s : State) (a : Nat) (v : Byte) : (s.putByte a v).stepTab = s.stepTab := rfl
@[simp] theorem putByte_mem (s : State) (a : Nat) (v : Byte) : (s.putByte a v).mem = Memory.put s.mem a v := rfl
@[simp] theorem putByte_withheld (s : State) (a : Nat) (v : Byte) : (s.putByte a v).withheld = s.withheld := rfl
@[simp] theorem putByte_events (s : State) (a : Nat) (v : Byte) : (s.putByte a v).events = s.events := rfl
@[simp] theorem putByte_params (s : State) (a : Nat) (v : Byte) : (s.putByte a v).params = s.params := rfl
@[simp] theorem putByte_input (s : State) (a : Nat) (v : Byte) : (s.putByte a v).input = s.input := rfl
@[simp] theorem putByte_readData (s : State) (a : Nat) (v : Byte) : (s.putByte a v).readData = s.readData := rfl

/-! ### portWrite2 -/

@[simp] theorem portWrite2_regs (s : State) (a : Nat) (v : Half) : (s.portWrite2 a v).regs = s.regs := rfl
@[simp] theorem portWrite2_halted (s : State) (a : Nat) (v : Half) : (s.portWrite2 a v).halted = s.halted := rfl
@[simp] theorem portWrite2_cause (s : State) (a : Nat) (v : Half) : (s.portWrite2 a v).cause = s.cause := rfl
@[simp] theorem portWrite2_faultCmd (s : State) (a : Nat) (v : Half) : (s.portWrite2 a v).faultCmd = s.faultCmd := rfl
@[simp] theorem portWrite2_faultInfo (s : State) (a : Nat) (v : Half) :
    (s.portWrite2 a v).faultInfo = s.faultInfo := rfl
@[simp] theorem portWrite2_tick (s : State) (a : Nat) (v : Half) : (s.portWrite2 a v).tick = s.tick := rfl
@[simp] theorem portWrite2_outRate (s : State) (a : Nat) (v : Half) : (s.portWrite2 a v).outRate = s.outRate := rfl
@[simp] theorem portWrite2_pitched (s : State) (a : Nat) (v : Half) : (s.portWrite2 a v).pitched = s.pitched := rfl
@[simp] theorem portWrite2_slots (s : State) (a : Nat) (v : Half) : (s.portWrite2 a v).slots = s.slots := rfl
@[simp] theorem portWrite2_stepTab (s : State) (a : Nat) (v : Half) : (s.portWrite2 a v).stepTab = s.stepTab := rfl
@[simp] theorem portWrite2_mem (s : State) (a : Nat) (v : Half) :
    (s.portWrite2 a v).mem = Memory.put (Memory.put s.mem a (v.setWidth 8)) (a + 1) ((v >>> 8).setWidth 8) := rfl
@[simp] theorem portWrite2_withheld (s : State) (a : Nat) (v : Half) : (s.portWrite2 a v).withheld = s.withheld := rfl
@[simp] theorem portWrite2_events (s : State) (a : Nat) (v : Half) : (s.portWrite2 a v).events = s.events := rfl
@[simp] theorem portWrite2_params (s : State) (a : Nat) (v : Half) : (s.portWrite2 a v).params = s.params := rfl
@[simp] theorem portWrite2_input (s : State) (a : Nat) (v : Half) : (s.portWrite2 a v).input = s.input := rfl
@[simp] theorem portWrite2_readData (s : State) (a : Nat) (v : Half) : (s.portWrite2 a v).readData = s.readData := rfl

/-! ### setSlot -/

@[simp] theorem setSlot_regs (s : State) (c : Nat) (sl : Slot) : (s.setSlot c sl).regs = s.regs := rfl
@[simp] theorem setSlot_halted (s : State) (c : Nat) (sl : Slot) : (s.setSlot c sl).halted = s.halted := rfl
@[simp] theorem setSlot_cause (s : State) (c : Nat) (sl : Slot) : (s.setSlot c sl).cause = s.cause := rfl
@[simp] theorem setSlot_faultCmd (s : State) (c : Nat) (sl : Slot) : (s.setSlot c sl).faultCmd = s.faultCmd := rfl
@[simp] theorem setSlot_faultInfo (s : State) (c : Nat) (sl : Slot) : (s.setSlot c sl).faultInfo = s.faultInfo := rfl
@[simp] theorem setSlot_tick (s : State) (c : Nat) (sl : Slot) : (s.setSlot c sl).tick = s.tick := rfl
@[simp] theorem setSlot_outRate (s : State) (c : Nat) (sl : Slot) : (s.setSlot c sl).outRate = s.outRate := rfl
@[simp] theorem setSlot_pitched (s : State) (c : Nat) (sl : Slot) : (s.setSlot c sl).pitched = s.pitched := rfl
@[simp] theorem setSlot_slots (s : State) (c : Nat) (sl : Slot) : (s.setSlot c sl).slots = s.slots.set c sl := rfl
@[simp] theorem setSlot_stepTab (s : State) (c : Nat) (sl : Slot) : (s.setSlot c sl).stepTab = s.stepTab := rfl
@[simp] theorem setSlot_mem (s : State) (c : Nat) (sl : Slot) : (s.setSlot c sl).mem = s.mem := rfl
@[simp] theorem setSlot_withheld (s : State) (c : Nat) (sl : Slot) : (s.setSlot c sl).withheld = s.withheld := rfl
@[simp] theorem setSlot_events (s : State) (c : Nat) (sl : Slot) : (s.setSlot c sl).events = s.events := rfl
@[simp] theorem setSlot_params (s : State) (c : Nat) (sl : Slot) : (s.setSlot c sl).params = s.params := rfl
@[simp] theorem setSlot_input (s : State) (c : Nat) (sl : Slot) : (s.setSlot c sl).input = s.input := rfl
@[simp] theorem setSlot_readData (s : State) (c : Nat) (sl : Slot) : (s.setSlot c sl).readData = s.readData := rfl

/-! ### releaseSlot -/

@[simp] theorem releaseSlot_regs (s : State) (c : Nat) : (s.releaseSlot c).regs = s.regs := rfl
@[simp] theorem releaseSlot_halted (s : State) (c : Nat) : (s.releaseSlot c).halted = s.halted := rfl
@[simp] theorem releaseSlot_cause (s : State) (c : Nat) : (s.releaseSlot c).cause = s.cause := rfl
@[simp] theorem releaseSlot_faultCmd (s : State) (c : Nat) : (s.releaseSlot c).faultCmd = s.faultCmd := rfl
@[simp] theorem releaseSlot_faultInfo (s : State) (c : Nat) : (s.releaseSlot c).faultInfo = s.faultInfo := rfl
@[simp] theorem releaseSlot_tick (s : State) (c : Nat) : (s.releaseSlot c).tick = s.tick := rfl
@[simp] theorem releaseSlot_outRate (s : State) (c : Nat) : (s.releaseSlot c).outRate = s.outRate := rfl
@[simp] theorem releaseSlot_pitched (s : State) (c : Nat) : (s.releaseSlot c).pitched = s.pitched := rfl
@[simp] theorem releaseSlot_slots (s : State) (c : Nat) :
    (s.releaseSlot c).slots = s.slots.set c { s.slot c with cur := 0 } := rfl
@[simp] theorem releaseSlot_stepTab (s : State) (c : Nat) : (s.releaseSlot c).stepTab = s.stepTab := rfl
@[simp] theorem releaseSlot_mem (s : State) (c : Nat) : (s.releaseSlot c).mem = s.mem := rfl
@[simp] theorem releaseSlot_withheld (s : State) (c : Nat) : (s.releaseSlot c).withheld = s.withheld := rfl
@[simp] theorem releaseSlot_events (s : State) (c : Nat) :
    (s.releaseSlot c).events = s.events ++ [.release c (s.slot c).base] := rfl
@[simp] theorem releaseSlot_params (s : State) (c : Nat) : (s.releaseSlot c).params = s.params := rfl
@[simp] theorem releaseSlot_input (s : State) (c : Nat) : (s.releaseSlot c).input = s.input := rfl
@[simp] theorem releaseSlot_readData (s : State) (c : Nat) : (s.releaseSlot c).readData = s.readData := rfl

/-! ### raise -/

@[simp] theorem raise_regs (s : State) (w : Word) (k : Cause) (i : Word) : (s.raise w k i).regs = s.regs := rfl
@[simp] theorem raise_halted (s : State) (w : Word) (k : Cause) (i : Word) : (s.raise w k i).halted = true := rfl
@[simp] theorem raise_cause (s : State) (w : Word) (k : Cause) (i : Word) : (s.raise w k i).cause = k := rfl
@[simp] theorem raise_faultCmd (s : State) (w : Word) (k : Cause) (i : Word) : (s.raise w k i).faultCmd = w := rfl
@[simp] theorem raise_faultInfo (s : State) (w : Word) (k : Cause) (i : Word) : (s.raise w k i).faultInfo = i := rfl
@[simp] theorem raise_tick (s : State) (w : Word) (k : Cause) (i : Word) : (s.raise w k i).tick = s.tick := rfl
@[simp] theorem raise_outRate (s : State) (w : Word) (k : Cause) (i : Word) :
    (s.raise w k i).outRate = s.outRate := rfl
@[simp] theorem raise_pitched (s : State) (w : Word) (k : Cause) (i : Word) :
    (s.raise w k i).pitched = s.pitched := rfl
@[simp] theorem raise_slots (s : State) (w : Word) (k : Cause) (i : Word) : (s.raise w k i).slots = s.slots := rfl
@[simp] theorem raise_stepTab (s : State) (w : Word) (k : Cause) (i : Word) :
    (s.raise w k i).stepTab = s.stepTab := rfl
@[simp] theorem raise_mem (s : State) (w : Word) (k : Cause) (i : Word) : (s.raise w k i).mem = s.mem := rfl
@[simp] theorem raise_withheld (s : State) (w : Word) (k : Cause) (i : Word) :
    (s.raise w k i).withheld = s.withheld := rfl
@[simp] theorem raise_events (s : State) (w : Word) (k : Cause) (i : Word) : (s.raise w k i).events = s.events := rfl
@[simp] theorem raise_params (s : State) (w : Word) (k : Cause) (i : Word) : (s.raise w k i).params = s.params := rfl
@[simp] theorem raise_input (s : State) (w : Word) (k : Cause) (i : Word) : (s.raise w k i).input = s.input := rfl
@[simp] theorem raise_readData (s : State) (w : Word) (k : Cause) (i : Word) :
    (s.raise w k i).readData = s.readData := rfl

/-! ### initMixer -/

@[simp] theorem initMixer_regs (s : State) (rate : Word) : (s.initMixer rate).regs = s.regs := rfl
@[simp] theorem initMixer_halted (s : State) (rate : Word) : (s.initMixer rate).halted = s.halted := rfl
@[simp] theorem initMixer_cause (s : State) (rate : Word) : (s.initMixer rate).cause = s.cause := rfl
@[simp] theorem initMixer_faultCmd (s : State) (rate : Word) : (s.initMixer rate).faultCmd = s.faultCmd := rfl
@[simp] theorem initMixer_faultInfo (s : State) (rate : Word) : (s.initMixer rate).faultInfo = s.faultInfo := rfl
@[simp] theorem initMixer_tick (s : State) (rate : Word) : (s.initMixer rate).tick = s.tick := rfl
@[simp] theorem initMixer_outRate (s : State) (rate : Word) : (s.initMixer rate).outRate = rate := rfl
@[simp] theorem initMixer_pitched (s : State) (rate : Word) : (s.initMixer rate).pitched = s.pitched := rfl
@[simp] theorem initMixer_slots (s : State) (rate : Word) :
    (s.initMixer rate).slots = List.replicate s.nch Slot.zero := rfl
@[simp] theorem initMixer_stepTab (s : State) (rate : Word) : (s.initMixer rate).stepTab = buildStepTab rate := rfl
@[simp] theorem initMixer_mem (s : State) (rate : Word) : (s.initMixer rate).mem = s.mem := rfl
@[simp] theorem initMixer_withheld (s : State) (rate : Word) : (s.initMixer rate).withheld = s.withheld := rfl
@[simp] theorem initMixer_events (s : State) (rate : Word) :
    (s.initMixer rate).events = s.events ++ releasesFrom 0 s.slots := rfl
@[simp] theorem initMixer_params (s : State) (rate : Word) : (s.initMixer rate).params = s.params := rfl
@[simp] theorem initMixer_input (s : State) (rate : Word) : (s.initMixer rate).input = s.input := rfl
@[simp] theorem initMixer_readData (s : State) (rate : Word) : (s.initMixer rate).readData = s.readData := rfl

/-! ### resetBlock -/

@[simp] theorem resetBlock_regs (s : State) : (s.resetBlock).regs = Vector.replicate 16 0 := rfl
@[simp] theorem resetBlock_halted (s : State) : (s.resetBlock).halted = false := rfl
@[simp] theorem resetBlock_cause (s : State) : (s.resetBlock).cause = .none := rfl
@[simp] theorem resetBlock_faultCmd (s : State) : (s.resetBlock).faultCmd = 0 := rfl
@[simp] theorem resetBlock_faultInfo (s : State) : (s.resetBlock).faultInfo = 0 := rfl
@[simp] theorem resetBlock_tick (s : State) : (s.resetBlock).tick = 0 := rfl
@[simp] theorem resetBlock_outRate (s : State) : (s.resetBlock).outRate = BitVec.ofNat 32 s.params.outRateReset := rfl
@[simp] theorem resetBlock_pitched (s : State) : (s.resetBlock).pitched = false := rfl
@[simp] theorem resetBlock_slots (s : State) : (s.resetBlock).slots = List.replicate s.nch Slot.zero := rfl
@[simp] theorem resetBlock_stepTab (s : State) :
    (s.resetBlock).stepTab = buildStepTab (BitVec.ofNat 32 s.params.outRateReset) := rfl
@[simp] theorem resetBlock_mem (s : State) : (s.resetBlock).mem = s.mem := rfl
@[simp] theorem resetBlock_withheld (s : State) : (s.resetBlock).withheld = s.withheld := rfl
@[simp] theorem resetBlock_events (s : State) : (s.resetBlock).events = s.events := rfl
@[simp] theorem resetBlock_params (s : State) : (s.resetBlock).params = s.params := rfl
@[simp] theorem resetBlock_input (s : State) : (s.resetBlock).input = s.input := rfl
@[simp] theorem resetBlock_readData (s : State) : (s.resetBlock).readData = s.readData := rfl

/-! ### csrWrite: by cases on the register -/

@[simp] theorem csrWrite_regs (s : State) (c : Csr) (v : Word) : (s.csrWrite c v).regs = s.regs := by
  cases c <;> rfl
@[simp] theorem csrWrite_halted (s : State) (c : Csr) (v : Word) : (s.csrWrite c v).halted = s.halted := by
  cases c <;> rfl
@[simp] theorem csrWrite_cause (s : State) (c : Csr) (v : Word) : (s.csrWrite c v).cause = s.cause := by
  cases c <;> rfl
@[simp] theorem csrWrite_faultCmd (s : State) (c : Csr) (v : Word) : (s.csrWrite c v).faultCmd = s.faultCmd := by
  cases c <;> rfl
@[simp] theorem csrWrite_faultInfo (s : State) (c : Csr) (v : Word) : (s.csrWrite c v).faultInfo = s.faultInfo := by
  cases c <;> rfl
@[simp] theorem csrWrite_outRate (s : State) (c : Csr) (v : Word) : (s.csrWrite c v).outRate = s.outRate := by
  cases c <;> rfl
@[simp] theorem csrWrite_slots (s : State) (c : Csr) (v : Word) : (s.csrWrite c v).slots = s.slots := by
  cases c <;> rfl
@[simp] theorem csrWrite_stepTab (s : State) (c : Csr) (v : Word) : (s.csrWrite c v).stepTab = s.stepTab := by
  cases c <;> rfl
@[simp] theorem csrWrite_mem (s : State) (c : Csr) (v : Word) : (s.csrWrite c v).mem = s.mem := by
  cases c <;> rfl
@[simp] theorem csrWrite_withheld (s : State) (c : Csr) (v : Word) : (s.csrWrite c v).withheld = s.withheld := by
  cases c <;> rfl
@[simp] theorem csrWrite_events (s : State) (c : Csr) (v : Word) : (s.csrWrite c v).events = s.events := by
  cases c <;> rfl
@[simp] theorem csrWrite_params (s : State) (c : Csr) (v : Word) : (s.csrWrite c v).params = s.params := by
  cases c <;> rfl
@[simp] theorem csrWrite_input (s : State) (c : Csr) (v : Word) : (s.csrWrite c v).input = s.input := by
  cases c <;> rfl
@[simp] theorem csrWrite_readData (s : State) (c : Csr) (v : Word) : (s.csrWrite c v).readData = s.readData := by
  cases c <;> rfl
@[simp] theorem csrWrite_tick (s : State) (c : Csr) (v : Word) :
    (s.csrWrite c v).tick = if c = .tick then v else s.tick := by
  cases c <;> rfl
@[simp] theorem csrWrite_pitched (s : State) (c : Csr) (v : Word) :
    (s.csrWrite c v).pitched = if c = .config then v.getLsbD 0 else s.pitched := by
  cases c <;> rfl

/-! ### releaseIfActive: everything but slots and events -/

@[simp] theorem releaseIfActive_regs (s : State) (c : Nat) : (s.releaseIfActive c).regs = s.regs := by
  unfold State.releaseIfActive; split <;> rfl
@[simp] theorem releaseIfActive_halted (s : State) (c : Nat) : (s.releaseIfActive c).halted = s.halted := by
  unfold State.releaseIfActive; split <;> rfl
@[simp] theorem releaseIfActive_cause (s : State) (c : Nat) : (s.releaseIfActive c).cause = s.cause := by
  unfold State.releaseIfActive; split <;> rfl
@[simp] theorem releaseIfActive_faultCmd (s : State) (c : Nat) : (s.releaseIfActive c).faultCmd = s.faultCmd := by
  unfold State.releaseIfActive; split <;> rfl
@[simp] theorem releaseIfActive_faultInfo (s : State) (c : Nat) : (s.releaseIfActive c).faultInfo = s.faultInfo := by
  unfold State.releaseIfActive; split <;> rfl
@[simp] theorem releaseIfActive_tick (s : State) (c : Nat) : (s.releaseIfActive c).tick = s.tick := by
  unfold State.releaseIfActive; split <;> rfl
@[simp] theorem releaseIfActive_outRate (s : State) (c : Nat) : (s.releaseIfActive c).outRate = s.outRate := by
  unfold State.releaseIfActive; split <;> rfl
@[simp] theorem releaseIfActive_pitched (s : State) (c : Nat) : (s.releaseIfActive c).pitched = s.pitched := by
  unfold State.releaseIfActive; split <;> rfl
@[simp] theorem releaseIfActive_stepTab (s : State) (c : Nat) : (s.releaseIfActive c).stepTab = s.stepTab := by
  unfold State.releaseIfActive; split <;> rfl
@[simp] theorem releaseIfActive_mem (s : State) (c : Nat) : (s.releaseIfActive c).mem = s.mem := by
  unfold State.releaseIfActive; split <;> rfl
@[simp] theorem releaseIfActive_withheld (s : State) (c : Nat) : (s.releaseIfActive c).withheld = s.withheld := by
  unfold State.releaseIfActive; split <;> rfl
@[simp] theorem releaseIfActive_params (s : State) (c : Nat) : (s.releaseIfActive c).params = s.params := by
  unfold State.releaseIfActive; split <;> rfl
@[simp] theorem releaseIfActive_input (s : State) (c : Nat) : (s.releaseIfActive c).input = s.input := by
  unfold State.releaseIfActive; split <;> rfl
@[simp] theorem releaseIfActive_readData (s : State) (c : Nat) : (s.releaseIfActive c).readData = s.readData := by
  unfold State.releaseIfActive; split <;> rfl

end Sys2Proof.Machine
end

