-- ==== Sys2Proof/Laws/Memory.lean ====
section
/-! SUPPORT. Data memory: what a stored byte changes, and that the canonical form is kept. -/

namespace Sys2Proof.Machine

theorem Memory.get_filter_ne (m : Memory) (a b : Nat) :
    Memory.get (m.filter fun c => c.1 ≠ a) b = if b = a then initialByte else Memory.get m b := by
  induction m with
  | nil => simp [Memory.get]
  | cons c rest ih =>
    obtain ⟨k, v⟩ := c
    by_cases h : k = a
    · subst h
      rw [List.filter_cons_of_neg (by simp), ih]
      by_cases hb : b = k <;> simp [hb, Memory.get]
    · rw [List.filter_cons_of_pos (by simpa using h)]
      simp only [Memory.get, ih]
      by_cases hb : b = k <;> simp [hb, h]

theorem Memory.get_insertCell (m : Memory) (a : Nat) (v : Byte) (h : ∀ c ∈ m, c.1 ≠ a) (b : Nat) :
    Memory.get (Memory.insertCell m a v) b = if b = a then v else Memory.get m b := by
  induction m with
  | nil => by_cases hb : b = a <;> simp [Memory.insertCell, Memory.get, hb]
  | cons c rest ih =>
    obtain ⟨k, u⟩ := c
    have hk : k ≠ a := h (k, u) (by simp)
    have ih := ih fun c hc => h c (by simp [hc])
    unfold Memory.insertCell
    split
    · by_cases hb : b = a <;> simp [Memory.get, hb]
    · simp only [Memory.get, ih]
      by_cases hb : b = k <;> simp [hb, hk]

/-- Reading after storing (R71): the byte stored at its address, every other byte as before. -/
theorem Memory.get_put (m : Memory) (a : Nat) (v : Byte) (b : Nat) :
    Memory.get (Memory.put m a v) b = if b = a then v else Memory.get m b := by
  unfold Memory.put
  dsimp only
  split
  · next h => rw [Memory.get_filter_ne, h]
  · rw [Memory.get_insertCell _ _ _ (by simp), Memory.get_filter_ne]
    by_cases hb : b = a <;> simp [hb]

theorem Memory.insertCell_all (p : Host.Cell → Bool) (m : Memory) (a : Nat) (v : Byte) :
    (Memory.insertCell m a v).all p = (p (a, v) && m.all p) := by
  induction m with
  | nil => simp [Memory.insertCell]
  | cons c rest ih =>
    unfold Memory.insertCell
    split
    · simp
    · simp only [List.all_cons, ih]; rw [← Bool.and_assoc, ← Bool.and_assoc, Bool.and_comm (p c)]

theorem Memory.insertCell_pairwise {m : Memory} (a : Nat) (v : Byte) (h : (m.map Prod.fst).Pairwise (· < ·))
    (ha : ∀ c ∈ m, c.1 ≠ a) : ((Memory.insertCell m a v).map Prod.fst).Pairwise (· < ·) := by
  induction m with
  | nil => simp [Memory.insertCell]
  | cons c rest ih =>
    obtain ⟨k, u⟩ := c
    have hk : k ≠ a := ha (k, u) (by simp)
    simp only [List.map_cons, List.pairwise_cons] at h
    have ih := ih h.2 fun c hc => ha c (by simp [hc])
    unfold Memory.insertCell
    split
    · next hlt =>
      simp only [List.map_cons, List.pairwise_cons]
      refine ⟨?_, h⟩
      intro x hx
      rcases List.mem_cons.1 hx with rfl | hx
      · exact hlt
      · exact lt_trans hlt (h.1 x hx)
    · next hlt =>
      simp only [List.map_cons, List.pairwise_cons]
      refine ⟨?_, ih⟩
      intro x hx
      have mem : ∀ l : Memory, x ∈ (Memory.insertCell l a v).map Prod.fst → x = a ∨ x ∈ l.map Prod.fst := by
        intro l
        induction l with
        | nil => simp [Memory.insertCell]
        | cons d l ihl =>
          unfold Memory.insertCell
          split
          · simp
          · simp only [List.map_cons, List.mem_cons]
            rintro (h | h)
            · exact .inr (.inl h)
            · rcases ihl h with h | h
              · exact .inl h
              · exact .inr (.inr h)
      rcases mem rest hx with rfl | hx
      · omega
      · exact h.1 x hx

/-- Storing a byte at an address that exists keeps the canonical form. -/
theorem Memory.wf_put {m : Memory} (h : Memory.wf m = true) {a : Nat} (ha : a < 2 ^ 32) (v : Byte) :
    Memory.wf (Memory.put m a v) = true := by
  simp only [Memory.wf, Bool.and_eq_true, decide_eq_true_eq] at h ⊢
  have sorted : ((m.filter fun c => decide (c.1 ≠ a)).map Prod.fst).Pairwise (· < ·) :=
    h.1.sublist (List.filter_sublist.map _)
  have listed : ((m.filter fun c => decide (c.1 ≠ a)).all fun c => decide (c.1 < 2 ^ 32) && c.2 != initialByte) =
      true :=
    List.all_eq_true.2 fun c hc => List.all_eq_true.1 h.2 c (List.mem_of_mem_filter hc)
  unfold Memory.put
  dsimp only
  split
  · exact ⟨sorted, listed⟩
  · next hv =>
    refine ⟨Memory.insertCell_pairwise a v sorted (by simp), ?_⟩
    rw [Memory.insertCell_all, listed]
    simp only [Bool.and_true, Bool.and_eq_true, decide_eq_true_eq, bne_iff_ne, ne_eq]
    exact ⟨ha, hv⟩

theorem Memory.wf_nil : Memory.wf [] = true := by decide

theorem byteAt_putByte (s : State) (a : Nat) (v : Byte) (b : Nat) :
    (s.putByte a v).byteAt b = if b = a then v else s.byteAt b := Memory.get_put s.mem a v b

theorem byteAt_portWrite2 (s : State) (a : Nat) (v : Half) (b : Nat) :
    (s.portWrite2 a v).byteAt b =
      if b = a + 1 then (v >>> 8).setWidth 8 else if b = a then v.setWidth 8 else s.byteAt b := by
  rw [State.portWrite2, byteAt_putByte, byteAt_putByte]

/-- Updates that leave the memory list alone leave every byte alone. -/
theorem byteAt_of_mem_eq {s t : State} (h : t.mem = s.mem) (a : Nat) : t.byteAt a = s.byteAt a := by
  simp [State.byteAt, h]

end Sys2Proof.Machine
end

