-- ==== Sys2Proof/Laws/Ops.lean ====
section
/-! SUPPORT. What each shared operation can do, said once: registers, the data port, channels, releases, faults. -/

namespace Sys2Proof.Machine

/-! ### Registers -/

/-- A register reads as last written, every other register as before (R20). -/
theorem x_setX (s : State) (r q : Reg) (v : Word) : (s.setX r v).x q = if r = q then v else s.x q := by
  simp only [State.x, setX_regs, Fin.getElem_fin, Vector.getElem_set, Fin.ext_iff]

@[simp] theorem x_setX_self (s : State) (r : Reg) (v : Word) : (s.setX r v).x r = v := by simp [x_setX]

theorem x_setX_of_ne (s : State) {r q : Reg} (h : r ≠ q) (v : Word) : (s.setX r v).x q = s.x q := by
  simp [x_setX, h]

theorem x_put (s : State) (r q : Reg) (v : Int) : (s.put r v).x q = if r = q then toWord v else s.x q :=
  x_setX s r q _

@[simp] theorem x_put_self (s : State) (r : Reg) (v : Int) : (s.put r v).x r = toWord v := by simp [x_put]

theorem x_put_of_ne (s : State) {r q : Reg} (h : r ≠ q) (v : Int) : (s.put r v).x q = s.x q := by simp [x_put, h]

/-- Registers read the same when the register file is the same. -/
theorem x_of_regs_eq {s t : State} (h : t.regs = s.regs) (r : Reg) : t.x r = s.x r := by simp [State.x, h]

/-- The registers of a group are different registers. -/
theorem group_ne (r : Reg) : r ≠ r + 1 ∧ r ≠ r + 2 ∧ r + 1 ≠ r + 2 ∧ r ≠ r + 3 ∧ r + 1 ≠ r + 3 ∧ r + 2 ≠ r + 3 := by
  revert r; decide

/-- Writing one register changes nothing else. -/
theorem setX_onlyRegs (s : State) (r : Reg) (v : Word) : OnlyRegs [r] s (s.setX r v) := by
  refine ⟨fun q hq => x_setX_of_ne s (by simpa [eq_comm] using hq) v, ?_, ?_, ?_, ?_, fun a => ?_⟩ <;>
    simp [SameFaultRecord, SameControl, SameChannels, SameHostSide, State.byteAt]

theorem put_onlyRegs (s : State) (r : Reg) (v : Int) : OnlyRegs [r] s (s.put r v) := setX_onlyRegs s r _

/-- One frame after another. -/
theorem OnlyRegs.trans {l m : List Reg} {s t u : State} (h : OnlyRegs l s t) (g : OnlyRegs m t u) :
    OnlyRegs (l ++ m) s u := by
  obtain ⟨h1, ⟨a1, a2, a3, a4⟩, ⟨b1, b2, b3, b4⟩, ⟨c1, c2⟩, ⟨d1, d2, d3, d4⟩, h6⟩ := h
  obtain ⟨g1, ⟨e1, e2, e3, e4⟩, ⟨f1, f2, f3, f4⟩, ⟨i1, i2⟩, ⟨j1, j2, j3, j4⟩, g6⟩ := g
  refine ⟨fun r hr => ?_, ⟨?_, ?_, ?_, ?_⟩, ⟨?_, ?_, ?_, ?_⟩, ⟨?_, ?_⟩, ⟨?_, ?_, ?_, ?_⟩, fun a => ?_⟩
  · simp only [List.mem_append, not_or] at hr
    rw [g1 r hr.2, h1 r hr.1]
  all_goals simp_all [SameBytes]

theorem OnlyRegs.refl (s : State) : OnlyRegs [] s s := by
  refine ⟨fun _ _ => rfl, ?_, ?_, ?_, ?_, fun _ => rfl⟩ <;>
    simp [SameFaultRecord, SameControl, SameChannels, SameHostSide]

/-- Three results in consecutive registers change nothing else (R230). -/
theorem put3_onlyRegs (s : State) (r : Reg) (a b c : Int) : OnlyRegs [r, r + 1, r + 2] s (s.put3 r a b c) :=
  ((put_onlyRegs s r a).trans (put_onlyRegs _ (r + 1) b)).trans (put_onlyRegs _ (r + 2) c)

/-- Each of the three registers reads as its result. -/
theorem x_put3 (s : State) (r : Reg) (a b c : Int) :
    (s.put3 r a b c).x r = toWord a ∧ (s.put3 r a b c).x (r + 1) = toWord b ∧
      (s.put3 r a b c).x (r + 2) = toWord c := by
  obtain ⟨h1, h2, h3, _⟩ := group_ne r
  simp [State.put3, x_put, h1.symm, h2.symm, h3.symm]

theorem put3_regs_only (s : State) (r : Reg) (a b c : Int) :
    s.put3 r a b c = { s with regs := (s.put3 r a b c).regs } := rfl

/-- A fault changes the fault record and nothing else (R341). -/
theorem raise_haltedBy (s : State) (w : Word) (k : Cause) (i : Word) : HaltedBy w k i s (s.raise w k i) := by
  refine ⟨rfl, rfl, rfl, rfl, fun _ _ => rfl, ?_, ?_, ?_, fun _ => rfl⟩ <;>
    simp [SameControl, SameChannels, SameHostSide]

/-! ### Channels -/

/-- A channel number is an argument in 0..NCH-1 (R281). -/
theorem channel_eq_some {s : State} {r : Reg} {c : Nat} : s.channel r = some c ↔ s.sx r = c ∧ c < s.nch := by
  unfold State.channel
  split
  · next h => (constructor <;> intro e <;> simp_all); omega
  · next h =>
    constructor
    · intro e; cases e
    · rintro ⟨e, hc⟩; exact absurd ⟨by omega, by omega⟩ h

theorem channel_eq_none {s : State} {r : Reg} : s.channel r = none ↔ s.sx r < 0 ∨ (s.nch : Int) ≤ s.sx r := by
  unfold State.channel
  split <;> simp <;> omega

theorem slot_setSlot (s : State) (c d : Nat) (sl : Slot) (h : c < s.nch) :
    (s.setSlot c sl).slot d = if c = d then sl else s.slot d := by
  simp only [State.slot, setSlot_slots, List.getD_eq_getElem?_getD, List.getElem?_set]
  by_cases e : c = d
  · subst e; simp [show c < s.slots.length from h]
  · simp [e]

@[simp] theorem nch_setSlot (s : State) (c : Nat) (sl : Slot) : (s.setSlot c sl).nch = s.nch := by
  simp [State.nch]

@[simp] theorem nch_releaseSlot (s : State) (c : Nat) : (s.releaseSlot c).nch = s.nch := by simp [State.nch]

@[simp] theorem nch_releaseIfActive (s : State) (c : Nat) : (s.releaseIfActive c).nch = s.nch := by
  unfold State.releaseIfActive; split <;> simp

theorem slot_mem {s : State} {c : Nat} (h : c < s.nch) : s.slot c ∈ s.slots := by
  have h' : c < s.slots.length := h
  rw [State.slot, List.getD_eq_getElem?_getD, List.getElem?_eq_getElem h', Option.getD_some]
  exact List.getElem_mem h'

/-! ### The data port -/

/-- A byte read goes through or reports the address (R60). -/
theorem portRead_cases (s : State) (a : Nat) :
    (s.canAccess a .read = true ∧ s.portRead a = .ok (s.byteAt a)) ∨
      (s.canAccess a .read = false ∧ s.portRead a = .error (BitVec.ofNat 32 a)) := by
  unfold State.portRead
  cases s.canAccess a .read <;> simp

/-- A two-byte read, little-endian, reports the first byte that fails (R62). -/
theorem portRead2_cases (s : State) (a : Nat) :
    (s.canAccess a .read = true ∧ s.canAccess (a + 1) .read = true ∧
        s.portRead2 a = .ok (s.byteAt (a + 1) ++ s.byteAt a)) ∨
      (s.canAccess a .read = false ∧ s.portRead2 a = .error (BitVec.ofNat 32 a)) ∨
      (s.canAccess a .read = true ∧ s.canAccess (a + 1) .read = false ∧
        s.portRead2 a = .error (BitVec.ofNat 32 (a + 1))) := by
  unfold State.portRead2
  rcases portRead_cases s a with ⟨h, e⟩ | ⟨h, e⟩ <;> rcases portRead_cases s (a + 1) with ⟨h', e'⟩ | ⟨h', e'⟩ <;>
    simp [e, e', h, h']

theorem canAccess_lt {s : State} {a : Nat} {k : AccessKind} (h : s.canAccess a k = true) : a < 2 ^ 32 := by
  simp only [State.canAccess, Bool.and_eq_true, decide_eq_true_eq] at h; exact h.1

end Sys2Proof.Machine
end

