-- ==== Sys2Proof/Laws/Mixer.lean ====
section
/-! SUPPORT. What MIX_FRAME and a run of frames can do (44_mixer.md R290, R293), said once. -/

namespace Sys2Proof.Machine

/-- A slot after one frame that did not fail: an active one advances, an empty one stays. -/
def Slot.afterFrame (sl : Slot) : Slot := if sl.active then sl.advance else sl

/-- Whether a frame that does not fail releases the slot. -/
def Slot.releasedNow (sl : Slot) : Bool := sl.active && sl.finishes

@[simp] theorem advance_base (sl : Slot) : sl.advance.base = sl.base := rfl
@[simp] theorem advance_endAddr (sl : Slot) : sl.advance.endAddr = sl.endAddr := rfl
@[simp] theorem advance_srate (sl : Slot) : sl.advance.srate = sl.srate := rfl
@[simp] theorem advance_step (sl : Slot) : sl.advance.step = sl.step := rfl
@[simp] theorem advance_lvol (sl : Slot) : sl.advance.lvol = sl.lvol := rfl
@[simp] theorem advance_rvol (sl : Slot) : sl.advance.rvol = sl.rvol := rfl
@[simp] theorem advance_id (sl : Slot) : sl.advance.id = sl.id := rfl
@[simp] theorem advance_stime (sl : Slot) : sl.advance.stime = sl.stime := rfl
@[simp] theorem advance_cur (sl : Slot) :
    sl.advance.cur = if sl.finishes then 0 else BitVec.ofNat 32 sl.nextCursor := rfl
@[simp] theorem advance_rem (sl : Slot) :
    sl.advance.rem = BitVec.ofNat 16 (sl.rem.toNat + sl.step.toNat) := rfl

@[simp] theorem afterFrame_base (sl : Slot) : sl.afterFrame.base = sl.base := by
  unfold Slot.afterFrame; split <;> rfl

theorem active_eq_true {sl : Slot} : sl.active = true ↔ sl.cur ≠ 0 := by simp [Slot.active]
theorem active_eq_false {sl : Slot} : sl.active = false ↔ sl.cur = 0 := by simp [Slot.active]
@[simp] theorem zero_active : Slot.zero.active = false := rfl

@[simp] theorem afterFrame_zero : Slot.zero.afterFrame = Slot.zero := rfl
@[simp] theorem releasedNow_zero : Slot.zero.releasedNow = false := rfl

/-- A frame changes CUR and REM of a slot and nothing else. -/
theorem afterFrame_eq (sl : Slot) :
    sl.afterFrame = { sl with cur := sl.afterFrame.cur, rem := sl.afterFrame.rem } := by
  unfold Slot.afterFrame; split <;> rfl

/-- A cursor that has not reached END is a nonzero word, so a slot that is not released stays active. -/
theorem active_advance {sl : Slot} (ha : sl.active = true) :
    sl.advance.active = !sl.finishes := by
  rcases hf : sl.finishes with _ | _
  · rw [Bool.not_false, active_eq_true, advance_cur, hf]
    simp only [Slot.finishes, decide_eq_false_iff_not, not_le] at hf
    have hc : sl.cur ≠ 0 := active_eq_true.1 ha
    have h0 : sl.cur.toNat ≠ 0 := fun h => hc (BitVec.eq_of_toNat_eq h)
    intro h
    have := congrArg BitVec.toNat h
    simp only [Bool.false_eq_true, if_false, BitVec.toNat_ofNat, BitVec.ofNat_eq_ofNat] at this
    have := sl.endAddr.isLt
    unfold Slot.nextCursor at *
    omega
  · rw [Bool.not_true, active_eq_false, advance_cur, hf]; rfl

/-- The cursor of an active slot that is not released, as a number. -/
theorem advance_cur_toNat {sl : Slot} (hf : sl.finishes = false) : sl.advance.cur.toNat = sl.nextCursor := by
  rw [advance_cur, hf]
  simp only [Slot.finishes, decide_eq_false_iff_not, not_le] at hf
  have := sl.endAddr.isLt
  simp only [Bool.false_eq_true, if_false, BitVec.toNat_ofNat]
  omega

/-- MSTART's length and address checks as inequalities (R281). -/
theorem playable_eq_true {s : State} {r : Reg} :
    (s.startArgs r).playable = true ↔
      8 < s.sx (r + 3) ∧ ((s.x (r + 2)).toNat : Int) + s.sx (r + 3) - 1 ≤ 0xFFFFFFFF := by
  unfold StartArgs.playable
  rw [Bool.and_eq_true, decide_eq_true_eq, decide_eq_true_eq]
  simp only [State.startArgs]
  omega

/-- The address of the second byte of a sample, clamped at END (R291). -/
def Slot.nextByte (sl : Slot) : Nat := sl.byteAfter sl.cur.toNat

/-- A sample is the interpolation of its two bytes, or the first of them that is not admitted (R290). -/
theorem sampleOf_cases (s : State) (sl : Slot) :
    (s.canAccess sl.cur.toNat .read = true ∧ s.canAccess sl.nextByte .read = true ∧
        s.sampleOf sl = .ok (((s.byteAt sl.cur.toNat).toNat * (65536 - sl.rem.toNat) +
          (s.byteAt sl.nextByte).toNat * sl.rem.toNat) / 65536)) ∨
      (s.canAccess sl.cur.toNat .read = false ∧ s.sampleOf sl = .error (BitVec.ofNat 32 sl.cur.toNat)) ∨
      (s.canAccess sl.cur.toNat .read = true ∧ s.canAccess sl.nextByte .read = false ∧
        s.sampleOf sl = .error (BitVec.ofNat 32 sl.nextByte)) := by
  have unfolded : s.sampleOf sl = match s.portRead sl.cur.toNat with
      | .error e => .error e
      | .ok s0 =>
        match s.portRead sl.nextByte with
        | .error e => .error e
        | .ok s1 => .ok ((s0.toNat * (65536 - sl.rem.toNat) + s1.toNat * sl.rem.toNat) >>> 16) := rfl
  rcases portRead_cases s sl.cur.toNat with ⟨h, e⟩ | ⟨h, e⟩ <;>
    rcases portRead_cases s sl.nextByte with ⟨h', e'⟩ | ⟨h', e'⟩ <;>
    simp only [unfolded, e, e', h, h', Nat.shiftRight_eq_div_pow] <;> simp

/-- The first of some byte accesses that is not admitted, as BUS_ERROR's information word (R340, R344). -/
def State.firstRefused (s : State) (l : List (Nat × AccessKind)) : Option Word :=
  (l.find? fun b => !s.canAccess b.1 b.2).map fun b => BitVec.ofNat 32 b.1

@[simp] theorem firstRefused_nil (s : State) : s.firstRefused [] = none := rfl

theorem firstRefused_cons (s : State) (b : Nat × AccessKind) (l : List (Nat × AccessKind)) :
    s.firstRefused (b :: l) = if s.canAccess b.1 b.2 then s.firstRefused l else some (BitVec.ofNat 32 b.1) := by
  unfold State.firstRefused
  cases h : s.canAccess b.1 b.2 <;> simp [h]

theorem firstRefused_append (s : State) (l m : List (Nat × AccessKind)) :
    s.firstRefused (l ++ m) = (s.firstRefused l).or (s.firstRefused m) := by
  unfold State.firstRefused
  rw [List.find?_append, Option.map_or]

/-- Nothing is refused exactly when every access is admitted. -/
theorem firstRefused_eq_none {s : State} {l : List (Nat × AccessKind)} :
    s.firstRefused l = none ↔ ∀ b ∈ l, s.canAccess b.1 b.2 = true := by
  simp [State.firstRefused]

/-- A part that answers had none of its accesses refused. -/
theorem none_of_ok {α : Type} {x : Except Word α} {v : α} {refused : Option Word}
    (h : ∀ e, x = .error e ↔ refused = some e) (hx : x = .ok v) : refused = none := by
  cases refused with
  | none => rfl
  | some e => rw [(h e).2 rfl] at hx; cases hx

/-- A two-byte read fails with the first of its bytes that is refused (R62). -/
theorem portRead2_error {s : State} {a : Nat} {e : Word} :
    s.portRead2 a = .error e ↔ s.firstRefused [(a, .read), (a + 1, .read)] = some e := by
  rcases portRead2_cases s a with ⟨h, h', eq⟩ | ⟨h, eq⟩ | ⟨h, h', eq⟩ <;> simp_all [firstRefused_cons]

/-- A sample fails with the first of its two bytes that is refused (R290). -/
theorem sampleOf_error {s : State} {sl : Slot} {e : Word} :
    s.sampleOf sl = .error e ↔ s.firstRefused [(sl.cur.toNat, .read), (sl.nextByte, .read)] = some e := by
  rcases sampleOf_cases s sl with ⟨h, h', eq⟩ | ⟨h, eq⟩ | ⟨h, h', eq⟩ <;> simp_all [firstRefused_cons]

/-- The slot walk, if no byte fails: every slot after the frame. -/
theorem walkSlots_slots {s : State} {c : Nat} {slots : List Slot} {l r : Int} {w : Walk}
    (h : s.walkSlots c slots l r = .ok w) : w.slots = slots.map Slot.afterFrame := by
  induction slots generalizing c l r w with
  | nil => cases h; rfl
  | cons sl rest ih =>
    unfold State.walkSlots at h
    split at h
    · next ha =>
      split at h
      · cases h
      · next w' hw => cases h; simp [Slot.afterFrame, ha, ih hw]
    · next ha =>
      split at h
      · cases h
      · split at h
        · cases h
        · next w' hw => cases h; simp [Slot.afterFrame, ha, ih hw]

/-- The slot walk, if no byte fails: a channel's events are its RELEASE if it finishes, and nothing else. -/
theorem walkSlots_released {s : State} {c : Nat} {slots : List Slot} {l r : Int} {w : Walk}
    (h : s.walkSlots c slots l r = .ok w) (d : Nat) :
    w.released.filter (eventOf d) =
      if c ≤ d ∧ (slots.getD (d - c) Slot.zero).releasedNow = true then
        [.release d (slots.getD (d - c) Slot.zero).base] else [] := by
  induction slots generalizing c l r w with
  | nil => cases h; simp
  | cons sl rest ih =>
    have rec' : ∀ {l r w'}, s.walkSlots (c + 1) rest l r = .ok w' → ∀ b : Bool, b = sl.releasedNow →
        (if b then Event.release c sl.base :: w'.released else w'.released).filter (eventOf d) =
          if c ≤ d ∧ ((sl :: rest).getD (d - c) Slot.zero).releasedNow = true then
            [.release d ((sl :: rest).getD (d - c) Slot.zero).base] else [] := by
      intro l r w' hw b hb
      have ih := ih hw
      rcases Nat.lt_trichotomy c d with hlt | rfl | hgt
      · obtain ⟨k, rfl⟩ := Nat.exists_eq_add_of_lt hlt
        have e1 : c + k + 1 - (c + 1) = k := by omega
        have e2 : c + k + 1 - c = k + 1 := by omega
        rw [e1] at ih
        rw [e2, List.getD_cons_succ]
        have h1 : c + 1 ≤ c + k + 1 := by omega
        have h2 : c ≤ c + k + 1 := by omega
        have h3 : eventOf (c + k + 1) (.release c sl.base) = false := by simp [eventOf]; omega
        simp only [h1, h2, true_and] at ih ⊢
        cases b <;> simp [h3, ih]
      · have h1 : ¬ c + 1 ≤ c := by omega
        simp only [h1, false_and, if_false] at ih
        have h3 : eventOf c (.release c sl.base) = true := by simp [eventOf]
        cases b <;> simp [h3, ih, ← hb]
      · have h1 : ¬ c + 1 ≤ d := by omega
        have h2 : ¬ c ≤ d := by omega
        simp only [h1, false_and, if_false] at ih
        have h3 : eventOf d (.release c sl.base) = false := by simp [eventOf]; omega
        cases b <;> simp [h3, ih, h2]
    unfold State.walkSlots at h
    split at h
    · next ha =>
      split at h
      · cases h
      · next w' hw =>
        cases h
        exact rec' hw false (by simp [Slot.releasedNow, ha])
    · next ha =>
      split at h
      · cases h
      · split at h
        · cases h
        · next w' hw =>
          cases h
          exact rec' hw sl.finishes (by simp [Slot.releasedNow, ha])

/-- No output byte is refused exactly when the four bytes are admitted for write. -/
theorem outputRefused_eq_none {s : State} {o : Nat} :
    s.outputRefused o = none ↔ ∀ k < 4, s.canAccess (o + k) .write = true := by
  simp only [State.outputRefused, Option.map_eq_none_iff, List.find?_eq_none, List.mem_cons, List.not_mem_nil,
    or_false, forall_eq_or_imp, forall_eq, Bool.not_eq_true', Bool.not_eq_false]
  constructor
  · rintro ⟨h0, h1, h2, h3⟩ k hk
    rcases (by omega : k = 0 ∨ k = 1 ∨ k = 2 ∨ k = 3) with rfl | rfl | rfl | rfl <;> assumption
  · intro h
    exact ⟨h 0 (by omega), h 1 (by omega), h 2 (by omega), h 3 (by omega)⟩

/-- Without MIX_ADD_EXISTING the accumulators start at 0 (R290). -/
theorem startAcc_zero {s : State} (h : s.params.mixAddExisting = false) (o : Nat) : s.startAcc o = .ok (0, 0) := by
  simp [State.startAcc, h]

/-- A frame whose three parts go through does not fail. -/
theorem mixFrame_of_ok {s : State} {o : Nat} {l r : Int} {w : Walk} (ho : s.outputRefused o = none)
    (hl : s.startAcc o = .ok (l, r)) (hw : s.walkSlots 0 s.slots l r = .ok w) :
    s.mixFrame o = .ok (({ s with slots := w.slots, events := s.events ++ w.released }.portWrite2 o
      (BitVec.ofInt 16 (sat16 w.accL))).portWrite2 (o + 2) (BitVec.ofInt 16 (sat16 w.accR))) := by
  simp only [State.mixFrame, ho, hl, hw]

/-- A frame that does not fail, as a whole. -/
theorem mixFrame_ok {s t : State} {o : Nat} (h : s.mixFrame o = .ok t) :
    ∃ l r w, s.outputRefused o = none ∧ s.startAcc o = .ok (l, r) ∧ s.walkSlots 0 s.slots l r = .ok w ∧
      t = ({ s with slots := w.slots, events := s.events ++ w.released }.portWrite2 o
          (BitVec.ofInt 16 (sat16 w.accL))).portWrite2 (o + 2) (BitVec.ofInt 16 (sat16 w.accR)) := by
  unfold State.mixFrame at h
  split at h
  · cases h
  · next ho =>
    split at h
    · cases h
    · next l r hl =>
      split at h
      · cases h
      · next w hw => cases h; exact ⟨l, r, w, ho, hl, hw, rfl⟩

/-- The slot walk fails with the first sample byte of an active slot that is refused (R344). -/
theorem walkSlots_error {s : State} {c : Nat} {slots : List Slot} {l r : Int} {e : Word} :
    s.walkSlots c slots l r = .error e ↔
      s.firstRefused ((slots.filter Slot.active).flatMap fun sl =>
        [(sl.cur.toNat, .read), (sl.nextByte, .read)]) = some e := by
  induction slots generalizing c l r with
  | nil => simp [State.walkSlots]
  | cons sl rest ih =>
    unfold State.walkSlots
    split
    · next ha =>
      rw [List.filter_cons_of_neg (by simp [ha]), ← ih (c := c + 1) (l := l) (r := r)]
      split <;> simp_all
    · next ha =>
      rw [List.filter_cons_of_pos (by simpa using ha), List.flatMap_cons, firstRefused_append]
      split
      · next e' he => rw [sampleOf_error.1 he]; simp
      · next smp hs =>
        rw [none_of_ok (fun _ => sampleOf_error) hs, Option.none_or, ← ih (c := c + 1) (l := l + volEntry s.params.volDiv sl.lvol smp)
          (r := r + volEntry s.params.volDiv sl.rvol smp)]
        split <;> simp_all

/-- The accumulators' start fails with the first output byte that is refused for read (R290, R344). -/
theorem startAcc_error {s : State} {o : Nat} {e : Word} :
    s.startAcc o = .error e ↔
      s.firstRefused (if s.params.mixAddExisting then
        [(o, .read), (o + 1, .read), (o + 2, .read), (o + 3, .read)] else []) = some e := by
  unfold State.startAcc
  split
  · have split2 : ([(o, .read), (o + 1, .read), (o + 2, .read), (o + 3, .read)] : List (Nat × AccessKind)) =
        [(o, .read), (o + 1, .read)] ++ [(o + 2, .read), (o + 2 + 1, .read)] := rfl
    rw [split2, firstRefused_append]
    split
    · next e' he => rw [portRead2_error.1 he]; simp
    · next v hv =>
      rw [none_of_ok (fun _ => portRead2_error) hv, Option.none_or, ← portRead2_error]
      split <;> simp_all
  · simp

/-- A frame fails exactly with the first of its accesses that is refused, in R344's order. -/
theorem mixFrame_error {s : State} {o : Nat} {e : Word} :
    s.mixFrame o = .error e ↔ s.firstRefused (s.frameAccesses o) = some e := by
  have out : s.outputRefused o =
      s.firstRefused [(o, .write), (o + 1, .write), (o + 2, .write), (o + 3, .write)] := by
    simp only [State.outputRefused, firstRefused_cons, firstRefused_nil, List.find?_cons]
    cases s.canAccess o .write <;> cases s.canAccess (o + 1) .write <;> cases s.canAccess (o + 2) .write <;>
      cases s.canAccess (o + 3) .write <;> rfl
  rw [State.frameAccesses, firstRefused_append, firstRefused_append, ← out]
  unfold State.mixFrame
  cases s.outputRefused o with
  | some e' => simp
  | none =>
    rw [Option.none_or]
    cases hs : s.startAcc o with
    | error e' => rw [startAcc_error.1 hs]; simp
    | ok p =>
      obtain ⟨l, r⟩ := p
      rw [none_of_ok (fun _ => startAcc_error) hs, Option.none_or]
      change _ ↔ s.firstRefused ((s.slots.filter Slot.active).flatMap fun sl =>
        [(sl.cur.toNat, .read), (sl.nextByte, .read)]) = some e
      rw [← walkSlots_error (c := 0) (l := l) (r := r)]
      dsimp only
      split <;> simp_all

/-- A frame whose accesses are all admitted does not fail. -/
theorem mixFrame_completes {s : State} {o : Nat} (h : ∀ b ∈ s.frameAccesses o, s.canAccess b.1 b.2 = true) :
    ∃ t, s.mixFrame o = .ok t := by
  cases hm : s.mixFrame o with
  | ok t => exact ⟨t, rfl⟩
  | error e => rw [mixFrame_error, firstRefused_eq_none.2 h] at hm; cases hm

/-- What a frame that does not fail can change, and what it does to every slot. -/
theorem mixFrame_frame {s t : State} {o : Nat} (h : s.mixFrame o = .ok t) :
    t = { s with slots := t.slots, events := t.events, mem := t.mem } ∧
      t.slots = s.slots.map Slot.afterFrame ∧ SameBytesOutside o 4 s t ∧
      (∃ new, t.events = s.events ++ new ∧ ∀ d, new.filter (eventOf d) =
        if (s.slot d).releasedNow = true then [.release d (s.slot d).base] else []) ∧
      (Memory.wf s.mem = true → Memory.wf t.mem = true) := by
  obtain ⟨l, r, w, ho, hl, hw, rfl⟩ := mixFrame_ok h
  refine ⟨rfl, by simp [walkSlots_slots hw], ?_, ⟨w.released, rfl, ?_⟩, ?_⟩
  · intro b hb
    rw [byteAt_portWrite2, byteAt_portWrite2]
    rw [if_neg (by omega), if_neg (by omega), if_neg (by omega), if_neg (by omega)]
    rfl
  · intro d
    have := walkSlots_released hw d
    simpa [State.slot] using this
  · intro hm
    have hlt : ∀ k < 4, o + k < 2 ^ 32 := by
      intro k hk
      have := outputRefused_eq_none.1 ho k hk
      simp only [State.canAccess, Bool.and_eq_true, decide_eq_true_eq] at this
      exact this.1
    simp only [portWrite2_mem]
    exact Memory.wf_put (Memory.wf_put (Memory.wf_put (Memory.wf_put hm (hlt 0 (by omega)) _) (hlt 1 (by omega)) _)
      (hlt 2 (by omega)) _) (hlt 3 (by omega)) _

/-- Frames one by one: what every frame keeps, and every frame before the failing one, the run of frames keeps. -/
theorem mixFrames_induct {P : Nat → State → Prop} {n o : Nat} {s t : State} {e : Option Word}
    (h : State.mixFrames n o s = (t, e)) (h0 : P 0 s)
    (hs : ∀ k u v, k < n → P k u → u.mixFrame (o + 4 * k) = .ok v → P (k + 1) v) :
    ∃ k ≤ n, P k t ∧ (e = none → k = n) ∧ (∀ a, e = some a → k < n ∧ t.mixFrame (o + 4 * k) = .error a) := by
  induction n generalizing o s P with
  | zero => cases h; exact ⟨0, le_refl _, h0, fun _ => rfl, fun _ h => by cases h⟩
  | succ n ih =>
    unfold State.mixFrames at h
    split at h
    · next a ha =>
      cases h
      refine ⟨0, by omega, h0, (by simp), ?_⟩
      intro b hb; cases hb; exact ⟨by omega, ha⟩
    · next u hu =>
      have step1 := hs 0 s u (by omega) h0 hu
      obtain ⟨k, hk, hP, hn, he⟩ := ih (P := fun k u => P (k + 1) u) h step1
        fun k u v hk hp hm => hs (k + 1) u v (by omega) hp (by rwa [show o + 4 * (k + 1) = o + 4 + 4 * k by ring])
      refine ⟨k + 1, by omega, hP, fun h => by rw [hn h], fun a ha => ?_⟩
      obtain ⟨h1, h2⟩ := he a ha
      exact ⟨by omega, by rwa [show o + 4 * (k + 1) = o + 4 + 4 * k by ring]⟩

/-- The frame count of MMIX is the floor of the byte length over 4, and 0 for a negative length (R286). -/
theorem frameCount_eq (n : Int) : frameCount n = (n / 4).toNat := by
  unfold frameCount
  split
  · rw [shr_eq]; rfl
  · omega

/-- MMIX is its run of frames, then the fault of the failing one if any. -/
theorem execMmix_cases {rs1 rs2 : Reg} {s t : State} (h : execMmix rs1 rs2 s = .next t) :
    ∃ u e, State.mixFrames (s.sx rs2 / 4).toNat (s.x rs1).toNat s = (u, e) ∧
      ((e = none ∧ t = u) ∨ ∃ a, e = some a ∧ t = u.raise (encode (.mmix rs1 rs2)) .busError a) := by
  unfold execMmix at h
  rw [frameCount_eq] at h
  split at h
  · next u hu => cases h; exact ⟨t, none, hu, .inl ⟨rfl, rfl⟩⟩
  · next u a hu => cases h; exact ⟨u, some a, hu, .inr ⟨a, rfl, rfl⟩⟩

end Sys2Proof.Machine
end

