-- ==== Sys2Proof/Laws/Exec.lean ====
section
/-! SUPPORT. What a command can do, said once over all forty: the shapes of its next state. -/

namespace Sys2Proof.Machine

/-- Slot `c` after the release of slot `d`: as before, or with CUR 0 (R261). -/
theorem slot_releaseIfActive (s : State) (c d : Nat) (h : c < s.nch) :
    (s.releaseIfActive c).slot d = if c = d then { s.slot c with cur := 0 } else s.slot d := by
  unfold State.releaseIfActive
  split
  · exact slot_setSlot s c d { s.slot c with cur := 0 } h
  · next ha =>
    split
    · next e =>
      subst e
      have h0 : (s.slot c).cur = 0 := active_eq_false.1 (by simpa using ha)
      rw [← h0]
    · rfl

/-- The events of one release. -/
theorem events_releaseIfActive (s : State) (c : Nat) :
    (s.releaseIfActive c).events = s.events ++ if (s.slot c).active then [.release c (s.slot c).base] else [] := by
  unfold State.releaseIfActive
  split <;> simp

/-- What MINIT releases: of every channel its event if it is active, and nothing else (R280). -/
theorem releasesFrom_filter (slots : List Slot) (c d : Nat) :
    (releasesFrom c slots).filter (eventOf d) =
      if c ≤ d ∧ (slots.getD (d - c) Slot.zero).active = true then
        [.release d (slots.getD (d - c) Slot.zero).base] else [] := by
  induction slots generalizing c with
  | nil => simp [releasesFrom]
  | cons sl rest ih =>
    have ih := ih (c + 1)
    have first : releasesFrom c (sl :: rest) =
        if sl.active then .release c sl.base :: releasesFrom (c + 1) rest else releasesFrom (c + 1) rest := rfl
    rw [first]
    rcases Nat.lt_trichotomy c d with hlt | rfl | hgt
    · obtain ⟨k, rfl⟩ := Nat.exists_eq_add_of_lt hlt
      rw [show c + k + 1 - (c + 1) = k by omega] at ih
      rw [show c + k + 1 - c = k + 1 by omega, List.getD_cons_succ]
      have h1 : c + 1 ≤ c + k + 1 := by omega
      have h2 : c ≤ c + k + 1 := by omega
      have h3 : eventOf (c + k + 1) (.release c sl.base) = false := by simp [eventOf]; omega
      simp only [h1, h2, true_and] at ih ⊢
      cases sl.active <;> simp [h3, ih]
    · have h1 : ¬c + 1 ≤ c := by omega
      simp only [h1, false_and, if_false] at ih
      have h3 : eventOf c (.release c sl.base) = true := by simp [eventOf]
      cases h : sl.active <;> simp [h3, ih, h]
    · have h1 : ¬c + 1 ≤ d := by omega
      have h2 : ¬c ≤ d := by omega
      simp only [h1, false_and, if_false] at ih
      have h3 : eventOf d (.release c sl.base) = false := by simp [eventOf]; omega
      cases sl.active <;> simp [h3, ih, h2]

/-- A run of frames, failed or not: only slots, events and memory change; some number of frames committed, all of them
if none failed; every slot has gone through that many frames, and has one RELEASE if and only if it stopped. -/
theorem mixFrames_frame {n o : Nat} {s t : State} {e : Option Word} (h : State.mixFrames n o s = (t, e)) :
    t = { s with slots := t.slots, events := t.events, mem := t.mem } ∧ t.nch = s.nch ∧
      (Memory.wf s.mem = true → Memory.wf t.mem = true) ∧ SameBytesOutside o (4 * n) s t ∧
      ∃ k ≤ n, (e = none → k = n) ∧ (∀ c, t.slot c = Slot.afterFrame^[k] (s.slot c)) ∧
        ∃ new, t.events = s.events ++ new ∧ ∀ c,
          (new.filter (eventOf c) = [] ∧ (s.slot c).active = (t.slot c).active) ∨
            ((s.slot c).active = true ∧ (t.slot c).active = false ∧
              new.filter (eventOf c) = [.release c (s.slot c).base]) := by
  have run := mixFrames_induct (P := fun k u =>
    u = { s with slots := u.slots, events := u.events, mem := u.mem } ∧ u.nch = s.nch ∧
      (Memory.wf s.mem = true → Memory.wf u.mem = true) ∧ SameBytesOutside o (4 * n) s u ∧
      (∀ c, u.slot c = Slot.afterFrame^[k] (s.slot c)) ∧ (∀ c, (u.slot c).base = (s.slot c).base) ∧
      ∃ new, u.events = s.events ++ new ∧ ∀ c,
        (new.filter (eventOf c) = [] ∧ (s.slot c).active = (u.slot c).active) ∨
          ((s.slot c).active = true ∧ (u.slot c).active = false ∧
            new.filter (eventOf c) = [.release c (s.slot c).base])) h
    ⟨rfl, rfl, id, fun _ _ => rfl, fun _ => rfl, fun _ => rfl, [], by simp, by simp⟩ ?_
  · obtain ⟨k, hk, ⟨h1, h2, h3, h4, h5, _, new, h6, h7⟩, h8, _⟩ := run
    exact ⟨h1, h2, h3, h4, k, hk, h8, h5, new, h6, h7⟩
  · rintro k u v hk ⟨h1, h2, h3, hm, h4, hb, new, h5, h6⟩ hf
    obtain ⟨f1, f2, f3, ⟨new', f4, f5⟩, f6⟩ := mixFrame_frame hf
    have hsl : ∀ c, v.slot c = (u.slot c).afterFrame := by
      intro c
      simp only [State.slot, f2]
      rw [← afterFrame_zero, List.getD_map, afterFrame_zero]
    refine ⟨?_, ?_, fun h => f6 (h3 h), fun b hb => ?_, ?_, fun c => by rw [hsl, afterFrame_base, hb], new ++ new',
      by rw [f4, h5, List.append_assoc], fun c => ?_⟩
    · rw [f1]; simp only; conv_lhs => rw [h1]
    · simp only [State.nch, f2, List.length_map] at h2 ⊢; exact h2
    · rw [f3 b (by omega), hm b hb]
    · intro c; rw [hsl, h4, Function.iterate_succ_apply']
    · rw [List.filter_append, f5]
      rcases h6 c with ⟨a1, a2⟩ | ⟨a1, a2, a3⟩
      · rcases hr : (u.slot c).releasedNow with _ | _
        · left
          refine ⟨by simp [a1], ?_⟩
          rw [hsl, a2]
          unfold Slot.afterFrame
          split
          · next ha =>
            simp only [Slot.releasedNow, ha, Bool.true_and] at hr
            rw [active_advance ha, ha, hr]; rfl
          · rfl
        · right
          simp only [Slot.releasedNow, Bool.and_eq_true] at hr
          refine ⟨by rw [a2, hr.1], ?_, by simp [a1, hb]⟩
          rw [hsl, Slot.afterFrame, if_pos hr.1, active_advance hr.1, hr.2]; rfl
      · right
        refine ⟨a1, ?_, ?_⟩
        · rw [hsl, Slot.afterFrame]; simp [a2]
        · simp [a3, Slot.releasedNow, a2]

/-- Every next state of a command: registers, TICK and CONFIG alone (the last two only by CSRW), or what MINIT, MSTART,
MUPDATE, MSTOP and MMIX do besides, their faults included. -/
theorem exec_cases {i : Instr} {s t : State} (h : exec i s = .next t) :
    (t = { s with regs := t.regs, tick := t.tick, pitched := t.pitched } ∧
        ((∀ c rs1, i ≠ .csrw c rs1) → t.tick = s.tick ∧ t.pitched = s.pitched)) ∨
      (∃ rd rs1, i = .minit rd rs1 ∧ 1 ≤ (s.x rs1).toNat ∧ (s.x rs1).toNat ≤ 65535 ∧
        t = (s.initMixer (s.x rs1)).put rd 0) ∨
      (∃ rd rs1, i = .mstart rd rs1 ∧
        ((∃ ch srate lv rv, s.channel rs1 = some ch ∧ (s.startArgs rs1).playable = true ∧
            t = ((s.releaseIfActive ch).setSlot ch (s.newSlot (s.startArgs rs1) srate lv rv)).put rd ch) ∨
          ∃ k e, (k = .busError ∨ k = .volumeRange) ∧ t = s.raise (encode i) k e)) ∨
      (∃ rd rs1, i = .mupdate rd rs1 ∧
        ((∃ ch st lv rv, s.channel rs1 = some ch ∧
            t = (s.setSlot ch { s.slot ch with step := st, lvol := lv, rvol := rv }).put rd 0) ∨
          ∃ e, t = s.raise (encode i) .volumeRange e)) ∨
      (∃ rs1 ch, i = .mstop rs1 ∧ s.channel rs1 = some ch ∧ t = s.releaseIfActive ch) ∨
      (∃ rs1 rs2 u e, i = .mmix rs1 rs2 ∧
        State.mixFrames (s.sx rs2 / 4).toNat (s.x rs1).toNat s = (u, e) ∧
        ((e = none ∧ t = u) ∨ ∃ a, e = some a ∧ t = u.raise (encode i) .busError a)) := by
  have vector : ∀ (rd : Reg) (v : Vec3), (.next t : Result) = .next (s.putVec rd v) →
      t = { s with regs := t.regs, tick := t.tick, pitched := t.pitched } ∧
        ((∀ c rs1, i ≠ .csrw c rs1) → t.tick = s.tick ∧ t.pitched = s.pitched) := by
    intro rd v e
    injection e with e
    subst e
    exact ⟨put3_regs_only s rd v.x v.y v.z, fun _ => ⟨rfl, rfl⟩⟩
  cases i
  case minit rd rs1 =>
    simp only [exec, execMinit] at h
    split at h
    · cases h; exact .inl ⟨rfl, fun _ => ⟨rfl, rfl⟩⟩
    · cases h; right; left; exact ⟨rd, rs1, rfl, by omega, by omega, rfl⟩
  case mstart rd rs1 =>
    simp only [exec, execMstart] at h
    split at h
    · cases h; exact .inl ⟨rfl, fun _ => ⟨rfl, rfl⟩⟩
    · next ch hch =>
      split at h
      · cases h; exact .inl ⟨rfl, fun _ => ⟨rfl, rfl⟩⟩
      · next hp =>
        right; right; left
        refine ⟨rd, rs1, rfl, ?_⟩
        split at h
        · cases h; exact .inr ⟨_, _, .inl rfl, rfl⟩
        · split at h
          · cases h; exact .inr ⟨_, _, .inr rfl, rfl⟩
          · cases h; exact .inl ⟨_, _, _, _, hch, by simpa using hp, rfl⟩
  case mupdate rd rs1 =>
    simp only [exec, execMupdate] at h
    split at h
    · cases h; exact .inl ⟨rfl, fun _ => ⟨rfl, rfl⟩⟩
    · next ch hch =>
      right; right; right; left
      refine ⟨rd, rs1, rfl, ?_⟩
      split at h
      · cases h; exact .inr ⟨_, rfl⟩
      · cases h; exact .inl ⟨_, _, _, _, hch, rfl⟩
  case mstop rs1 =>
    simp only [exec, execMstop] at h
    split at h
    · cases h; exact .inl ⟨rfl, fun _ => ⟨rfl, rfl⟩⟩
    · next ch hch =>
      cases h; right; right; right; right; left; exact ⟨rs1, ch, rfl, hch, rfl⟩
  case mmix rs1 rs2 =>
    obtain ⟨u, e, hm, hu⟩ := execMmix_cases h
    right; right; right; right; right; exact ⟨rs1, rs2, u, e, rfl, hm, hu⟩
  case csrw c rs1 =>
    cases h; left; exact ⟨by cases c <;> rfl, fun h => absurd rfl (h _ _)⟩
  case minfo rd rs1 =>
    simp only [exec, execMinfo] at h
    split at h <;> (cases h; exact .inl ⟨rfl, fun _ => ⟨rfl, rfl⟩⟩)
  case mquery rd rs1 =>
    simp only [exec, execMquery] at h
    split at h <;> (cases h; exact .inl ⟨rfl, fun _ => ⟨rfl, rfl⟩⟩)
  case vadd rd rs1 rs2 => exact .inl (vector rd _ (by rw [← h]; rfl))
  case vsub rd rs1 rs2 => exact .inl (vector rd _ (by rw [← h]; rfl))
  case vscale rd rs1 rs2 => exact .inl (vector rd _ (by rw [← h]; rfl))
  case vcross rd rs1 rs2 => exact .inl (vector rd _ (by rw [← h]; rfl))
  case vnorm rd rs1 => exact .inl (vector rd _ (by rw [← h]; rfl))
  all_goals (cases h; exact .inl ⟨rfl, fun _ => ⟨rfl, rfl⟩⟩)

end Sys2Proof.Machine
end

