-- ==== Sys2Proof/Laws/PerInstr.lean ====
section
/-! SUPPORT. Statements proved once per constructor of Instr. -/

namespace Sys2Proof.Laws

theorem command_encR {opc imm8 : Nat} (rd rs1 rs2 : Reg) (ho : opc < 256) (hi : imm8 < 256) (i : Instr)
    (h : ∀ w, opcField w = opc → rdField w = rd → rs1Field w = rs1 → rs2Field w = rs2 →
      imm8Field w = BitVec.ofNat 8 imm8 → commandOf w = some i) :
    commandOf (encR opc rd rs1 rs2 imm8) = some i := by
  obtain ⟨a, b, c, d, e⟩ := fields_encR (opc := opc) (imm8 := imm8) rd rs1 rs2 ho hi
  exact h _ a b c d e

/-- The encoded word carries the opcode and every operand of the command: reading its fields gives the command back,
whether or not its operands are within the limits of R98 and R99. -/
def FieldsOfEncode.Statement (i : Instr) : Prop := commandOf (encode i) = some i

theorem FieldsOfEncode.sincos (rd rs1 : Reg) (acc : Byte) : Statement (.sincos rd rs1 acc) :=
  command_encR rd rs1 0 (by decide) acc.isLt _ fun _ o d a _ i => by simp [commandOf, o, d, a, i]

theorem FieldsOfEncode.tan (rd rs1 : Reg) : Statement (.tan rd rs1) :=
  command_encR rd rs1 0 (by decide) (by decide) _ fun _ o d a _ _ => by simp [commandOf, o, d, a]

theorem FieldsOfEncode.asin (rd rs1 : Reg) : Statement (.asin rd rs1) :=
  command_encR rd rs1 0 (by decide) (by decide) _ fun _ o d a _ _ => by simp [commandOf, o, d, a]

theorem FieldsOfEncode.acos (rd rs1 : Reg) : Statement (.acos rd rs1) :=
  command_encR rd rs1 0 (by decide) (by decide) _ fun _ o d a _ _ => by simp [commandOf, o, d, a]

theorem FieldsOfEncode.atan (rd rs1 : Reg) : Statement (.atan rd rs1) :=
  command_encR rd rs1 0 (by decide) (by decide) _ fun _ o d a _ _ => by simp [commandOf, o, d, a]

theorem FieldsOfEncode.atan2 (rd rs1 rs2 : Reg) : Statement (.atan2 rd rs1 rs2) :=
  command_encR rd rs1 rs2 (by decide) (by decide) _ fun _ o d a b _ => by simp [commandOf, o, d, a, b]

theorem FieldsOfEncode.pow (rd rs1 rs2 : Reg) : Statement (.pow rd rs1 rs2) :=
  command_encR rd rs1 rs2 (by decide) (by decide) _ fun _ o d a b _ => by simp [commandOf, o, d, a, b]

theorem FieldsOfEncode.exp (rd rs1 : Reg) : Statement (.exp rd rs1) :=
  command_encR rd rs1 0 (by decide) (by decide) _ fun _ o d a _ _ => by simp [commandOf, o, d, a]

theorem FieldsOfEncode.log (rd rs1 rs2 : Reg) : Statement (.log rd rs1 rs2) :=
  command_encR rd rs1 rs2 (by decide) (by decide) _ fun _ o d a b _ => by simp [commandOf, o, d, a, b]

theorem FieldsOfEncode.pow2 (rd rs1 rs2 : Reg) : Statement (.pow2 rd rs1 rs2) :=
  command_encR rd rs1 rs2 (by decide) (by decide) _ fun _ o d a b _ => by simp [commandOf, o, d, a, b]

theorem FieldsOfEncode.log2 (rd rs1 : Reg) : Statement (.log2 rd rs1) :=
  command_encR rd rs1 0 (by decide) (by decide) _ fun _ o d a _ _ => by simp [commandOf, o, d, a]

theorem FieldsOfEncode.sqrt (rd rs1 : Reg) : Statement (.sqrt rd rs1) :=
  command_encR rd rs1 0 (by decide) (by decide) _ fun _ o d a _ _ => by simp [commandOf, o, d, a]

theorem FieldsOfEncode.sqrtq (rd rs1 : Reg) (q : Byte) : Statement (.sqrtq rd rs1 q) :=
  command_encR rd rs1 0 (by decide) q.isLt _ fun _ o d a _ i => by simp [commandOf, o, d, a, i]

theorem FieldsOfEncode.fadd (rd rs1 rs2 : Reg) : Statement (.fadd rd rs1 rs2) :=
  command_encR rd rs1 rs2 (by decide) (by decide) _ fun _ o d a b _ => by simp [commandOf, o, d, a, b]

theorem FieldsOfEncode.fsub (rd rs1 rs2 : Reg) : Statement (.fsub rd rs1 rs2) :=
  command_encR rd rs1 rs2 (by decide) (by decide) _ fun _ o d a b _ => by simp [commandOf, o, d, a, b]

theorem FieldsOfEncode.fmul (rd rs1 rs2 : Reg) : Statement (.fmul rd rs1 rs2) :=
  command_encR rd rs1 rs2 (by decide) (by decide) _ fun _ o d a b _ => by simp [commandOf, o, d, a, b]

theorem FieldsOfEncode.fdiv (rd rs1 rs2 : Reg) : Statement (.fdiv rd rs1 rs2) :=
  command_encR rd rs1 rs2 (by decide) (by decide) _ fun _ o d a b _ => by simp [commandOf, o, d, a, b]

theorem FieldsOfEncode.sadd16 (rd rs1 rs2 : Reg) : Statement (.sadd16 rd rs1 rs2) :=
  command_encR rd rs1 rs2 (by decide) (by decide) _ fun _ o d a b _ => by simp [commandOf, o, d, a, b]

theorem FieldsOfEncode.ssub16 (rd rs1 rs2 : Reg) : Statement (.ssub16 rd rs1 rs2) :=
  command_encR rd rs1 rs2 (by decide) (by decide) _ fun _ o d a b _ => by simp [commandOf, o, d, a, b]

theorem FieldsOfEncode.smul16 (rd rs1 rs2 : Reg) : Statement (.smul16 rd rs1 rs2) :=
  command_encR rd rs1 rs2 (by decide) (by decide) _ fun _ o d a b _ => by simp [commandOf, o, d, a, b]

theorem FieldsOfEncode.sat16 (rd rs1 : Reg) : Statement (.sat16 rd rs1) :=
  command_encR rd rs1 0 (by decide) (by decide) _ fun _ o d a _ _ => by simp [commandOf, o, d, a]

theorem FieldsOfEncode.vadd (rd rs1 rs2 : Reg) : Statement (.vadd rd rs1 rs2) :=
  command_encR rd rs1 rs2 (by decide) (by decide) _ fun _ o d a b _ => by simp [commandOf, o, d, a, b]

theorem FieldsOfEncode.vsub (rd rs1 rs2 : Reg) : Statement (.vsub rd rs1 rs2) :=
  command_encR rd rs1 rs2 (by decide) (by decide) _ fun _ o d a b _ => by simp [commandOf, o, d, a, b]

theorem FieldsOfEncode.vscale (rd rs1 rs2 : Reg) : Statement (.vscale rd rs1 rs2) :=
  command_encR rd rs1 rs2 (by decide) (by decide) _ fun _ o d a b _ => by simp [commandOf, o, d, a, b]

theorem FieldsOfEncode.vdot (rd rs1 rs2 : Reg) : Statement (.vdot rd rs1 rs2) :=
  command_encR rd rs1 rs2 (by decide) (by decide) _ fun _ o d a b _ => by simp [commandOf, o, d, a, b]

theorem FieldsOfEncode.vcross (rd rs1 rs2 : Reg) : Statement (.vcross rd rs1 rs2) :=
  command_encR rd rs1 rs2 (by decide) (by decide) _ fun _ o d a b _ => by simp [commandOf, o, d, a, b]

theorem FieldsOfEncode.vnorm (rd rs1 : Reg) : Statement (.vnorm rd rs1) :=
  command_encR rd rs1 0 (by decide) (by decide) _ fun _ o d a _ _ => by simp [commandOf, o, d, a]

theorem FieldsOfEncode.li (rd : Reg) (imm : Half) : Statement (.li rd imm) := by
  obtain ⟨o, d, i⟩ := fields_encI (opc := 0x30) rd imm (by decide)
  simp [Statement, encode, commandOf, o, d, i]

theorem FieldsOfEncode.lih (rd : Reg) (imm : Half) : Statement (.lih rd imm) := by
  obtain ⟨o, d, i⟩ := fields_encI (opc := 0x31) rd imm (by decide)
  simp [Statement, encode, commandOf, o, d, i]

theorem FieldsOfEncode.mov (rd rs1 : Reg) : Statement (.mov rd rs1) :=
  command_encR rd rs1 0 (by decide) (by decide) _ fun _ o d a _ _ => by simp [commandOf, o, d, a]

theorem FieldsOfEncode.csrr (rd : Reg) (csr : Csr) : Statement (.csrr rd csr) :=
  command_encR rd 0 0 (by decide) csr.number_lt _ fun w o d a b i => by
    have e : (imm8Field w).toNat = csr.number := by rw [i]; cases csr <;> rfl
    simp [commandOf, o, d, e, Csr.ofNumber_number]

theorem FieldsOfEncode.csrw (csr : Csr) (rs1 : Reg) : Statement (.csrw csr rs1) :=
  command_encR 0 rs1 0 (by decide) csr.number_lt _ fun w o d a b i => by
    have e : (imm8Field w).toNat = csr.number := by rw [i]; cases csr <;> rfl
    simp [commandOf, o, a, e, Csr.ofNumber_number]

theorem FieldsOfEncode.minit (rd rs1 : Reg) : Statement (.minit rd rs1) :=
  command_encR rd rs1 0 (by decide) (by decide) _ fun _ o d a _ _ => by simp [commandOf, o, d, a]

theorem FieldsOfEncode.mstart (rd rs1 : Reg) : Statement (.mstart rd rs1) :=
  command_encR rd rs1 0 (by decide) (by decide) _ fun _ o d a _ _ => by simp [commandOf, o, d, a]

theorem FieldsOfEncode.mupdate (rd rs1 : Reg) : Statement (.mupdate rd rs1) :=
  command_encR rd rs1 0 (by decide) (by decide) _ fun _ o d a _ _ => by simp [commandOf, o, d, a]

theorem FieldsOfEncode.mstop (rs1 : Reg) : Statement (.mstop rs1) :=
  command_encR 0 rs1 0 (by decide) (by decide) _ fun _ o _ a _ _ => by simp [commandOf, o, a]

theorem FieldsOfEncode.mquery (rd rs1 : Reg) : Statement (.mquery rd rs1) :=
  command_encR rd rs1 0 (by decide) (by decide) _ fun _ o d a _ _ => by simp [commandOf, o, d, a]

theorem FieldsOfEncode.many (rd : Reg) : Statement (.many rd) :=
  command_encR rd 0 0 (by decide) (by decide) _ fun _ o d _ _ _ => by simp [commandOf, o, d]

theorem FieldsOfEncode.mmix (rs1 rs2 : Reg) : Statement (.mmix rs1 rs2) :=
  command_encR 0 rs1 rs2 (by decide) (by decide) _ fun _ o _ a b _ => by simp [commandOf, o, a, b]

theorem FieldsOfEncode.minfo (rd rs1 : Reg) : Statement (.minfo rd rs1) :=
  command_encR rd rs1 0 (by decide) (by decide) _ fun _ o d a _ _ => by simp [commandOf, o, d, a]

end Sys2Proof.Laws
end

