-- ==== Sys2Proof/Tests/Slice0.lean ====
section
/-! SUPPORT. Tests: every expected value is one that spec/ prints (95_test_vectors.md, or the example or corner cases of
the command's own rule), and, for every statement with hypotheses, a state and operands that meet them. -/

set_option Elab.async false

open Sys2Proof Sys2Proof.Machine

namespace Sys2Proof.Tests

/-! ### Well-formedness: one ill-formed term for each check (R98, R99) -/

theorem test_wf_sincos_iterations : (Instr.sincos 2 1 31).wellFormed = false := by decide
theorem test_wf_sqrtq_factor : (Instr.sqrtq 2 1 32).wellFormed = false := by decide
theorem test_wf_sincos_pair : (Instr.sincos 15 1 0).wellFormed = false := by decide
theorem test_wf_log2_pair : (Instr.log2 15 1).wellFormed = false := by decide
theorem test_wf_vadd_groups : (Instr.vadd 14 0 0).wellFormed = false ∧ (Instr.vadd 0 14 0).wellFormed = false ∧
    (Instr.vadd 0 0 14).wellFormed = false := by decide
theorem test_wf_vsub_groups : (Instr.vsub 14 0 0).wellFormed = false ∧ (Instr.vsub 0 14 0).wellFormed = false ∧
    (Instr.vsub 0 0 14).wellFormed = false := by decide
theorem test_wf_vcross_groups : (Instr.vcross 14 0 0).wellFormed = false ∧
    (Instr.vcross 0 14 0).wellFormed = false ∧ (Instr.vcross 0 0 14).wellFormed = false := by decide
theorem test_wf_vscale_groups : (Instr.vscale 14 0 0).wellFormed = false ∧
    (Instr.vscale 0 14 0).wellFormed = false ∧ (Instr.vscale 13 13 14).wellFormed = true := by decide
theorem test_wf_vdot_groups : (Instr.vdot 0 14 0).wellFormed = false ∧ (Instr.vdot 0 0 14).wellFormed = false ∧
    (Instr.vdot 14 0 0).wellFormed = true := by decide
theorem test_wf_vnorm_groups : (Instr.vnorm 14 0).wellFormed = false ∧ (Instr.vnorm 0 14).wellFormed = false := by
  decide
theorem test_wf_mstart_group : (Instr.mstart 0 10).wellFormed = false := by decide
theorem test_wf_mupdate_group : (Instr.mupdate 0 13).wellFormed = false := by decide
theorem test_wf_minfo_group : (Instr.minfo 13 0).wellFormed = false := by decide

/-! ### Decoding: for every constructor a word that its rule prints -/

theorem test_decode_cordic : decode 0x01210000 = .ok (.sincos 2 1 0) ∧ decode 0x02210000 = .ok (.tan 2 1) ∧
    decode 0x03210000 = .ok (.asin 2 1) ∧ decode 0x04210000 = .ok (.acos 2 1) ∧
    decode 0x05210000 = .ok (.atan 2 1) ∧ decode 0x06723000 = .ok (.atan2 7 2 3) := by decide
theorem test_decode_powlog : decode 0x08413000 = .ok (.pow 4 1 3) ∧ decode 0x09600000 = .ok (.exp 6 0) ∧
    decode 0x0A521000 = .ok (.log 5 2 1) ∧ decode 0x0B312000 = .ok (.pow2 3 1 2) ∧
    decode 0x0C010000 = .ok (.log2 0 1) ∧ decode 0x0D210000 = .ok (.sqrt 2 1) ∧
    decode 0x0E21000F = .ok (.sqrtq 2 1 15) := by decide
theorem test_decode_scalar : decode 0x10312000 = .ok (.fadd 3 1 2) ∧ decode 0x11312000 = .ok (.fsub 3 1 2) ∧
    decode 0x12312000 = .ok (.fmul 3 1 2) ∧ decode 0x13423000 = .ok (.fdiv 4 2 3) := by decide
theorem test_decode_saturating : decode 0x18988000 = .ok (.sadd16 9 8 8) ∧
    decode 0x19DB8000 = .ok (.ssub16 13 11 8) ∧ decode 0x1AA88000 = .ok (.smul16 10 8 8) ∧
    decode 0x1B210000 = .ok (.sat16 2 1) := by decide
theorem test_decode_vector : decode 0x20714000 = .ok (.vadd 7 1 4) ∧ decode 0x21741000 = .ok (.vsub 7 4 1) ∧
    decode 0x22B17000 = .ok (.vscale 11 1 7) ∧ decode 0x23711000 = .ok (.vdot 7 1 1) ∧
    decode 0x24814000 = .ok (.vcross 8 1 4) ∧ decode 0x25410000 = .ok (.vnorm 4 1) := by decide
theorem test_decode_register : decode 0x303003E8 = .ok (.li 3 1000) ∧ decode 0x31400003 = .ok (.lih 4 3) ∧
    decode 0x32650000 = .ok (.mov 6 5) := by decide
theorem test_decode_csr : decode 0x38500000 = .ok (.csrr 5 .status) ∧ decode 0x38600001 = .ok (.csrr 6 .faultCmd) ∧
    decode 0x38700002 = .ok (.csrr 7 .faultInfo) ∧ decode 0x38800003 = .ok (.csrr 8 .tick) ∧
    decode 0x38900004 = .ok (.csrr 9 .outRate) ∧ decode 0x38A00005 = .ok (.csrr 10 .config) ∧
    decode 0x38B00006 = .ok (.csrr 11 .idReg) ∧ decode 0x390C0003 = .ok (.csrw .tick 12) := by decide
theorem test_decode_mixer : decode 0x40210000 = .ok (.minit 2 1) ∧ decode 0x41010000 = .ok (.mstart 0 1) ∧
    decode 0x42510000 = .ok (.mupdate 5 1) ∧ decode 0x43010000 = .ok (.mstop 1) ∧
    decode 0x44B10000 = .ok (.mquery 11 1) ∧ decode 0x45200000 = .ok (.many 2) ∧
    decode 0x4609A000 = .ok (.mmix 9 10) ∧ decode 0x47C10000 = .ok (.minfo 12 1) := by decide

/-- Words put together bit by bit from the field tables R91 to R95, one for each family: OPC, RD, RS1, RS2, RSV, IMM8, or
OPC, RD, four zero bits, IMM16. -/
theorem test_decode_bits :
    decode (0b00000110#8 ++ 0b0111#4 ++ 0b0010#4 ++ 0b0011#4 ++ 0b0000#4 ++ 0b00000000#8) = .ok (.atan2 7 2 3) ∧
    decode (0b00001110#8 ++ 0b0010#4 ++ 0b0001#4 ++ 0b0000#4 ++ 0b0000#4 ++ 0b00001111#8) = .ok (.sqrtq 2 1 15) ∧
    decode (0b00010011#8 ++ 0b0100#4 ++ 0b0010#4 ++ 0b0011#4 ++ 0b0000#4 ++ 0b00000000#8) = .ok (.fdiv 4 2 3) ∧
    decode (0b00011001#8 ++ 0b1101#4 ++ 0b1011#4 ++ 0b1000#4 ++ 0b0000#4 ++ 0b00000000#8) = .ok (.ssub16 13 11 8) ∧
    decode (0b00100010#8 ++ 0b1011#4 ++ 0b0001#4 ++ 0b0111#4 ++ 0b0000#4 ++ 0b00000000#8) = .ok (.vscale 11 1 7) ∧
    decode (0b00110001#8 ++ 0b0100#4 ++ 0b0000#4 ++ 0b0000000000000011#16) = .ok (.lih 4 3) ∧
    decode (0b00111001#8 ++ 0b0000#4 ++ 0b1100#4 ++ 0b0000#4 ++ 0b0000#4 ++ 0b00000011#8) = .ok (.csrw .tick 12) ∧
    decode (0b01000110#8 ++ 0b0000#4 ++ 0b1001#4 ++ 0b1010#4 ++ 0b0000#4 ++ 0b00000000#8) = .ok (.mmix 9 10) := by
  decide

/-- The table of 95_test_vectors.md section 2.1: words that are no command, by the check that fails. -/
theorem test_decode_reserved_opcodes : ([0x00000000#32, 0xFFFFFFFF#32, 0x07000000#32, 0x48000000#32].all
    fun w => decide (decode w = .error .reservedOpcode)) = true := by decide
theorem test_decode_reserved_fields :
    ([0x02210100#32, 0x02211000#32, 0x02210001#32, 0x3011FFFF#32, 0x39110003#32, 0x43110000#32, 0x45210000#32].all
    fun w => decide (decode w = .error .reservedField)) = true := by decide
theorem test_decode_immediates : ([0x0121001F#32, 0x0E210020#32, 0x38100007#32].all
    fun w => decide (decode w = .error .immediateRange)) = true := by decide
theorem test_decode_groups :
    ([0x01F10000#32, 0x0CF10000#32, 0x20E00000#32, 0x22DE0000#32, 0x25E00000#32, 0x410A0000#32, 0x47D00000#32].all
    fun w => decide (decode w = .error .registerGroup)) = true := by decide
/-- The legal words of that table, and their encodings back. -/
theorem test_decode_legal : ∀ p ∈ [(0x0121001E#32, Instr.sincos 2 1 30), (0x0E21001F#32, .sqrtq 2 1 31),
    (0x22DDE000#32, .vscale 13 13 14), (0x23E00000#32, .vdot 14 0 0), (0x24DDD000#32, .vcross 13 13 13),
    (0x31F0FFFF#32, .lih 15 0xFFFF), (0x32000000#32, .mov 0 0), (0x38100006#32, .csrr 1 .idReg),
    (0x41A10000#32, .mstart 10 1), (0x42C00000#32, .mupdate 12 0), (0x42D00000#32, .mupdate 13 0),
    (0x46000000#32, .mmix 0 0), (0x4600F000#32, .mmix 0 15), (0x47C00000#32, .minfo 12 0)],
    decode p.1 = .ok p.2 ∧ encode p.2 = p.1 := by decide +kernel

theorem test_decodeTableWord : decodeTableWord 32 0x24814000 = some (.vcross 8 1 4) ∧
    decodeTableWord 32 0x24814001 = none := by decide

/-! ### States for one step -/

/-- The reset state with some registers written. -/
def given (l : List (Reg × Int)) : State := l.foldl (fun s p => s.put p.1 p.2) State.reset

/-- A register after a command that has a next state. -/
def after (i : Instr) (s : State) (r : Reg) : Option Word :=
  match exec i s with
  | .next t => some (t.x r)
  | _ => none

/-- Something of the next state of a command. -/
def seen {α : Type} (i : Instr) (s : State) (f : State → α) : Option α :=
  match exec i s with
  | .next t => some (f t)
  | _ => none

/-- The sound of the example of R281: header rate 11025, eight samples. -/
def soundBytes : Memory :=
  [(0x1002, 0x11), (0x1003, 0x2B), (0x1008, 0x80), (0x1009, 0xFF), (0x100B, 0x80), (0x100C, 0xC0), (0x100D, 0x40),
    (0x100E, 0x80), (0x100F, 0x80)]

/-- The slot that the example of R281 installs. -/
def voice : Slot where
  cur := 0x1008
  endAddr := 0x100F
  base := 0x1000
  srate := 11025
  step := 65536
  rem := 0
  lvol := 95
  rvol := 96
  id := 7
  stime := 5

/-- Two channels, the first playing `voice`, and the registers given. -/
def playing (l : List (Reg × Int)) : State :=
  { given l with slots := [voice, Slot.zero], mem := soundBytes, tick := 5 }

/-! ### One step of each command -/

theorem test_sincos : after (.sincos 2 1 0) (given [(1, 34315)]) 2 = some 32768 ∧
    after (.sincos 2 1 0) (given [(1, 34315)]) 3 = some 56756 := by decide +kernel
theorem test_sincos_two_iterations : after (.sincos 1 1 2) (given [(1, 34315)]) 1 = some 16384 ∧
    after (.sincos 1 1 2) (given [(1, 34315)]) 2 = some 49152 := by decide +kernel
theorem test_tan_past_the_pole : after (.tan 2 1) (given [(1, 102944)]) 2 = some (toWord (-884146176)) := by
  decide +kernel
theorem test_tan_negative : after (.tan 2 1) (given [(1, -2147483648)]) 2 = some (toWord (-200565)) := by
  decide +kernel
theorem test_asin : after (.asin 2 1) (given [(1, -32768)]) 2 = some (toWord (-34328)) := by decide +kernel
theorem test_asin_sentinel : after (.asin 2 1) (given [(1, -65537)]) 2 = some 0xFFFFFFFF := by decide +kernel
theorem test_acos : after (.acos 2 1) (given [(1, -65536)]) 2 = some 205880 := by decide +kernel
theorem test_acos_sentinel : after (.acos 2 1) (given [(1, 65537)]) 2 = some 0xFFFFFFFF := by decide +kernel
theorem test_atan : after (.atan 2 1) (given [(1, 1024)]) 2 = some 1088 := by decide +kernel
theorem test_atan_limit : after (.atan 2 1) (given [(1, 67108864)]) 2 = some 102848 := by decide +kernel
theorem test_atan2 : after (.atan2 7 2 3) (given [(2, 32768), (3, 56756)]) 7 = some 34240 := by decide +kernel
theorem test_atan2_quirk : after (.atan2 7 2 3) (given [(2, 65536)]) 7 = some 0 := by decide +kernel
theorem test_pow : after (.pow 4 1 3) (given [(1, 655360), (3, 131072)]) 4 = some 6554047 := by decide +kernel
theorem test_pow_overflow : after (.pow 4 1 3) (given [(1, 131072), (3, 983040)]) 4 = some 0xFFFFFFFF := by
  decide +kernel
theorem test_exp : after (.exp 6 1) (given [(1, -65536)]) 6 = some 24112 := by decide +kernel
theorem test_log : after (.log 5 2 1) (given [(2, 131072), (1, 32768)]) 5 = some (toWord (-65536)) := by
  decide +kernel
theorem test_log_zero_denominator : after (.log 5 2 1) (given [(2, 65537), (1, 131072)]) 5 = some 0xFFFFFFFF := by
  decide +kernel
theorem test_pow2 : after (.pow2 3 1 2) (given [(1, 16), (2, 16384)]) 3 = some 92680 := by decide +kernel
theorem test_pow2_ignores_high_fraction_bits : after (.pow2 3 1 2) (given [(2, -1)]) 3 = some 2 := by decide +kernel
theorem test_log2 : after (.log2 1 1) (given [(1, 98304)]) 1 = some 16 ∧
    after (.log2 1 1) (given [(1, 98304)]) 2 = some 19168 := by decide +kernel
theorem test_sqrt : after (.sqrt 2 1) (given [(1, 2147483647)]) 2 = some 11863040 := by decide +kernel
theorem test_sqrt_sentinel : after (.sqrt 2 1) (given [(1, -1)]) 2 = some 0xFFFFFFFF := by decide +kernel
theorem test_sqrtq_odd : after (.sqrtq 2 1 15) (given [(1, 65536)]) 2 = some 46336 := by decide +kernel
theorem test_sqrtq_even : after (.sqrtq 2 1 30) (given [(1, 2147483647)]) 2 = some 1518469120 := by decide +kernel
theorem test_fadd_wraps : after (.fadd 3 1 2) (given [(1, 2147483647), (2, 1)]) 3 = some 0x80000000 := by
  decide +kernel
theorem test_fsub : after (.fsub 3 1 2) (given [(1, 65536), (2, 98304)]) 3 = some 0xFFFF8000 := by decide +kernel
theorem test_fmul_floors : after (.fmul 3 1 2) (given [(1, -32768), (2, 3)]) 3 = some (toWord (-2)) := by
  decide +kernel
theorem test_fmul_wraps : after (.fmul 3 1 2) (given [(1, 2147483647), (2, 131072)]) 3 = some (toWord (-2)) := by
  decide +kernel
theorem test_fdiv_truncates : after (.fdiv 4 2 3) (given [(2, -65536), (3, 196608)]) 4 =
    some (toWord (-21845)) ∧ after (.fdiv 4 2 3) (given [(2, 65536), (3, 3)]) 4 = some 1431655765 := by
  decide +kernel
theorem test_fdiv_limits : after (.fdiv 4 2 3) (given [(2, -2147483648), (3, -1)]) 4 = some 0x7FFFFFFF ∧
    after (.fdiv 4 2 3) (given [(2, 65536)]) 4 = some 0xFFFFFFFF := by decide +kernel
theorem test_sadd16 : after (.sadd16 9 8 7) (given [(8, 0x17FFF), (7, 1)]) 9 = some 32767 := by decide +kernel
theorem test_ssub16 : after (.ssub16 13 11 8) (given [(11, -32768), (8, 0x7000)]) 13 = some 0xFFFF8000 := by
  decide +kernel
theorem test_smul16_floors : after (.smul16 10 8 9) (given [(8, 1), (9, -1)]) 10 = some 0xFFFFFFFF := by
  decide +kernel
theorem test_smul16_saturates : after (.smul16 10 8 8) (given [(8, -32768)]) 10 = some 32767 := by decide +kernel
theorem test_sat16 : after (.sat16 2 1) (given [(1, 0x12345)]) 2 = some 32767 ∧
    after (.sat16 2 1) (given [(1, -65536)]) 2 = some 0xFFFF8000 := by decide +kernel
theorem test_vadd : seen (.vadd 7 1 4) (given [(1, 0x10000), (2, 0x20000), (3, 0x30000), (4, 0x40000), (5, 0x50000),
    (6, 0x60000)]) (fun t => [t.x 7, t.x 8, t.x 9]) = some [0x50000, 0x70000, 0x90000] := by decide +kernel
theorem test_vsub : seen (.vsub 7 4 1) (given [(1, 0x10000), (2, 0x20000), (3, 0x30000), (4, 0x40000), (5, 0x50000),
    (6, 0x60000)]) (fun t => [t.x 7, t.x 8, t.x 9]) = some [0x30000, 0x30000, 0x30000] := by decide +kernel
theorem test_vscale : seen (.vscale 11 1 7) (given [(1, 0x30000), (2, 0x40000), (7, 0x190000)])
    (fun t => [t.x 11, t.x 12, t.x 13]) = some [0x4B0000, 0x640000, 0] := by decide +kernel
theorem test_vdot : after (.vdot 7 1 1) (given [(1, 0x30000), (2, 0x40000)]) 7 = some 0x190000 ∧
    after (.vdot 7 1 1) (given [(1, 2147483647), (2, 2147483647), (3, 2147483647)]) 7 = some (toWord (-196608)) := by
  decide +kernel
theorem test_vcross : seen (.vcross 1 4 1) (given [(1, 0x10000), (5, 0x10000)]) (fun t => [t.x 1, t.x 2, t.x 3]) =
    some [0, 0, 0xFFFF0000] := by decide +kernel
theorem test_vnorm : seen (.vnorm 1 1) (given [(1, 0x30000), (2, 0x40000)]) (fun t => [t.x 1, t.x 2, t.x 3]) =
    some [0x9999, 0xCCCC, 0] := by decide +kernel
theorem test_vnorm_wrapped_length : seen (.vnorm 4 1) (given [(1, 2147483647)]) (fun t => [t.x 4, t.x 5, t.x 6]) =
    some [0, 0, 0] := by decide +kernel
theorem test_li : after (.li 1 0x8000) State.reset 1 = some 0xFFFF8000 := by decide +kernel
theorem test_lih : after (.lih 4 3) (given [(4, 0xFFFFB000)]) 4 = some 0x0003B000 := by decide +kernel
theorem test_mov : after (.mov 6 5) (given [(5, 0x12345678)]) 6 = some 0x12345678 := by decide +kernel
theorem test_csrr : after (.csrr 9 .outRate) State.reset 9 = some 0x2B11 ∧
    after (.csrr 11 .idReg) State.reset 11 = some 0x120 := by decide +kernel
theorem test_csrw : seen (.csrw .config 1) (given [(1, -1)]) (fun t => t.csr .config) = some 1 ∧
    seen (.csrw .outRate 1) (given [(1, -1)]) (fun t => t.csr .outRate) = some 11025 := by decide +kernel

theorem test_minit : seen (.minit 2 1) (given [(1, 22050)])
    (fun t => (t.x 2, t.outRate, t.stepTab[0], t.stepTab[128])) = some (0, 22050, 54621, 65536) := by decide +kernel
/-- The last line of 95_test_vectors.md section 2.10's one-sample example, for the slot of `voice`. -/
theorem test_minit_releases : seen (.minit 15 1) (playing [(1, 22050)]) (fun t => (t.events, t.slots)) =
    some ([.release 0 0x1000], [Slot.zero, Slot.zero]) := by decide +kernel
theorem test_mstart : seen (.mstart 0 1) { given [(2, 7), (3, 0x1000), (4, 16), (5, 127), (6, 128), (7, 128)] with
    mem := soundBytes, tick := 5 } (fun t => (t.x 0, t.slot 0, t.events)) = some (0, voice, []) := by decide +kernel
theorem test_mstart_short : seen (.mstart 10 1) (playing [(3, 0x1000), (4, 8), (5, 127), (7, 128)])
    (fun t => (t.x 10, t.slots, t.halted)) = some (0xFFFFFFFF, [voice, Slot.zero], false) := by decide +kernel
theorem test_mupdate : seen (.mupdate 5 1) (playing [(2, 127), (4, 128)])
    (fun t => (t.x 5, t.slot 0)) = some (0, { voice with lvol := 127, rvol := 0 }) := by decide +kernel
theorem test_mupdate_range : seen (.mupdate 11 1) (playing [(2, 1), (3, 0x1000), (4, -1)])
    (fun t => (t.halted, t.csr .status, t.faultCmd, t.faultInfo)) =
      some (true, 0x201, 0x42B10000, 0xFF20FF01) := by decide +kernel
theorem test_mstop : seen (.mstop 1) (playing []) (fun t => (t.events, t.slot 0)) =
    some ([.release 0 0x1000], { voice with cur := 0 }) := by decide +kernel
theorem test_mquery : after (.mquery 11 1) (playing []) 11 = some 1 ∧
    after (.mquery 9 1) (playing [(1, -1)]) 9 = some 0 := by decide +kernel
theorem test_many : after (.many 2) (playing []) 2 = some 1 ∧ after (.many 2) State.reset 2 = some 0 := by
  decide +kernel
theorem test_minfo : seen (.minfo 12 1) (playing []) (fun t => [t.x 12, t.x 13, t.x 14, t.x 15]) =
    some [7, 5, 0x1008, 0] := by decide +kernel
/-- The example of R286: 00 00 00 00 2A 3F D5 3F 56 C0 AB BF 00 00 00 00 at 0x2000, and R287's (7, 5, 0x100C, 0). -/
theorem test_mmix : seen (.mmix 9 10) (playing [(9, 0x2000), (10, 16)])
    (fun t => ((List.range 16).map fun k => t.byteAt (0x2000 + k), (t.slot 0).cur, (t.slot 0).rem)) =
      some ([0x00, 0x00, 0x00, 0x00, 0x2A, 0x3F, 0xD5, 0x3F, 0x56, 0xC0, 0xAB, 0xBF, 0x00, 0x00, 0x00, 0x00],
        0x100C, 0) := by decide +kernel
/-- R293: the second frame's first output byte is not admitted; the first frame stays committed. -/
theorem test_mmix_bus_error : seen (.mmix 9 10) { playing [(9, 0x2000), (10, 16)] with
    withheld := [⟨0x2004, 0x2004, false, true⟩] }
    (fun t => (t.csr .status, t.faultCmd, t.faultInfo, (t.slot 0).cur)) =
      some (0x301, 0x4609A000, 0x2004, 0x1009) := by decide +kernel

/-! ### Steps -/

/-- The word of the example of R200 as the first command after reset (R348). -/
theorem test_step_first_command :
    (match step ((given [(1, 0x18000), (2, 0x8000)]).withFetchWord 32 0x10312000) with
      | .next t => (t.x 3, t.input)
      | _ => (0, [])) = (0x20000, []) := by decide +kernel
/-- A host write to X1 at offset 0x44 and a host read of IDREG at 0x1C (R360). -/
theorem test_step_window :
    (match step { State.reset with input := [.windowWrite 0x44 .word 9, .windowRead 0x1C .word] } with
      | .next t => (match step t with | .next u => (u.x 1, u.readData) | _ => (0, 0))
      | _ => (0, 0)) = (9, 0x120) := by decide +kernel
/-- Program P7 of 95_test_vectors.md section 3 in one step: an illegal word halts the block. -/
theorem test_step_illegal :
    (match step (State.reset.withFetchWord 32 0x01F10000) with
      | .next t => (t.csr .status, t.faultCmd, t.faultInfo)
      | _ => (0, 0, 0)) = (0x101, 0x01F10000, 0) := by decide +kernel

/-! ### Witnesses: states and operands that meet the hypotheses of a statement -/

/-- A state that the reset state steps to, for statements about a next state. -/
theorem test_reset_idles : step State.reset = .next State.reset := rfl

theorem test_hyps_DecodeOfEncode : (Instr.sincos 14 15 30).wellFormed = true ∧
    (Instr.sqrtq 15 15 31).wellFormed = true ∧ (Instr.mstart 15 9).wellFormed = true := by decide

theorem test_hyps_LegalWordsHaveOneCommand : decode 0x24DDD000 = .ok (.vcross 13 13 13) ∧
    decode 0x4600F000 = .ok (.mmix 0 15) := by decide

theorem test_hyps_ReservedFieldsAreZero : opcodeShape (opcField 0x02210001) = some .ds ∧
    ¬unusedFieldsZero .ds 0x02210001 ∧ unusedFieldsZero .ds 0x02210000 ∧ State.reset.halted = false := by
  simp only [unusedFieldsZero]; decide

theorem test_hyps_ImmediateLimits : 30 < (31 : Byte).toNat ∧ (30 : Byte).toNat ≤ 30 ∧ (14 : Reg).val ≤ 14 ∧
    31 < (32 : Byte).toNat ∧ (31 : Byte).toNat ≤ 31 ∧ 6 < (7 : Byte).toNat ∧ (6 : Byte).toNat ≤ 6 ∧ (1 : Byte) ≠ 0 ∧
    decode 0x38100007 = .error .immediateRange ∧ State.reset.halted = false := by decide

theorem test_hyps_RegisterGroupsEndAtX15 : (Instr.mstart 0 10).immediateOk = true ∧ pastX15 (.mstart 0 10) ∧
    (Instr.mstart 0 9).immediateOk = true ∧ ¬pastX15 (.mstart 0 9) := by
  simp only [pastX15]; decide

theorem test_hyps_StepRunsTheDecodedCommand :
    let s := { State.reset with input := [State.reset.cmdWrite 0x02210000] }
    s.halted = false ∧ s.input = [s.cmdWrite 0x02210000] ∧ decode 0x02210000 = .ok (.tan 2 1) := by decide

theorem test_hyps_IllegalWordHaltsTheBlock :
    let s := { State.reset with input := [State.reset.cmdWrite 0] }
    s.halted = false ∧ s.input = [s.cmdWrite 0] ∧ decode 0 = .error .reservedOpcode := by decide

/-- A halted state in which every clause of the statement has its action. -/
theorem test_hyps_HaltedUntilReset : (State.reset.raise 0 .illegalCommand 0).halted = true ∧
    (∀ a : HostAction, { State.reset.raise 0 .illegalCommand 0 with input := [a] }.input = a :: []) ∧
    step { State.reset.raise 0 .illegalCommand 0 with input := [.setAdmission []] } =
      .next (State.reset.raise 0 .illegalCommand 0) := ⟨rfl, fun _ => rfl, rfl⟩

theorem test_hyps_WindowReadValues : ∀ off ∈ [0x00, 0x04, 0x08, 0x0C, 0x10, 0x14, 0x18, 0x1C, 0x3C, 0x40, 0x7C],
    off < 0x80 ∧ off % 4 = 0 ∧
      { State.reset with input := [.windowRead (BitVec.ofNat 32 off) .word] }.input =
        .windowRead (State.reset.params.qfxBase + BitVec.ofNat 32 off) .word :: [] := by decide +kernel

theorem test_hyps_WindowWriteEffects : ∀ off ∈ [0x04, 0x10, 0x18, 0x1C, 0x3C, 0x40, 0x7C],
    0 < off ∧ off < 0x80 ∧ off % 4 = 0 ∧
      { State.reset with input := [.windowWrite (BitVec.ofNat 32 off) .word 9] }.input =
        .windowWrite (State.reset.params.qfxBase + BitVec.ofNat 32 off) .word 9 :: [] := by decide +kernel

theorem test_hyps_OtherHostActions : (0x7E - State.reset.params.qfxBase).toNat % 4 ≠ 0 ∧
    0x80 ≤ (0x80 - State.reset.params.qfxBase).toNat ∧ AccessSize.half ≠ .word ∧ State.reset.halted = false ∧
    { State.reset with input := [.windowRead 0x80 .word] }.input = [.windowRead 0x80 .word] ∧
    { State.reset with input := [.windowWrite 0 .byte 1] }.input = [.windowWrite 0 .byte 1] ∧
    { State.reset with input := [.store 5 1] }.input = [.store 5 1] ∧
    { State.reset with input := [.storeDuring 0 5 1] }.input = [.storeDuring 0 5 1] := by decide

theorem test_hyps_ResetRestoresTheBlock :
    { State.reset with input := [.reset none] }.input = [.reset none] ∧ State.reset.params.legal = true ∧
    (∀ sl ∈ State.reset.slots, sl.active = false) ∧
    (given [(1, 11025)]).x 1 = BitVec.ofNat 32 State.reset.params.outRateReset ∧ (given [(1, 11025)]).nch = 32 ∧
    (∀ sl ∈ (given [(1, 11025)]).slots, sl.active = false) ∧
    ∃ v, exec (.minit 2 1) (given [(1, 11025)]) = .next v :=
  ⟨by decide, by decide, by decide, by decide, by decide, by decide, _, rfl⟩

theorem test_hyps_MachineStartsAtReset : State.reset.input = [] := rfl

/-- A state with the invariant other than the reset state. -/
theorem test_inv_given : Inv (given [(1, 1)]) := by
  refine ⟨by decide, by decide, by decide, by decide, rfl, by decide, by decide, ?_⟩
  intro sl h
  rw [List.eq_of_mem_replicate (show sl ∈ List.replicate 32 Slot.zero from h)]
  intro ha; cases ha

theorem test_hyps_StepKeepsTheInvariant : Inv (given [(1, 1)]) ∧ step (given [(1, 1)]) = .next (given [(1, 1)]) :=
  ⟨test_inv_given, rfl⟩

theorem test_hyps_StepsKeepParametersAndEvents :
    ∃ t, step ((playing []).withFetchWord 32 0x43000000) = .next t ∧ t.events = [.release 0 0x1000] :=
  ⟨_, rfl, by decide +kernel⟩

theorem test_hyps_ReleasesMatchStops : ∃ t, exec (.mstop 1) (playing []) = .next t ∧
    ((playing []).slot 0).active = true ∧ (t.slot 0).active = false := ⟨_, rfl, by decide, by decide⟩

/-- MSTART, MUPDATE and MMIX each with a fault. -/
theorem test_hyps_FaultsArePrecise :
    (∃ t, exec (.mstart 8 1) { given [(4, 9)] with withheld := [⟨2, 2, true, true⟩] } = .next t ∧ t.halted = true ∧
      t.cause = .busError) ∧
    (∃ t, exec (.mupdate 8 1) (given [(2, 128)]) = .next t ∧ t.halted = true ∧ t.cause = .volumeRange) ∧
    (∃ t, exec (.mmix 1 2) { given [(2, 4)] with withheld := [⟨3, 3, false, true⟩] } = .next t ∧ t.halted = true ∧
      t.cause = .busError) ∧
    State.reset.halted = false :=
  ⟨⟨_, rfl, by decide +kernel, by decide +kernel⟩, ⟨_, rfl, by decide +kernel, by decide +kernel⟩,
    ⟨_, rfl, by decide +kernel, by decide +kernel⟩, rfl⟩

theorem test_hyps_OnlyTwoCommandsUseThePort : (∃ t, exec (.fadd 3 1 2) State.reset = .next t) ∧
    (∀ rd rs1, Instr.fadd 3 1 2 ≠ .mstart rd rs1) ∧ (∀ rs1 rs2, Instr.fadd 3 1 2 ≠ .mmix rs1 rs2) ∧
    (∃ t, exec (.mstart 0 1) (playing [(3, 0x1000), (4, 16)]) = .next t) ∧
    Memory.get [(0x1002, 0x11), (0x1003, 0x2B)] 0x1002 = (playing []).byteAt 0x1002 ∧
    Memory.get [(0x1002, 0x11), (0x1003, 0x2B)] 0x1003 = (playing []).byteAt 0x1003 :=
  ⟨⟨_, rfl⟩, fun _ _ => nofun, fun _ _ => nofun, ⟨_, rfl⟩, by decide, by decide⟩

theorem test_hyps_WritersOfMixerAndControl : (∃ t, exec (.li 1 5) State.reset = .next t) ∧
    (∀ rd rs1 : Reg, Instr.li 1 5 ≠ .minit rd rs1 ∧ Instr.li 1 5 ≠ .mstart rd rs1 ∧ Instr.li 1 5 ≠ .mupdate rd rs1 ∧
      Instr.li 1 5 ≠ .mstop rd ∧ Instr.li 1 5 ≠ .mmix rd rs1) ∧
    (∀ (c : Csr) (rs1 : Reg), Instr.li 1 5 ≠ .csrw c rs1) :=
  ⟨⟨_, rfl⟩, fun _ _ => ⟨nofun, nofun, nofun, nofun, nofun⟩, fun _ _ => nofun⟩

theorem test_hyps_SincosWritesThePair : (14 : Reg).val ≤ 14 ∧ (30 : Byte).toNat ≤ 30 ∧ (0 : Byte).toNat ≤ 30 := by
  decide

theorem test_hyps_SincosRangeAndPeriod : (-411774 : Int) ≠ 0 ∧ (-411774 : Int) + 411775 ≠ 0 := by decide

theorem test_hyps_TangentIsOddAndPeriodic : (0 : Int) ≤ 0 ∧ (0 : Int) ≤ 2147483647 := by decide

/-- POW2 at each clause: exponents 31, 30, 0, -1 and -2, with a fraction of 0. -/
theorem test_hyps_PowerOfTwoResults : 30 < (given [(1, 31)]).sx 1 ∧ (given [(1, 30)]).sx 1 ≤ 30 ∧
    0 ≤ (given [(1, 0)]).sx 1 ∧ (given [(2, 32768)]).x 2 = 32768 ∧ (given [(2, 32768)]).x 2 % 32768 = 0 ∧
    (given [(1, -1)]).sx 1 = -1 ∧ (given [(1, -2)]).sx 1 < -1 := by decide

/-- ASIN and ACOS at 1.0, within the range, and one unit past it on either side. -/
theorem test_hyps_AsinAndAcosAddToHalfPi : ¬65536 < ((given [(1, -65536)]).sx 1).natAbs ∧
    65536 < ((given [(1, 65537)]).sx 1).natAbs ∧ 65536 < ((given [(1, -65537)]).sx 1).natAbs := by decide

theorem test_hyps_LogarithmOfTwoResults : (14 : Reg).val ≤ 14 ∧ (given [(1, 0)]).sx 1 ≤ 0 ∧
    0 < (given [(1, 1)]).sx 1 ∧ (given [(1, 1)]).sx 1 = 2 ^ 0 ∧ (given [(1, 3)]).sx 1 = 3 ∧
    (given [(1, 2147483647)]).sx 1 = 2147483647 := by decide

theorem test_hyps_SquareRootResults : (31 : Byte).toNat ≤ 31 ∧ (0 : Byte).toNat ≤ 31 := by decide

theorem test_hyps_SquareRootIsMonotonic : (31 : Nat) ≤ 31 ∧ (0 : Int) ≤ 0 ∧ (0 : Int) ≤ 2147483647 ∧
    (2147483647 : Int) < 2147483648 := by decide

theorem test_hyps_DivisionSaturates : (given []).x 2 = 0 ∧ (given [(2, 1)]).x 2 ≠ 0 := by decide

theorem test_hyps_VectorSumsAndProducts : (13 : Reg).val ≤ 13 := by decide

theorem test_hyps_CrossProductResults : (13 : Reg).val ≤ 13 ∧
    decode (encR 0x24 (13 : Reg).val 13 13 0) = .ok (.vcross 13 13 13) := by decide

theorem test_hyps_NormalizeResults : (13 : Reg).val ≤ 13 ∧
    decode (encR 0x25 (13 : Reg).val 13 0 0) = .ok (.vnorm 13 13) := by decide

theorem test_hyps_ControlRegisterReads : Inv (given [(1, 1)]) ∧ (given [(1, 1)]).halted = false :=
  ⟨test_inv_given, rfl⟩

/-- MINIT at the rates 0, 1, 65535 and 65536. -/
theorem test_hyps_MinitRestartsTheMixer : ((given []).x 1).toNat = 0 ∧ 65535 < ((given [(1, 65536)]).x 1).toNat ∧
    ¬(((given [(1, 1)]).x 1).toNat = 0 ∨ 65535 < ((given [(1, 1)]).x 1).toNat) ∧
    ¬(((given [(1, 65535)]).x 1).toNat = 0 ∨ 65535 < ((given [(1, 65535)]).x 1).toNat) := by decide

theorem test_hyps_MstartRejections : (given [(1, -1)]).sx 1 < 0 ∧
    ((given []).nch : Int) ≤ (given [(1, 32)]).sx 1 ∧ (given [(4, 8)]).sx (1 + 3) ≤ 8 ∧
    0xFFFFFFFF < (((given [(3, 0xFFFFFFF8), (4, 9)]).x (1 + 2)).toNat : Int) +
      (given [(3, 0xFFFFFFF8), (4, 9)]).sx (1 + 3) - 1 := by decide

/-- MSTART on the last channel of two with the shortest buffer, at the end of the address space. -/
theorem test_hyps_MstartInstallsTheSound :
    let s := playing [(1, 1), (3, 0xFFFFFFF7), (4, 9), (5, 127), (6, 0)]
    s.sx 1 = 1 ∧ 1 < s.nch ∧ 8 < s.sx (1 + 3) ∧ ((s.x (1 + 2)).toNat : Int) + s.sx (1 + 3) - 1 ≤ 0xFFFFFFFF ∧
    s.canAccess ((s.x (1 + 2)).toNat + 2) .read = true ∧ s.canAccess ((s.x (1 + 2)).toNat + 3) .read = true ∧
    s.sx (1 + 4) - s.sx (1 + 4) * (s.sx (1 + 5) + 1) * (s.sx (1 + 5) + 1) / 65536 = ((127 : Fin 128).val : Int) ∧
    s.sx (1 + 4) - s.sx (1 + 4) * (s.sx (1 + 5) - 256) * (s.sx (1 + 5) - 256) / 65536 =
      ((0 : Fin 128).val : Int) := by decide +kernel

/-- MSTART with the first header byte withheld, with the second, and with both admitted and a volume of 128. -/
theorem test_hyps_MstartFaults :
    let s := playing [(3, 0x1000), (4, 9), (5, 128)]
    s.sx 1 = 0 ∧ 0 < s.nch ∧ 8 < s.sx (1 + 3) ∧ ((s.x (1 + 2)).toNat : Int) + s.sx (1 + 3) - 1 ≤ 0xFFFFFFFF ∧
    { s with withheld := [⟨0x1002, 0x1002, true, false⟩] }.canAccess 0x1002 .read = false ∧
    { s with withheld := [⟨0x1003, 0x1003, true, false⟩] }.canAccess 0x1002 .read = true ∧
    { s with withheld := [⟨0x1003, 0x1003, true, false⟩] }.canAccess 0x1003 .read = false ∧
    s.canAccess 0x1002 .read = true ∧ s.canAccess 0x1003 .read = true ∧
    127 < s.sx (1 + 4) - s.sx (1 + 4) * (s.sx (1 + 5) + 1) * (s.sx (1 + 5) + 1) / 65536 := by decide +kernel

theorem test_hyps_MupdateRewritesTheVoice : (12 : Reg).val ≤ 12 ∧ (playing [(1, -1)]).sx 1 < 0 ∧
    ((playing []).nch : Int) ≤ (playing [(1, 2)]).sx 1 ∧ (playing [(1, 1)]).sx 1 = 1 ∧ 1 < (playing []).nch := by
  decide

theorem test_hyps_MstopReleasesOnce : (playing []).sx 1 = 0 ∧ 0 < (playing []).nch ∧
    ((playing []).slot 0).active = true ∧ (playing [(1, 1)]).sx 1 = 1 ∧ ((playing []).slot 1).active = false ∧
    (∀ c : Nat, (playing [(1, -1)]).sx 1 ≠ c) :=
  ⟨by decide, by decide, by decide, by decide, by decide, fun c h => by
    have e : (playing [(1, -1)]).sx 1 = -1 := by decide
    rw [e] at h; omega⟩

theorem test_hyps_SlotQueries : (12 : Reg).val ≤ 12 ∧ (playing [(1, 1)]).sx 1 = 1 ∧ 1 < (playing []).nch ∧
    (playing [(1, -1)]).sx 1 < 0 ∧ ((playing []).nch : Int) ≤ (playing [(1, 2)]).sx 1 ∧
    (∃ c < (playing []).nch, ((playing []).slot c).cur ≠ 0) ∧
    (∀ c < State.reset.nch, (State.reset.slot c).cur = 0) := by decide +kernel

/-- A second voice at twice the rate, which ends in its second frame. -/
def second : Slot := { voice with cur := 0x3000, endAddr := 0x3003, base := 0x2FF8, step := 0x20000 }

/-- Two voices of three channels, and nothing admitted but what four frames at 0x2000 use. -/
def twoVoices : State :=
  { playing [(9, 0x2000), (10, 16)] with
    slots := [voice, second, Slot.zero]
    withheld := [⟨0, 0x1007, true, true⟩, ⟨0x1008, 0x1FFF, false, true⟩, ⟨0x100D, 0x2FFF, true, false⟩,
      ⟨0x2010, 0xFFFFFFFF, false, true⟩, ⟨0x3004, 0xFFFFFFFF, true, false⟩] }

/-- MMIX with a byte length of 3, with one of 4 at the last frame address, and with a partial admission. -/
theorem test_hyps_MmixCompletes : (given [(2, 3)]).sx 2 ≤ 3 ∧
    (∀ k < 4 * ((given [(2, 4)]).sx 2 / 4).toNat, (given [(1, 0xFFFFFFFC)]).canAccess (0xFFFFFFFC + k) .write = true) ∧
    (∀ k < 4 * (twoVoices.sx 10 / 4).toNat, twoVoices.canAccess ((twoVoices.x 9).toNat + k) .write = true ∧
      (twoVoices.params.mixAddExisting = true → twoVoices.canAccess ((twoVoices.x 9).toNat + k) .read = true)) ∧
    ∀ sl ∈ twoVoices.slots, sl.active = true → ∀ f < (twoVoices.sx 10 / 4).toNat,
      let p := sl.cur.toNat + (sl.rem.toNat + f * sl.step.toNat) / 65536
      (f = 0 ∨ p < sl.endAddr.toNat) →
        twoVoices.canAccess p .read = true ∧ twoVoices.canAccess (sl.byteAfter p) .read = true := by decide +kernel

/-- The three kinds of byte, each refused: an output byte, an existing sample, and the next sample byte of the first
voice in the second frame. -/
theorem test_hyps_MmixFaults :
    (let s := { playing [(9, 0x2000), (10, 16)] with withheld := [⟨0x2001, 0x2001, false, true⟩] };
      ∃ after, (0 : Int) < s.sx 10 / 4 ∧ s.frameAccesses 0x2000 = [(0x2000, .write)] ++ (0x2001, .write) :: after ∧
        s.canAccess 0x2000 .write = true ∧ s.canAccess 0x2001 .write = false) ∧
    (let s := { playing [(9, 0x2000)] with
        params := { State.reset.params with mixAddExisting := true }, withheld := [⟨0x2000, 0x2000, true, false⟩] };
      ∃ after, s.frameAccesses 0x2000 = [(0x2000, .write), (0x2001, .write), (0x2002, .write), (0x2003, .write)] ++
          (0x2000, .read) :: after ∧
        (∀ k < 4, s.canAccess (0x2000 + k) .write = true) ∧ s.canAccess 0x2000 .read = false) ∧
    (let s := { playing [(9, 0x2000), (10, 16)] with withheld := [⟨0x100A, 0x100A, true, false⟩] };
      ∃ u, (1 : Int) < s.sx 10 / 4 ∧ State.mixFrames 1 0x2000 s = (u, none) ∧
        u.frameAccesses 0x2004 = [(0x2004, .write), (0x2005, .write), (0x2006, .write), (0x2007, .write),
          (0x1009, .read)] ++ (0x100A, .read) :: [] ∧
        (∀ k < 4, u.canAccess (0x2004 + k) .write = true) ∧ u.canAccess 0x1009 .read = true ∧
        u.canAccess 0x100A .read = false) :=
  ⟨⟨_, by decide, rfl, by decide, by decide⟩, ⟨_, rfl, by decide +kernel, by decide⟩,
    ⟨_, by decide, rfl, by decide +kernel, by decide +kernel, by decide +kernel, by decide +kernel⟩⟩

theorem test_hyps_MmixWithoutSoundWritesZeros :
    let s := given [(1, 0x2000), (2, 4)]
    (∀ sl ∈ s.slots, sl.active = false) ∧ s.params.mixAddExisting = false ∧
    (∀ a : Nat, (s.x 1).toNat ≤ a → (a : Int) < (s.x 1).toNat + 4 * (s.sx 2 / 4) → s.canAccess a .write = true) := by
  refine ⟨by decide, by decide, fun a _ h => ?_⟩
  have e : ((((given [(1, 0x2000), (2, 4)]).x 1).toNat : Int) + 4 * ((given [(1, 0x2000), (2, 4)]).sx 2 / 4)) = 8196 := by
    decide
  rw [e] at h
  simp only [State.canAccess, Bool.and_eq_true, decide_eq_true_eq]
  exact ⟨by omega, rfl⟩

/-- One frame of two voices under the partial admission, and one that adds to the existing samples. -/
theorem test_hyps_MmixOneFrame :
    (let s := twoVoices.setX 10 4;
      s.sx 10 / 4 = 1 ∧ ∀ b ∈ s.frameAccesses 0x2000, s.canAccess b.1 b.2 = true) ∧
    (let s := { playing [(10, 7)] with params := { State.reset.params with mixAddExisting := true } };
      s.sx 10 / 4 = 1 ∧ ∀ b ∈ s.frameAccesses 0xFFFFFFFC, s.canAccess b.1 b.2 = true) := by decide +kernel

theorem test_hyps_FrameSumsContributions : ∃ w, (playing []).walkSlots 0 (playing []).slots 0 0 = .ok w :=
  ⟨_, rfl⟩

/-- Four frames before END, and ten that pass it. -/
theorem test_hyps_CursorAdvancesByTheStep :
    (∃ t, exec (.mmix 9 10) (playing [(9, 0x2000), (10, 16)]) = .next t ∧ t.halted = false) ∧
    (∃ t, exec (.mmix 9 10) (playing [(9, 0x2000), (10, 40)]) = .next t ∧ t.halted = false) ∧
    (playing []).halted = false ∧ 0 < (playing []).nch ∧ ((playing []).slot 0).active = true ∧
    ((playing []).slot 0).rem = 0 ∧ voice.cur.toNat + 4 * voice.step.toNat / 65536 < voice.endAddr.toNat ∧
    voice.endAddr.toNat ≤ voice.cur.toNat + 10 * voice.step.toNat / 65536 :=
  ⟨⟨_, rfl, by decide +kernel⟩, ⟨_, rfl, by decide +kernel⟩, by decide, by decide, by decide, by decide, by decide,
    by decide⟩

theorem test_hyps_SamplesStayInTheBuffer : voice.active = true ∧ voice.Ok 1 ∧
    (∀ a, voice.base.toNat + 8 ≤ a → a ≤ voice.endAddr.toNat → Memory.get soundBytes a = (playing []).byteAt a) :=
  ⟨by decide, fun _ => by decide, fun _ _ _ => rfl⟩

theorem test_hyps_PanIsMirrored : (0 : Int) ≤ 127 ∧ (127 : Int) ≤ 127 ∧ (0 : Int) ≤ 255 ∧ (255 : Int) ≤ 255 := by decide

theorem test_hyps_StepIsTheRateRatio : 1 ≤ State.reset.outRate.toNat ∧ State.reset.pitched = false ∧
    { State.reset with pitched := true }.pitched = true ∧ State.reset.stepTab = buildStepTab State.reset.outRate ∧
    (0x180 : Word).toNat % 256 = 128 := ⟨by decide, rfl, rfl, rfl, by decide⟩

end Sys2Proof.Tests
end

section
/-! SUPPORT. The family of 00_scope.md: what every step keeps of the parameters, the channels and the event stream, and
the machine's reset state. -/

namespace Sys2Proof.Machine

/-! ### From one state to a later one: same parameters and channels, a longer event stream (R6, R52, R381) -/

/-- `t` can come after `s`: no parameter and no number of channels differs, and no event that `s` had emitted is lost
or changed. -/
structure Continues (s t : State) : Prop where
  params : t.params = s.params
  nch : t.nch = s.nch
  events : ∃ new, t.events = s.events ++ new

/-- What touches neither parameters nor slots nor events. -/
theorem Continues.of_eq {s t : State} (hp : t.params = s.params) (hs : t.slots = s.slots)
    (he : t.events = s.events) : Continues s t :=
  ⟨hp, congrArg List.length hs, [], by rw [he, List.append_nil]⟩

theorem Continues.refl (s : State) : Continues s s := .of_eq rfl rfl rfl

theorem Continues.trans {s t u : State} (h : Continues s t) (g : Continues t u) : Continues s u := by
  obtain ⟨hp, hn, new, he⟩ := h
  obtain ⟨gp, gn, later, ge⟩ := g
  exact ⟨gp.trans hp, gn.trans hn, new ++ later, by rw [ge, he, List.append_assoc]⟩

/-! ### The named updates -/

theorem setX_continues (s : State) (r : Reg) (v : Word) : Continues s (s.setX r v) := .of_eq rfl rfl rfl

theorem put_continues (s : State) (r : Reg) (v : Int) : Continues s (s.put r v) := .of_eq rfl rfl rfl

theorem putByte_continues (s : State) (a : Nat) (v : Byte) : Continues s (s.putByte a v) := .of_eq rfl rfl rfl

theorem raise_continues (s : State) (w : Word) (k : Cause) (i : Word) : Continues s (s.raise w k i) :=
  .of_eq rfl rfl rfl

theorem csrWrite_continues (s : State) (c : Csr) (v : Word) : Continues s (s.csrWrite c v) :=
  .of_eq (csrWrite_params s c v) (csrWrite_slots s c v) (csrWrite_events s c v)

theorem setSlot_continues (s : State) (c : Nat) (sl : Slot) : Continues s (s.setSlot c sl) :=
  ⟨rfl, nch_setSlot s c sl, [], (List.append_nil _).symm⟩

theorem releaseIfActive_continues (s : State) (c : Nat) : Continues s (s.releaseIfActive c) :=
  ⟨releaseIfActive_params s c, nch_releaseIfActive s c, _, events_releaseIfActive s c⟩

theorem initMixer_continues (s : State) (rate : Word) : Continues s (s.initMixer rate) :=
  ⟨rfl, List.length_replicate, _, initMixer_events s rate⟩

/-- Reset keeps the parameters and the events already emitted, and every channel, though with its slot zeroed (R381). -/
theorem resetBlock_continues (s : State) : Continues s s.resetBlock :=
  ⟨rfl, List.length_replicate, [], (List.append_nil _).symm⟩

/-- The frames of an MMIX that committed, whether or not a later one failed (R293). -/
theorem mixFrames_continues {n o : Nat} {s t : State} {e : Option Word} (h : State.mixFrames n o s = (t, e)) :
    Continues s t := by
  obtain ⟨frame, hnch, _, _, _, _, _, _, new, hevents, _⟩ := mixFrames_frame h
  exact ⟨(congrArg State.params frame :), hnch, new, hevents⟩

/-! ### Commands, host actions, steps -/

/-- Every command, its faults included. -/
theorem exec_continues {i : Instr} {s t : State} (h : exec i s = .next t) : Continues s t := by
  rcases exec_cases h with
    ⟨frame, _⟩ | ⟨rd, rs1, _, _, _, rfl⟩ | ⟨rd, rs1, _, started⟩ | ⟨rd, rs1, _, updated⟩ | ⟨rs1, ch, _, _, rfl⟩ |
      ⟨rs1, rs2, u, e, _, frames, ended⟩
  case inl => -- registers, TICK and CONFIG alone
    exact .of_eq (congrArg State.params frame :) (congrArg State.slots frame :) (congrArg State.events frame :)
  case inr.inl => -- MINIT
    exact (initMixer_continues s _).trans (put_continues _ _ _)
  case inr.inr.inl => -- MSTART
    obtain ⟨ch, srate, lv, rv, _, _, rfl⟩ | ⟨k, e, _, rfl⟩ := started
    · exact (releaseIfActive_continues s ch).trans ((setSlot_continues _ _ _).trans (put_continues _ _ _))
    · exact raise_continues s _ _ _
  case inr.inr.inr.inl => -- MUPDATE
    obtain ⟨ch, st, lv, rv, _, rfl⟩ | ⟨e, rfl⟩ := updated
    · exact (setSlot_continues s _ _).trans (put_continues _ _ _)
    · exact raise_continues s _ _ _
  case inr.inr.inr.inr.inl => -- MSTOP
    exact releaseIfActive_continues s ch
  case inr.inr.inr.inr.inr => -- MMIX
    obtain ⟨_, rfl⟩ | ⟨a, _, rfl⟩ := ended
    · exact mixFrames_continues frames
    · exact (mixFrames_continues frames).trans (raise_continues u _ _ _)

/-- A word written to CMD: ignored while halted, no command, or one command run (R348). -/
theorem issue_continues {w : Word} {s t : State} (h : issue w s = .next t) : Continues s t := by
  unfold issue at h
  split at h
  · cases h; exact .refl _
  · split at h
    · cases h; exact raise_continues s _ _ _
    · exact exec_continues h

theorem windowWrite_continues {r : WindowReg} {w : Word} {s t : State} (h : windowWrite r w s = .next t) :
    Continues s t := by
  cases r with
  | cmd => exact issue_continues h
  | csr c => cases h; exact csrWrite_continues s c w
  | reserved => cases h; exact .refl _
  | x q => cases h; exact setX_continues s q w

/-- Every action of the host that has a next state. -/
theorem perform_continues {a : HostAction} {s t : State} (h : perform a s = .next t) : Continues s t := by
  cases a with
  | windowWrite addr size w =>
    simp only [perform] at h
    split at h
    · cases h
    · exact windowWrite_continues h
  | windowRead addr size =>
    simp only [perform] at h
    split at h
    · cases h
    · cases h; exact .of_eq rfl rfl rfl
  | store addr b => cases h; exact putByte_continues s _ b
  | storeDuring w addr b =>
    simp only [perform] at h
    split at h
    · cases h; exact putByte_continues s _ b
    · cases h
  | setAdmission l => cases h; exact .of_eq rfl rfl rfl
  | reset running => cases h; exact resetBlock_continues s

/-- Without input a step is the identity (R383, log 1). -/
theorem step_of_no_input {s : State} (h : s.input = []) : step s = .next s := by simp only [step, h]

theorem step_of_input {s : State} {a : HostAction} {rest : List HostAction} (h : s.input = a :: rest) :
    step s = perform a { s with input := rest } := by simp only [step, h]

theorem step_continues {s t : State} (h : step s = .next t) : Continues s t := by
  cases hi : s.input with
  | nil => rw [step_of_no_input hi] at h; cases h; exact .refl _
  | cons a rest =>
    rw [step_of_input hi] at h
    have taken : Continues s { s with input := rest } := .of_eq rfl rfl rfl
    exact taken.trans (perform_continues h)

/-- Settles O18: every step is a `Continues`. -/
theorem stepsKeepParametersAndEvents : Obligations.StepsKeepParametersAndEvents := by
  intro s t h
  obtain ⟨hparams, hnch, hevents⟩ := step_continues h
  exact ⟨hparams, hnch, hevents⟩

/-! ### The reset state -/

/-- An entry of STEPTAB is R262's value at its pitch. -/
theorem buildStepTab_getElem (rate : Word) (p : Fin 256) : (buildStepTab rate)[p] = stepEntry rate.toNat p.val := by
  simp [buildStepTab]

/-- Every register is 0 at reset (R380). -/
theorem reset_x (r : Reg) : State.reset.x r = 0 := Vector.getElem_replicate r.isLt

/-- STEPTAB at reset is the table of the default output rate (R380, R6). -/
theorem reset_stepTab (p : Fin 256) : State.reset.stepTab[p] = stepEntry 11025 p.val :=
  buildStepTab_getElem 11025 p

/-- Settles O15: the fields of `State.reset`, and `step_of_no_input`. -/
theorem machineStartsAtReset : Obligations.MachineStartsAtReset :=
  ⟨reset_x, rfl, rfl, rfl, rfl, rfl, rfl, rfl, rfl, reset_stepTab, rfl, fun _ h => step_of_no_input h⟩

end Sys2Proof.Machine
end

section
/-! SUPPORT. The family of 10_state.md: which events a command emits for a channel, and which commands can change the
slots, the event stream and the control registers. -/

namespace Sys2Proof.Machine

/-! ### The events of a channel from one state to a later one (R46, R52, R261) -/

/-- What the events `new`, emitted from `s` to `t`, say of channel `c`. Either nothing, and then the channel did not
stop; or exactly one RELEASE with the base the channel held, and then it was active before and, if `stops`, is empty
after. `stops` fails for MSTART alone, which fills the slot again (R281). -/
def ChannelRecord (stops : Prop) (new : List Event) (s t : State) (c : Nat) : Prop :=
  (new.filter (eventOf c) = [] ∧ ((s.slot c).active = true → (t.slot c).active = true)) ∨
    ((s.slot c).active = true ∧ new.filter (eventOf c) = [.release c (s.slot c).base] ∧
      (stops → (t.slot c).active = false))

/-- The event stream only grows, and its new events are the right record of every channel. -/
def EventsRecord (stops : Prop) (s t : State) : Prop :=
  ∃ new, t.events = s.events ++ new ∧ ∀ c, ChannelRecord stops new s t c

section
variable {stops : Prop} {s t u : State}

theorem slot_of_slots_eq (h : t.slots = s.slots) (c : Nat) : t.slot c = s.slot c := by rw [State.slot, h, State.slot]

theorem SameChannels.eventsRecord (h : SameChannels s t) : EventsRecord stops s t := by
  obtain ⟨hslots, hevents⟩ := h
  exact ⟨[], by rw [hevents, List.append_nil], fun c => .inl ⟨rfl, fun ha => by rwa [slot_of_slots_eq hslots]⟩⟩

/-- What is done after the release may change anything but channels. -/
theorem EventsRecord.trans_sameChannels (h : EventsRecord stops s t) (g : SameChannels t u) :
    EventsRecord stops s u := by
  obtain ⟨new, hevents, record⟩ := h
  obtain ⟨gslots, gevents⟩ := g
  refine ⟨new, gevents.trans hevents, fun c => ?_⟩
  rw [ChannelRecord, slot_of_slots_eq gslots]
  exact record c

/-- The events of one release, of channel `ch`, if it is active: every other channel has none. -/
theorem filter_releaseIfActive (s : State) (ch c : Nat) :
    (if (s.slot ch).active then [Event.release ch (s.slot ch).base] else []).filter (eventOf c) =
      if ch = c ∧ (s.slot c).active = true then [.release c (s.slot c).base] else [] := by
  by_cases e : ch = c
  · subst e; cases (s.slot ch).active <;> simp [eventOf]
  · cases (s.slot ch).active <;> simp [eventOf, e]

/-- The right record whenever the new events are those of releasing `ch` if it is active, every other slot stays, and
`ch` is empty after where `stops` asks for it. -/
theorem eventsRecord_of_release {ch : Nat} (hevents : t.events = (s.releaseIfActive ch).events)
    (hothers : ∀ c, ch ≠ c → t.slot c = s.slot c) (hstops : stops → (t.slot ch).active = false) :
    EventsRecord stops s t := by
  refine ⟨_, hevents.trans (events_releaseIfActive s ch), fun c => ?_⟩
  rw [ChannelRecord, filter_releaseIfActive]
  by_cases e : ch = c
  · subst e
    cases ha : (s.slot ch).active with
    | true => exact .inr ⟨rfl, by simp, hstops⟩
    | false => exact .inl ⟨by simp, nofun⟩
  · exact .inl ⟨by simp [e], fun ha => by rwa [hothers c e]⟩

/-! ### The mixer commands -/

/-- MSTOP (R283). -/
theorem releaseIfActive_eventsRecord {ch : Nat} (hch : ch < s.nch) : EventsRecord stops s (s.releaseIfActive ch) :=
  eventsRecord_of_release rfl (fun c hne => by rw [slot_releaseIfActive s ch c hch, if_neg hne])
    fun _ => by rw [slot_releaseIfActive s ch ch hch, if_pos rfl]; rfl

/-- MSTART's eviction and the new sound in the same slot, which need not be empty after (R281). -/
theorem restart_eventsRecord {ch : Nat} (hch : ch < s.nch) (sl : Slot) (hstops : ¬ stops) :
    EventsRecord stops s ((s.releaseIfActive ch).setSlot ch sl) := by
  refine eventsRecord_of_release rfl (fun c hne => ?_) fun h => absurd h hstops
  rw [slot_setSlot _ _ _ _ (by rwa [nch_releaseIfActive]), if_neg hne, slot_releaseIfActive s ch c hch, if_neg hne]

/-- A rewrite of a slot that leaves its cursor, as MUPDATE's, emits nothing and stops nothing (R282). -/
theorem setSlot_eventsRecord {ch : Nat} (hch : ch < s.nch) {sl : Slot} (hcur : sl.cur = (s.slot ch).cur) :
    EventsRecord stops s (s.setSlot ch sl) := by
  refine ⟨[], (List.append_nil _).symm, fun c => .inl ⟨rfl, fun ha => ?_⟩⟩
  rw [slot_setSlot s ch c sl hch]
  split
  · next e => subst e; rwa [active_eq_true, hcur, ← active_eq_true]
  · exact ha

/-- MINIT releases every active channel and leaves them all empty (R280). -/
theorem initMixer_eventsRecord (s : State) (rate : Word) : EventsRecord stops s (s.initMixer rate) := by
  have emptied : ∀ c, (s.initMixer rate).slot c = Slot.zero := fun c => by
    rw [State.slot, initMixer_slots, List.getD_eq_getElem?_getD, List.getElem?_replicate]
    split <;> rfl
  have events : ∀ c, (releasesFrom 0 s.slots).filter (eventOf c) =
      if (s.slot c).active = true then [.release c (s.slot c).base] else [] := fun c => by
    rw [releasesFrom_filter]; simp [State.slot]
  refine ⟨_, initMixer_events s rate, fun c => ?_⟩
  rw [ChannelRecord, events, emptied]
  cases (s.slot c).active with
  | true => exact .inr ⟨rfl, rfl, fun _ => rfl⟩
  | false => exact .inl ⟨rfl, nofun⟩

/-- The frames of an MMIX that committed (R290, R293). -/
theorem mixFrames_eventsRecord {n o : Nat} {e : Option Word} (h : State.mixFrames n o s = (t, e)) :
    EventsRecord stops s t := by
  obtain ⟨_, _, _, _, _, _, _, _, new, hevents, record⟩ := mixFrames_frame h
  refine ⟨new, hevents, fun c => ?_⟩
  rcases record c with ⟨silent, same⟩ | ⟨was, isEmpty, released⟩
  · exact .inl ⟨silent, fun ha => same ▸ ha⟩
  · exact .inr ⟨was, released, fun _ => isEmpty⟩

end

/-! ### Every command -/

/-- Every command's new events are the right record of every channel; what they release is empty after, unless the
command is MSTART. -/
theorem exec_eventsRecord {i : Instr} {s t : State} (h : exec i s = .next t) :
    EventsRecord (∀ rd rs1, i ≠ .mstart rd rs1) s t := by
  rcases exec_cases h with
    ⟨frame, _⟩ | ⟨rd, rs1, _, _, _, rfl⟩ | ⟨rd, rs1, rfl, started⟩ | ⟨rd, rs1, _, updated⟩ | ⟨rs1, ch, _, hch, rfl⟩ |
      ⟨rs1, rs2, u, e, _, frames, ended⟩
  case inl => -- registers, TICK and CONFIG alone
    exact SameChannels.eventsRecord ⟨(congrArg State.slots frame :), (congrArg State.events frame :)⟩
  case inr.inl => -- MINIT
    exact (initMixer_eventsRecord s (s.x rs1)).trans_sameChannels ⟨rfl, rfl⟩
  case inr.inr.inl => -- MSTART
    obtain ⟨ch, srate, lv, rv, hch, _, rfl⟩ | ⟨k, e, _, rfl⟩ := started
    · obtain ⟨_, inRange⟩ := channel_eq_some.1 hch
      exact (restart_eventsRecord inRange _ fun no => no rd rs1 rfl).trans_sameChannels ⟨rfl, rfl⟩
    · exact SameChannels.eventsRecord ⟨rfl, rfl⟩
  case inr.inr.inr.inl => -- MUPDATE
    obtain ⟨ch, st, lv, rv, hch, rfl⟩ | ⟨e, rfl⟩ := updated
    · obtain ⟨_, inRange⟩ := channel_eq_some.1 hch
      exact (setSlot_eventsRecord inRange (sl := { s.slot ch with step := st, lvol := lv, rvol := rv })
        rfl).trans_sameChannels ⟨rfl, rfl⟩
    · exact SameChannels.eventsRecord ⟨rfl, rfl⟩
  case inr.inr.inr.inr.inl => -- MSTOP
    obtain ⟨_, inRange⟩ := channel_eq_some.1 hch
    exact releaseIfActive_eventsRecord inRange
  case inr.inr.inr.inr.inr => -- MMIX
    obtain ⟨_, rfl⟩ | ⟨a, _, rfl⟩ := ended
    · exact mixFrames_eventsRecord frames
    · exact (mixFrames_eventsRecord frames).trans_sameChannels ⟨rfl, rfl⟩

/-- Settles O20: the three clauses are read off the channel's record. -/
theorem releasesMatchStops : Obligations.ReleasesMatchStops := by
  intro i s t h
  obtain ⟨new, hevents, record⟩ := exec_eventsRecord h
  refine ⟨new, hevents, fun c => ?_⟩
  rcases record c with ⟨silent, stays⟩ | ⟨was, released, isEmpty⟩
  · exact ⟨.inl silent, fun ha hb => absurd (stays ha) (by simp [hb]), fun _ spoke => absurd silent spoke⟩
  · exact ⟨.inr ⟨was, released⟩, fun _ _ => by simp [released], fun notStart _ => isEmpty notStart⟩

/-! ### What a command can write besides registers and memory (R34, R38, R39, R41, R260) -/

/-- MSTART, MUPDATE, MSTOP and MMIX: the commands that can change slots and events, and no control register. -/
def WritesChannelsOnly (i : Instr) : Prop :=
  ∃ rd rs1, i = .mstart rd rs1 ∨ i = .mupdate rd rs1 ∨ i = .mstop rd ∨ i = .mmix rd rs1

theorem mixFrames_sameControl {n o : Nat} {s t : State} {e : Option Word} (h : State.mixFrames n o s = (t, e)) :
    SameControl s t ∧ SameHostSide s t := by
  obtain ⟨frame, _⟩ := mixFrames_frame h
  rw [frame]
  exact ⟨⟨rfl, rfl, rfl, rfl⟩, rfl, rfl, rfl, rfl⟩

/-- The three kinds of next state: registers, and TICK and CONFIG by CSRW alone; MINIT's, which keeps TICK and CONFIG;
and that of a command that writes channels only. A fault is of the last kind (R341). -/
theorem exec_writes {i : Instr} {s t : State} (h : exec i s = .next t) :
    (SameChannels s t ∧ (t.outRate = s.outRate ∧ t.stepTab = s.stepTab) ∧
        ((∀ c rs1, i ≠ .csrw c rs1) → t.tick = s.tick ∧ t.pitched = s.pitched) ∧ SameHostSide s t) ∨
      ((∃ rd rs1, i = .minit rd rs1) ∧ (t.tick = s.tick ∧ t.pitched = s.pitched) ∧ SameHostSide s t) ∨
      (WritesChannelsOnly i ∧ SameControl s t ∧ SameHostSide s t) := by
  rcases exec_cases h with
    ⟨frame, control⟩ | ⟨rd, rs1, hi, _, _, rfl⟩ | ⟨rd, rs1, hi, started⟩ | ⟨rd, rs1, hi, updated⟩ |
      ⟨rs1, ch, hi, _, rfl⟩ | ⟨rs1, rs2, u, e, hi, frames, ended⟩
  case inl => -- registers, TICK and CONFIG alone
    refine .inl ⟨?_, ?_, control, ?_⟩ <;> rw [frame]
    · exact ⟨rfl, rfl⟩
    · exact ⟨rfl, rfl⟩
    · exact ⟨rfl, rfl, rfl, rfl⟩
  case inr.inl => -- MINIT
    exact .inr (.inl ⟨⟨rd, rs1, hi⟩, ⟨rfl, rfl⟩, rfl, rfl, rfl, rfl⟩)
  case inr.inr.inl => -- MSTART
    refine .inr (.inr ⟨⟨rd, rs1, .inl hi⟩, ?_⟩)
    obtain ⟨ch, srate, lv, rv, _, _, rfl⟩ | ⟨k, e, _, rfl⟩ := started
    · simp [SameControl, SameHostSide]
    · simp [SameControl, SameHostSide]
  case inr.inr.inr.inl => -- MUPDATE
    refine .inr (.inr ⟨⟨rd, rs1, .inr (.inl hi)⟩, ?_⟩)
    obtain ⟨ch, st, lv, rv, _, rfl⟩ | ⟨e, rfl⟩ := updated
    · simp [SameControl, SameHostSide]
    · simp [SameControl, SameHostSide]
  case inr.inr.inr.inr.inl => -- MSTOP
    refine .inr (.inr ⟨⟨rs1, rs1, .inr (.inr (.inl hi))⟩, ?_⟩)
    simp [SameControl, SameHostSide]
  case inr.inr.inr.inr.inr => -- MMIX
    refine .inr (.inr ⟨⟨rs1, rs2, .inr (.inr (.inr hi))⟩, ?_⟩)
    obtain ⟨control, host⟩ := mixFrames_sameControl frames
    obtain ⟨_, rfl⟩ | ⟨a, _, rfl⟩ := ended
    · exact ⟨control, host⟩
    · exact ⟨control, host⟩ -- the fault record is in neither

/-- Settles O23: the three kinds of `exec_writes`. -/
theorem writersOfMixerAndControl : Obligations.WritersOfMixerAndControl := by
  intro i s t h
  rcases exec_writes h with
    ⟨channels, rates, control, host⟩ | ⟨⟨rd, rs1, hi⟩, control, host⟩ |
      ⟨⟨rd, rs1, hi⟩, ⟨tick, outRate, pitched, stepTab⟩, host⟩
  · exact ⟨fun _ => channels, fun _ => rates, control, host⟩
  · exact ⟨fun no => absurd hi (no rd rs1).1, fun no => absurd hi (no rd rs1), fun _ => control, host⟩
  · refine ⟨fun no => ?_, fun _ => ⟨outRate, stepTab⟩, fun _ => ⟨tick, pitched⟩, host⟩
    obtain ⟨_, notStart, notUpdate, notStop, notMix⟩ := no rd rs1
    rcases hi with hi | hi | hi | hi
    · exact absurd hi notStart
    · exact absurd hi notUpdate
    · exact absurd hi notStop
    · exact absurd hi notMix

end Sys2Proof.Machine
end

section
/-! SUPPORT. The family of 20_memory.md: which commands see data memory and admission, and the host's own accesses. -/

namespace Sys2Proof.Machine

/-! ### The same state over other data: another memory and another admission (R50, R60) -/

/-- `s` with memory `m` and withheld ranges `d`, everything else the same. -/
def State.withData (s : State) (m : Memory) (d : List Withheld) : State := { s with mem := m, withheld := d }

section
variable (s : State) (m : Memory) (d : List Withheld)

/-! What a command reads besides the data port does not see the data, and what it writes besides the data port keeps
it. -/

@[simp] theorem withData_x (r : Reg) : (s.withData m d).x r = s.x r := rfl
@[simp] theorem withData_sx (r : Reg) : (s.withData m d).sx r = s.sx r := rfl
@[simp] theorem withData_startArgs (r : Reg) : (s.withData m d).startArgs r = s.startArgs r := rfl
@[simp] theorem withData_channel (r : Reg) : (s.withData m d).channel r = s.channel r := rfl
@[simp] theorem withData_newSlot (a : StartArgs) (srate : Half) (lv rv : Fin 128) :
    (s.withData m d).newSlot a srate lv rv = s.newSlot a srate lv rv := rfl
@[simp] theorem withData_put (r : Reg) (v : Int) : (s.withData m d).put r v = (s.put r v).withData m d := rfl
@[simp] theorem withData_putVec (r : Reg) (v : Vec3) :
    (s.withData m d).putVec r v = (s.putVec r v).withData m d := rfl
@[simp] theorem withData_setSlot (c : Nat) (sl : Slot) :
    (s.withData m d).setSlot c sl = (s.setSlot c sl).withData m d := rfl
@[simp] theorem withData_csrWrite (c : Csr) (v : Word) :
    (s.withData m d).csrWrite c v = (s.csrWrite c v).withData m d := by cases c <;> rfl
@[simp] theorem withData_releaseIfActive (c : Nat) :
    (s.withData m d).releaseIfActive c = (s.releaseIfActive c).withData m d :=
  (apply_ite (State.withData · m d) ((s.slot c).active = true) (s.releaseSlot c) s).symm

end

section
variable {s t : State} {m : Memory} {d : List Withheld}

theorem withData_of_withheld_eq (h : t.withheld = d) : t.withData m d = { t with mem := m } := by subst h; rfl

/-! ### The data port over another memory -/

/-- A read through the port depends on admission and on the byte at its address alone (R60). -/
theorem portRead_withData {a : Nat} (h : Memory.get m a = s.byteAt a) :
    (s.withData m s.withheld).portRead a = s.portRead a := by
  have byte : (s.withData m s.withheld).byteAt a = s.byteAt a := h
  have access : (s.withData m s.withheld).canAccess a .read = s.canAccess a .read := rfl
  rw [State.portRead, byte, access, State.portRead]

/-- A two-byte read depends on its two bytes alone (R62). -/
theorem portRead2_withData {a : Nat} (h0 : Memory.get m a = s.byteAt a)
    (h1 : Memory.get m (a + 1) = s.byteAt (a + 1)) :
    (s.withData m s.withheld).portRead2 a = s.portRead2 a := by
  rw [State.portRead2, portRead_withData h0, portRead_withData h1, State.portRead2]

/-! ### The commands over other data (R61) -/

/-- MINIT releases and rebuilds without the data port (R280). -/
theorem execMinit_withData {rd rs1 : Reg} (h : execMinit rd rs1 s = .next t) :
    execMinit rd rs1 (s.withData m d) = .next (t.withData m d) := by
  by_cases illegal : (s.x rs1).toNat < 1 ∨ 65535 < (s.x rs1).toNat
  · simp only [execMinit, withData_x, illegal, ↓reduceIte] at h ⊢; cases h; rfl
  · simp only [execMinit, withData_x, illegal, ↓reduceIte] at h ⊢; cases h; rfl

/-- MSTART sees of the data what its header read gives, and nothing else (R281). -/
theorem execMstart_withData {rd rs1 : Reg}
    (header : (s.withData m d).portRead2 ((s.startArgs rs1).base.toNat + 2) =
      s.portRead2 ((s.startArgs rs1).base.toNat + 2))
    (h : execMstart rd rs1 s = .next t) : execMstart rd rs1 (s.withData m d) = .next (t.withData m d) := by
  simp only [execMstart, withData_startArgs, withData_channel, header] at h ⊢
  cases hch : s.channel rs1 with
  | none => simp only [hch] at h; cases h; rfl
  | some ch =>
    simp only [hch] at h ⊢
    split at h
    · next refused => cases h; rw [if_pos refused]; rfl
    · next playable =>
      rw [if_neg playable]
      cases hread : s.portRead2 ((s.startArgs rs1).base.toNat + 2) with
      | error e => simp only [hread] at h; cases h; rfl
      | ok srate =>
        simp only [hread] at h ⊢
        cases hpan : volPan (s.startArgs rs1).vol (s.startArgs rs1).sep with
        | error info => simp only [hpan] at h; cases h; rfl
        | ok rows =>
          simp only [hpan] at h
          cases h
          simp only [withData_newSlot, withData_releaseIfActive, withData_setSlot, withData_put]

/-- MUPDATE computes its rows and its step from registers, slot and tables (R282). -/
theorem execMupdate_withData {rd rs1 : Reg} (h : execMupdate rd rs1 s = .next t) :
    execMupdate rd rs1 (s.withData m d) = .next (t.withData m d) := by
  simp only [execMupdate, withData_channel, withData_sx] at h ⊢
  cases hch : s.channel rs1 with
  | none => simp only [hch] at h; cases h; rfl
  | some ch =>
    simp only [hch] at h ⊢
    cases hpan : volPan (s.sx (rs1 + 1)) (s.sx (rs1 + 2)) with
    | error info => simp only [hpan] at h; cases h; rfl
    | ok rows => simp only [hpan] at h; cases h; rfl

theorem execMstop_withData {rs1 : Reg} (h : execMstop rs1 s = .next t) :
    execMstop rs1 (s.withData m d) = .next (t.withData m d) := by
  cases hch : s.channel rs1 <;>
    (simp only [execMstop, withData_channel, hch, withData_releaseIfActive] at h ⊢; cases h; rfl)

theorem execMquery_withData {rd rs1 : Reg} (h : execMquery rd rs1 s = .next t) :
    execMquery rd rs1 (s.withData m d) = .next (t.withData m d) := by
  cases hch : s.channel rs1 <;> (simp only [execMquery, withData_channel, hch] at h ⊢; cases h; rfl)

theorem execMinfo_withData {rd rs1 : Reg} (h : execMinfo rd rs1 s = .next t) :
    execMinfo rd rs1 (s.withData m d) = .next (t.withData m d) := by
  cases hch : s.channel rs1 <;> (simp only [execMinfo, withData_channel, hch] at h ⊢; cases h; rfl)

/-- Every command but MSTART and MMIX does the same over any data: the mixer commands that branch on a channel, a rate
or a volume by their lemmas, CSRW by its write; the others only compute from registers and slots and write registers,
the vector commands a triple of them. -/
theorem exec_withData {i : Instr} (notStart : ∀ rd rs1, i ≠ .mstart rd rs1) (notMix : ∀ rs1 rs2, i ≠ .mmix rs1 rs2)
    (h : exec i s = .next t) : exec i (s.withData m d) = .next (t.withData m d) := by
  cases i
  case mstart rd rs1 => exact absurd rfl (notStart rd rs1)
  case mmix rs1 rs2 => exact absurd rfl (notMix rs1 rs2)
  case minit => exact execMinit_withData h
  case mupdate => exact execMupdate_withData h
  case mstop => exact execMstop_withData h
  case mquery => exact execMquery_withData h
  case minfo => exact execMinfo_withData h
  case csrw c rs1 => cases h; exact congrArg Host.Outcome.next (withData_csrWrite s m d c _)
  case vadd rd rs1 rs2 => cases h; exact congrArg Host.Outcome.next (withData_putVec s m d rd _)
  case vsub rd rs1 rs2 => cases h; exact congrArg Host.Outcome.next (withData_putVec s m d rd _)
  case vscale rd rs1 rs2 => cases h; exact congrArg Host.Outcome.next (withData_putVec s m d rd _)
  case vcross rd rs1 rs2 => cases h; exact congrArg Host.Outcome.next (withData_putVec s m d rd _)
  case vnorm rd rs1 => cases h; exact congrArg Host.Outcome.next (withData_putVec s m d rd _)
  all_goals (cases h; rfl)

/-- A command that over `s`'s own data does as over any other keeps that data: the state it reaches has the data it was
given. -/
theorem keepsData_of_withData {i : Instr} (h : exec i s = .next t)
    (own : exec i (s.withData s.mem s.withheld) = .next (t.withData s.mem s.withheld)) :
    t.mem = s.mem ∧ t.withheld = s.withheld := by
  have same : (.next t : Result) = .next (t.withData s.mem s.withheld) := h.symm.trans own
  injection same with same
  exact ⟨(congrArg State.mem same :), (congrArg State.withheld same :)⟩

end

/-- Settles O22: `exec_withData`, `execMstart_withData` for a header of the same two bytes, and both over the state's
own data for what they keep. -/
theorem onlyTwoCommandsUseThePort : Obligations.OnlyTwoCommandsUseThePort := by
  refine ⟨fun i s t m d notStart notMix h => ?_, fun rd rs1 s t m h low high => ?_⟩
  · obtain ⟨hmem, _⟩ := keepsData_of_withData h (exec_withData notStart notMix h)
    exact ⟨byteAt_of_mem_eq hmem, exec_withData notStart notMix h⟩
  · obtain ⟨hmem, hwithheld⟩ := keepsData_of_withData h (execMstart_withData rfl h)
    have other : exec (.mstart rd rs1) (s.withData m s.withheld) = .next (t.withData m s.withheld) :=
      execMstart_withData (portRead2_withData low high) h
    exact ⟨byteAt_of_mem_eq hmem, other.trans (congrArg _ (withData_of_withheld_eq hwithheld))⟩

/-! ### Accesses of the host (R72, R360; logs 6 and 7) -/

/-- Off alignment or past the window's 32 words there is no window word (R360). -/
theorem windowReg_eq_none {off : Nat} (h : off % 4 ≠ 0 ∨ 0x80 ≤ off) : windowReg off = none := if_pos h

/-- An access that is not an aligned 32-bit word of the window has no target (R360). -/
theorem windowTarget_eq_none {s : State} {addr : Word} {size : AccessSize}
    (h : size ≠ .word ∨ (addr - s.params.qfxBase).toNat % 4 ≠ 0 ∨ 0x80 ≤ (addr - s.params.qfxBase).toNat) :
    s.windowTarget addr size = none := by
  cases size with
  | word => exact windowReg_eq_none (h.resolve_left fun ne => ne rfl)
  | half => rfl
  | byte => rfl

theorem perform_windowWrite_of_no_target {s : State} {addr : Word} {size : AccessSize} (w : Word)
    (h : s.windowTarget addr size = none) : perform (.windowWrite addr size w) s = .refused .undefinedWindowAccess := by
  simp only [perform, h]

theorem perform_windowRead_of_no_target {s : State} {addr : Word} {size : AccessSize}
    (h : s.windowTarget addr size = none) : perform (.windowRead addr size) s = .refused .undefinedWindowAccess := by
  simp only [perform, h]

theorem perform_storeDuring_of_running {s : State} (w addr : Word) (b : Byte) (h : s.halted = false) :
    perform (.storeDuring w addr b) s = .fault .hostStoreRace := by
  simp [perform, h]

/-- Settles O13: an access without a target, a stored byte by `byteAt_putByte`, and the race. -/
theorem otherHostActions : Obligations.OtherHostActions := by
  refine ⟨fun s addr size w rest undefined access => ?_, fun s addr b rest hi => ?_,
    fun s w addr b rest running hi => ?_⟩
  · have target : { s with input := rest }.windowTarget addr size = none := windowTarget_eq_none undefined
    rcases access with write | read
    · rw [step_of_input write, perform_windowWrite_of_no_target w target]
    · rw [step_of_input read, perform_windowRead_of_no_target target]
  · exact ⟨_, step_of_input hi, rfl, byteAt_putByte { s with input := rest } addr.toNat b⟩
  · exact (step_of_input hi).trans (perform_storeDuring_of_running w addr b running)

end Sys2Proof.Machine
end

section
/-! SUPPORT. The family of 30_encoding.md: a word as its fields, the command of a word, decoding check by check, and the
rows of the opcode table. A word is rebuilt from the fields its shape uses (`keepUsed`): that is the reserved-field rule,
and it is the encoding of the word's command. -/

namespace Sys2Proof.Machine

/-! ### A word is its fields (R91, R92, R93) -/

theorem opcField_eq (w : Word) : opcField w = w.toNat / 2 ^ 24 % 256 := bits_eq w 31 24

theorem rdField_val (w : Word) : (rdField w).val = w.toNat / 2 ^ 20 % 16 := by
  simp [rdField, bits_eq]

theorem rs1Field_val (w : Word) : (rs1Field w).val = w.toNat / 2 ^ 16 % 16 := by
  simp [rs1Field, bits_eq]

theorem rs2Field_val (w : Word) : (rs2Field w).val = w.toNat / 2 ^ 12 % 16 := by
  simp [rs2Field, bits_eq]

theorem imm8Field_toNat (w : Word) : (imm8Field w).toNat = w.toNat % 256 := by
  simp [imm8Field, bits_eq]

theorem imm16Field_toNat (w : Word) : (imm16Field w).toNat = w.toNat % 65536 := by
  simp [imm16Field, bits_eq]

/-- The word with the fields of `w` that the shape uses and 0 in every other field (R94). -/
def keepUsed (sh : Shape) (w : Word) : Word :=
  match sh with
  | .dst => encR (opcField w) (rdField w) (rs1Field w) (rs2Field w) 0
  | .ds => encR (opcField w) (rdField w) (rs1Field w) 0 0
  | .dsi => encR (opcField w) (rdField w) (rs1Field w) 0 (imm8Field w).toNat
  | .d => encR (opcField w) (rdField w) 0 0 0
  | .s => encR (opcField w) 0 (rs1Field w) 0 0
  | .st => encR (opcField w) 0 (rs1Field w) (rs2Field w) 0
  | .di => encR (opcField w) (rdField w) 0 0 (imm8Field w).toNat
  | .si => encR (opcField w) 0 (rs1Field w) 0 (imm8Field w).toNat
  | .imm => encI (opcField w) (rdField w) (imm16Field w).toNat

/-- A word has 0 in every field its shape does not use exactly when it is no more than the fields used. -/
theorem keepUsed_eq_iff (sh : Shape) (w : Word) : keepUsed sh w = w ↔ unusedFieldsZero sh w := by
  have hw := w.isLt
  rw [← BitVec.toNat_inj]
  cases sh <;>
    simp only [keepUsed, encR, encI, unusedFieldsZero, BitVec.toNat_ofNat, bits_eq, opcField_eq, rdField_val,
      rs1Field_val, rs2Field_val, imm8Field_toNat, imm16Field_toNat] <;>
    omega

/-- R96's mask rule is R94's list of the fields required to be 0. -/
theorem reservedFieldsZero_iff_unused (sh : Shape) (w : Word) :
    reservedFieldsZero sh w = true ↔ unusedFieldsZero sh w := by
  rw [reservedFieldsZero_iff]
  cases sh <;> simp only [Shape.requiredZero, unusedFieldsZero, bits_eq] <;> omega

/-- The command read from a word's fields is encoded as the fields that the shape of its opcode uses (R94, R95). -/
theorem encode_of_commandOf {w : Word} {i : Instr} (h : commandOf w = some i) :
    ∃ sh, opcodeShape (opcField w) = some sh ∧ encode i = keepUsed sh w := by
  unfold commandOf at h
  split at h
  case h_31 opc => -- CSRR
    obtain ⟨c, hc, rfl⟩ := Option.map_eq_some_iff.1 h
    exact ⟨.di, by rw [opc]; rfl, by rw [keepUsed, opc, ← Csr.number_of_ofNumber hc]; rfl⟩
  case h_32 opc => -- CSRW
    obtain ⟨c, hc, rfl⟩ := Option.map_eq_some_iff.1 h
    exact ⟨.si, by rw [opc]; rfl, by rw [keepUsed, opc, ← Csr.number_of_ofNumber hc]; rfl⟩
  case h_41 => cases h -- a reserved opcode
  all_goals -- the command's operands are the fields its shape uses
    next opc =>
    cases h
    exact ⟨_, by rw [opc]; rfl, by rw [keepUsed, opc]; rfl⟩

/-- Reading the fields of a command's word gives the command back, whatever its operands. -/
theorem commandOf_encode : ∀ i : Instr, commandOf (encode i) = some i
  | .sincos rd rs1 acc => Laws.FieldsOfEncode.sincos rd rs1 acc
  | .tan rd rs1 => Laws.FieldsOfEncode.tan rd rs1
  | .asin rd rs1 => Laws.FieldsOfEncode.asin rd rs1
  | .acos rd rs1 => Laws.FieldsOfEncode.acos rd rs1
  | .atan rd rs1 => Laws.FieldsOfEncode.atan rd rs1
  | .atan2 rd rs1 rs2 => Laws.FieldsOfEncode.atan2 rd rs1 rs2
  | .pow rd rs1 rs2 => Laws.FieldsOfEncode.pow rd rs1 rs2
  | .exp rd rs1 => Laws.FieldsOfEncode.exp rd rs1
  | .log rd rs1 rs2 => Laws.FieldsOfEncode.log rd rs1 rs2
  | .pow2 rd rs1 rs2 => Laws.FieldsOfEncode.pow2 rd rs1 rs2
  | .log2 rd rs1 => Laws.FieldsOfEncode.log2 rd rs1
  | .sqrt rd rs1 => Laws.FieldsOfEncode.sqrt rd rs1
  | .sqrtq rd rs1 q => Laws.FieldsOfEncode.sqrtq rd rs1 q
  | .fadd rd rs1 rs2 => Laws.FieldsOfEncode.fadd rd rs1 rs2
  | .fsub rd rs1 rs2 => Laws.FieldsOfEncode.fsub rd rs1 rs2
  | .fmul rd rs1 rs2 => Laws.FieldsOfEncode.fmul rd rs1 rs2
  | .fdiv rd rs1 rs2 => Laws.FieldsOfEncode.fdiv rd rs1 rs2
  | .sadd16 rd rs1 rs2 => Laws.FieldsOfEncode.sadd16 rd rs1 rs2
  | .ssub16 rd rs1 rs2 => Laws.FieldsOfEncode.ssub16 rd rs1 rs2
  | .smul16 rd rs1 rs2 => Laws.FieldsOfEncode.smul16 rd rs1 rs2
  | .sat16 rd rs1 => Laws.FieldsOfEncode.sat16 rd rs1
  | .vadd rd rs1 rs2 => Laws.FieldsOfEncode.vadd rd rs1 rs2
  | .vsub rd rs1 rs2 => Laws.FieldsOfEncode.vsub rd rs1 rs2
  | .vscale rd rs1 rs2 => Laws.FieldsOfEncode.vscale rd rs1 rs2
  | .vdot rd rs1 rs2 => Laws.FieldsOfEncode.vdot rd rs1 rs2
  | .vcross rd rs1 rs2 => Laws.FieldsOfEncode.vcross rd rs1 rs2
  | .vnorm rd rs1 => Laws.FieldsOfEncode.vnorm rd rs1
  | .li rd imm => Laws.FieldsOfEncode.li rd imm
  | .lih rd imm => Laws.FieldsOfEncode.lih rd imm
  | .mov rd rs1 => Laws.FieldsOfEncode.mov rd rs1
  | .csrr rd csr => Laws.FieldsOfEncode.csrr rd csr
  | .csrw csr rs1 => Laws.FieldsOfEncode.csrw csr rs1
  | .minit rd rs1 => Laws.FieldsOfEncode.minit rd rs1
  | .mstart rd rs1 => Laws.FieldsOfEncode.mstart rd rs1
  | .mupdate rd rs1 => Laws.FieldsOfEncode.mupdate rd rs1
  | .mstop rs1 => Laws.FieldsOfEncode.mstop rs1
  | .mquery rd rs1 => Laws.FieldsOfEncode.mquery rd rs1
  | .many rd => Laws.FieldsOfEncode.many rd
  | .mmix rs1 rs2 => Laws.FieldsOfEncode.mmix rs1 rs2
  | .minfo rd rs1 => Laws.FieldsOfEncode.minfo rd rs1

/-! ### The operand checks (R98, R99) -/

/-- The numbers of the control registers are 0..6 (R34). -/
theorem exists_csr {n : Nat} (h : n ≤ 6) : ∃ c, Csr.ofNumber n = some c ∧ c.number = n := by
  have named : (Csr.ofNumber n).isSome := by interval_cases n <;> rfl
  obtain ⟨c, hc⟩ := Option.isSome_iff_exists.1 named
  exact ⟨c, hc, Csr.number_of_ofNumber hc⟩

theorem ofNumber_le {n : Nat} {c : Csr} (h : Csr.ofNumber n = some c) : n ≤ 6 := by
  rw [← Csr.number_of_ofNumber h]
  cases c <;> decide

theorem ofNumber_of_gt {n : Nat} (h : 6 < n) : Csr.ofNumber n = none :=
  Option.eq_none_iff_forall_ne_some.2 fun _ hc => absurd (ofNumber_le hc) (by omega)

/-- R99's table is what the register-group check says. -/
theorem groupsOk_iff {i : Instr} : i.groupsOk = true ↔ ¬pastX15 i := by
  cases i <;> simp [Instr.groupsOk, pastX15, groupFits] <;> omega

theorem wellFormed_iff {i : Instr} : i.wellFormed = true ↔ i.immediateOk = true ∧ i.groupsOk = true := by
  simp [Instr.wellFormed]

/-- A word whose opcode is in the map has a command, if the IMM8 of CSRR and CSRW names a control register. -/
theorem exists_commandOf {w : Word} {sh : Shape} (h : opcodeShape (opcField w) = some sh)
    (hcsr : opcField w = 0x38 ∨ opcField w = 0x39 → (imm8Field w).toNat ≤ 6) : ∃ i, commandOf w = some i := by
  unfold opcodeShape at h
  split at h
  case h_31 opc => -- CSRR
    obtain ⟨c, hc, _⟩ := exists_csr (hcsr (.inl opc))
    exact ⟨.csrr (rdField w) c, by simp [commandOf, opc, hc]⟩
  case h_32 opc => -- CSRW
    obtain ⟨c, hc, _⟩ := exists_csr (hcsr (.inr opc))
    exact ⟨.csrw c (rs1Field w), by simp [commandOf, opc, hc]⟩
  case h_41 => cases h -- a reserved opcode
  all_goals
    next opc =>
    simp only [commandOf, opc, Option.some.injEq, exists_eq']

/-! ### Decoding, check by check (R100) -/

section
variable {w : Word} {sh : Shape} {i : Instr}

theorem decode_of_no_shape (h : opcodeShape (opcField w) = none) : decode w = .error .reservedOpcode := by
  simp only [decode, h]

theorem decode_of_reserved (h : opcodeShape (opcField w) = some sh) (hz : ¬unusedFieldsZero sh w) :
    decode w = .error .reservedField := by
  rw [← reservedFieldsZero_iff_unused, Bool.not_eq_true] at hz
  simp only [decode, h, hz, if_true]

theorem decode_of_no_command (h : opcodeShape (opcField w) = some sh) (hz : unusedFieldsZero sh w)
    (hc : commandOf w = none) : decode w = .error .immediateRange := by
  rw [← reservedFieldsZero_iff_unused] at hz
  simp [decode, h, hz, hc]

/-- A word of the map with its unused fields 0 is judged by the operands of its command. -/
theorem decode_of_command (h : opcodeShape (opcField w) = some sh) (hz : unusedFieldsZero sh w)
    (hc : commandOf w = some i) :
    decode w = if i.immediateOk = false then .error .immediateRange
      else if i.groupsOk = false then .error .registerGroup else .ok i := by
  rw [← reservedFieldsZero_iff_unused] at hz
  simp [decode, h, hz, hc]

/-- The word of a command passes the first two checks and is judged by the command's operands. -/
theorem decode_encode (i : Instr) :
    decode (encode i) = if i.immediateOk = false then .error .immediateRange
      else if i.groupsOk = false then .error .registerGroup else .ok i := by
  obtain ⟨sh, hsh, kept⟩ := encode_of_commandOf (commandOf_encode i)
  exact decode_of_command hsh ((keepUsed_eq_iff sh _).1 kept.symm) (commandOf_encode i)

theorem decode_encode_of_wellFormed (h : i.wellFormed = true) : decode (encode i) = .ok i := by
  obtain ⟨hi, hg⟩ := wellFormed_iff.1 h
  simp [decode_encode, hi, hg]

theorem decode_encode_of_immediate (h : i.immediateOk = false) : decode (encode i) = .error .immediateRange := by
  rw [decode_encode, if_pos h]

/-- A word is decoded exactly when it passes the checks, and then to the command of its fields. -/
theorem decode_eq_ok_iff :
    decode w = .ok i ↔ (∃ sh, opcodeShape (opcField w) = some sh ∧ unusedFieldsZero sh w) ∧
      commandOf w = some i ∧ i.wellFormed = true := by
  constructor
  · intro h
    cases hsh : opcodeShape (opcField w) with
    | none => rw [decode_of_no_shape hsh] at h; cases h
    | some sh =>
      by_cases hz : unusedFieldsZero sh w
      case neg => rw [decode_of_reserved hsh hz] at h; cases h
      case pos =>
        cases hc : commandOf w with
        | none => rw [decode_of_no_command hsh hz hc] at h; cases h
        | some j =>
          rw [decode_of_command hsh hz hc] at h
          split at h
          case isTrue => cases h
          split at h
          case isTrue => cases h
          cases h
          exact ⟨⟨sh, rfl, hz⟩, rfl, by simp_all [wellFormed_iff]⟩
  · rintro ⟨⟨sh, hsh, hz⟩, hc, hwf⟩
    obtain ⟨hi, hg⟩ := wellFormed_iff.1 hwf
    simp [decode_of_command hsh hz hc, hi, hg]

/-- A legal word is the word of its command. -/
theorem encode_of_decode (h : decode w = .ok i) : encode i = w := by
  obtain ⟨⟨sh, hsh, hz⟩, hc, _⟩ := decode_eq_ok_iff.1 h
  obtain ⟨sh', hsh', kept⟩ := encode_of_commandOf hc
  obtain rfl : sh = sh' := Option.some.inj (hsh.symm.trans hsh')
  exact kept.trans ((keepUsed_eq_iff sh w).2 hz)

end

/-- CSRR of a number that names no control register (R98). -/
theorem decode_csrr_of_gt (rd : Reg) {v : Byte} (hv : 6 < v.toNat) :
    decode (encR 0x38 rd 0 0 v.toNat) = .error .immediateRange := by
  obtain ⟨opc, hrd, _, _, himm⟩ := fields_encR (opc := 0x38) rd 0 0 (by decide) v.isLt
  rw [Fin.val_zero] at opc hrd himm
  refine decode_of_no_command (sh := .di) (by rw [opc]; rfl) ((keepUsed_eq_iff _ _).1 ?_) ?_
  · simp [keepUsed, opc, hrd, himm]
  · simp [commandOf, opc, himm, ofNumber_of_gt hv]

/-- CSRW to a number that names no control register (R98). -/
theorem decode_csrw_of_gt (rs1 : Reg) {v : Byte} (hv : 6 < v.toNat) :
    decode (encR 0x39 0 rs1 0 v.toNat) = .error .immediateRange := by
  obtain ⟨opc, _, hrs1, _, himm⟩ := fields_encR (opc := 0x39) 0 rs1 0 (by decide) v.isLt
  rw [Fin.val_zero] at opc hrs1 himm
  refine decode_of_no_command (sh := .si) (by rw [opc]; rfl) ((keepUsed_eq_iff _ _).1 ?_) ?_
  · simp [keepUsed, opc, hrs1, himm]
  · simp [commandOf, opc, himm, ofNumber_of_gt hv]

/-! ### The opcode table -/

/-- The OPC of a row of the opcode table. -/
def OpcodeRow.opcode (r : OpcodeRow) : Nat := opcField r.value

/-- The fields of a word lie within the limits of a row (R98, R99). -/
def OpcodeRow.InLimits (r : OpcodeRow) (w : Word) : Prop :=
  (rdField w).val ≤ r.rdMax ∧ (rs1Field w).val ≤ r.rs1Max ∧ (rs2Field w).val ≤ r.rs2Max ∧
    (imm8Field w).toNat ≤ r.imm8Max

/-- No two rows share an opcode. -/
theorem opcodes_nodup : (opcodeRows.map OpcodeRow.opcode).Nodup := by decide

/-- Every row has the mask of its opcode's shape (R94) and its opcode, shifted, as its match. -/
theorem row_shape : ∀ row ∈ opcodeRows, (opcodeShape row.opcode).map Shape.mask = some row.mask ∧
    row.value = BitVec.ofNat 32 (row.opcode <<< 24) := by decide

/-- A mask keeps OPC. -/
theorem opcField_and_mask (sh : Shape) (w : Word) : opcField (w &&& sh.mask) = opcField w := by
  have top : sh.mask.toNat >>> 24 = 2 ^ 8 - 1 := by cases sh <;> rfl
  rw [opcField, bits, BitVec.toNat_and, Nat.shiftRight_and_distrib, top, Nat.and_two_pow_sub_one_eq_mod]
  simp [opcField, bits]

/-- A row accepts the words of its opcode whose unused fields are 0 and whose other fields are within its limits. -/
theorem row_accepts_iff {row : OpcodeRow} (hrow : row ∈ opcodeRows) (w : Word) :
    row.accepts w = true ↔ (opcField w = row.opcode ∧
      ∃ sh, opcodeShape row.opcode = some sh ∧ unusedFieldsZero sh w) ∧ row.InLimits w := by
  obtain ⟨hmask, hvalue⟩ := row_shape row hrow
  obtain ⟨sh, hsh, hm⟩ := Option.map_eq_some_iff.1 hmask
  have masked : w &&& row.mask = row.value ↔ opcField w = row.opcode ∧ unusedFieldsZero sh w := by
    rw [← reservedFieldsZero_iff_unused, reservedFieldsZero, beq_iff_eq, hm]
    constructor
    · intro e
      have opc : opcField w = row.opcode := by rw [← opcField_and_mask sh w, hm, e]; rfl
      exact ⟨opc, by rw [opc, e, hvalue]⟩
    · rintro ⟨opc, e⟩
      rw [e, opc, hvalue]
  simp [OpcodeRow.accepts, OpcodeRow.InLimits, masked, hsh, and_assoc]

/-- A command's row stands in the table at the place of its constructor, and the row's limits on the word's fields are
the operand checks of the command (R98, R99). -/
theorem commandOf_row {w : Word} {i : Instr} (h : commandOf w = some i) :
    ∃ row, opcodeRows[i.ctorIdx]? = some row ∧ row.opcode = opcField w ∧
      (row.InLimits w ↔ i.wellFormed = true) := by
  have hrd := (rdField w).isLt
  have hrs1 := (rs1Field w).isLt
  have hrs2 := (rs2Field w).isLt
  have himm := (imm8Field w).isLt
  unfold commandOf at h
  split at h
  case h_31 opc => -- CSRR: the register has a number, so IMM8 is at most 6
    obtain ⟨c, hc, rfl⟩ := Option.map_eq_some_iff.1 h
    have hmax := ofNumber_le hc
    refine ⟨_, rfl, opc.symm, ?_⟩
    simp [OpcodeRow.InLimits, wellFormed_iff, Instr.immediateOk, groupsOk_iff, pastX15]
    omega
  case h_32 opc => -- CSRW
    obtain ⟨c, hc, rfl⟩ := Option.map_eq_some_iff.1 h
    have hmax := ofNumber_le hc
    refine ⟨_, rfl, opc.symm, ?_⟩
    simp [OpcodeRow.InLimits, wellFormed_iff, Instr.immediateOk, groupsOk_iff, pastX15]
    omega
  case h_41 => cases h -- a reserved opcode
  all_goals -- the row's limits are the checks of the command's own operands
    next opc =>
    cases h
    refine ⟨_, rfl, opc.symm, ?_⟩
    simp [OpcodeRow.InLimits, wellFormed_iff, Instr.immediateOk, groupsOk_iff, pastX15]
    omega

/-- OPC decides the constructor, because no two rows share an opcode (R102). -/
theorem opcField_eq_iff {w w' : Word} {i i' : Instr} (h : commandOf w = some i) (h' : commandOf w' = some i') :
    opcField w = opcField w' ↔ i.ctorIdx = i'.ctorIdx := by
  obtain ⟨row, hrow, opc, _⟩ := commandOf_row h
  obtain ⟨row', hrow', opc', _⟩ := commandOf_row h'
  have at_i : (opcodeRows.map OpcodeRow.opcode)[i.ctorIdx]? = some (opcField w) := by
    rw [List.getElem?_map, hrow, Option.map_some, opc]
  have at_i' : (opcodeRows.map OpcodeRow.opcode)[i'.ctorIdx]? = some (opcField w') := by
    rw [List.getElem?_map, hrow', Option.map_some, opc']
  constructor
  · intro e
    exact (List.getElem?_inj (List.getElem?_eq_some_iff.1 at_i).1 opcodes_nodup).1 (by rw [at_i, at_i', e])
  · intro e
    rw [e, at_i'] at at_i
    exact (Option.some.inj at_i).symm

/-- The rows of CSRR and CSRW limit IMM8 to the numbers of the control registers (R98). -/
theorem csr_rows : ∀ row ∈ opcodeRows, row.opcode = 0x38 ∨ row.opcode = 0x39 → row.imm8Max = 6 := by decide

theorem row_eq_of_opcode {r r' : OpcodeRow} (h : r ∈ opcodeRows) (h' : r' ∈ opcodeRows)
    (e : r.opcode = r'.opcode) : r = r' := List.inj_on_of_nodup_map opcodes_nodup h h' e

end Sys2Proof.Machine
end

section
/-! SUPPORT. The statements of 30_encoding.md: decoding against encoding and against the opcode table, and what an
illegal word does. -/

namespace Sys2Proof.Machine

/-! ### Issuing a word (R100, R340, R348) -/

/-- A word that fails a decode check halts a running block (R100, R340, R341). -/
theorem issue_illegal {w : Word} {e : DecodeError} {s : State} (h : decode w = .error e) (running : s.halted = false) :
    ∃ t, issue w s = .next t ∧ HaltedBy w .illegalCommand 0 s t :=
  ⟨_, by simp only [issue, running, h, Bool.false_eq_true, if_false], raise_haltedBy s w _ 0⟩

/-- A host write at QFX_BASE + 0 issues the word (R360). -/
theorem perform_cmdWrite {s t : State} (w : Word) (h : t.params = s.params) :
    perform (s.cmdWrite w) t = issue w t := by
  simp [perform, State.cmdWrite, State.windowTarget, h, windowReg, windowWrite]

/-- SINCOS writes both results of SINCOS_F and nothing else (R130). -/
theorem sincos_completes (rd rs1 : Reg) (acc : Byte) (s : State) :
    CompletesWith2 (.sincos rd rs1 acc) s rd (toWord (sincosF (s.sx rs1) (iterationCount acc)).1)
      (toWord (sincosF (s.sx rs1) (iterationCount acc)).2) := by
  obtain ⟨apart, _⟩ := group_ne rd
  exact ⟨_, rfl, by rw [x_put_of_ne _ apart.symm, x_put_self], x_put_self _ _ _,
    (put_onlyRegs s rd _).trans (put_onlyRegs _ (rd + 1) _)⟩

/-- SQRTQ takes IMM8 as the Q-factor (R181). -/
theorem sqrtq_completes (rd rs1 : Reg) (q : Byte) (s : State) :
    CompletesWith (.sqrtq rd rs1 q) s rd (toWord (sqrtqF (s.sx rs1) q.toNat)) :=
  ⟨_, rfl, x_put_self s rd _, put_onlyRegs s rd _⟩

/-! ### The statements -/

/-- Settles O1: the first two checks pass because the word is its used fields, the other two by hypothesis. -/
theorem decodeOfEncode : Obligations.DecodeOfEncode := fun _ => decode_encode_of_wellFormed

/-- Settles O2: a legal word is `encode` of its command, and OPC decides the row. -/
theorem legalWordsHaveOneCommand : Obligations.LegalWordsHaveOneCommand := by
  refine ⟨fun w i h => ⟨(decode_eq_ok_iff.1 h).2.2, encode_of_decode h⟩,
    fun w w' i h h' => (encode_of_decode h).symm.trans (encode_of_decode h'), fun w w' i i' h h' => ?_⟩
  obtain ⟨_, hc, _⟩ := decode_eq_ok_iff.1 h
  obtain ⟨_, hc', _⟩ := decode_eq_ok_iff.1 h'
  exact opcField_eq_iff hc hc'

/-- Settles O3: a legal word is of its command's row; a word of a row has a command, and that row is the command's. -/
theorem legalWordsMatchTheTable : Obligations.LegalWordsMatchTheTable := by
  intro w
  constructor
  · rintro ⟨i, h⟩
    obtain ⟨⟨sh, hsh, hz⟩, hc, hwf⟩ := decode_eq_ok_iff.1 h
    obtain ⟨row, hrow, opc, limits⟩ := commandOf_row hc
    have mem := List.mem_of_getElem? hrow
    exact ⟨row, mem, (row_accepts_iff mem w).2 ⟨⟨opc.symm, sh, opc ▸ hsh, hz⟩, limits.2 hwf⟩⟩
  · rintro ⟨row, mem, h⟩
    obtain ⟨⟨opc, sh, hsh, hz⟩, inLimits⟩ := (row_accepts_iff mem w).1 h
    rw [← opc] at hsh
    obtain ⟨i, hc⟩ := exists_commandOf hsh fun csr => by
      obtain ⟨_, _, _, himm⟩ := inLimits
      rwa [csr_rows row mem (opc ▸ csr)] at himm
    obtain ⟨row', hrow', opc', limits⟩ := commandOf_row hc
    obtain rfl := row_eq_of_opcode mem (List.mem_of_getElem? hrow') (opc.symm.trans opc'.symm)
    exact ⟨i, decode_eq_ok_iff.2 ⟨⟨sh, hsh, hz⟩, hc, limits.1 inLimits⟩⟩

/-- Settles O4: the mask rule is `reservedFieldsZero`, and a word that breaks it fails the second check. -/
theorem reservedFieldsAreZero : Obligations.ReservedFieldsAreZero := by
  intro w sh hsh
  refine ⟨?_, fun broken s running => ?_⟩
  · rw [← reservedFieldsZero_iff_unused, reservedFieldsZero, beq_iff_eq, Nat.shiftLeft_eq]
  · exact issue_illegal (decode_of_reserved hsh broken) running

/-- Settles O5: the words are encodings of commands, or name no control register. -/
theorem immediateLimits : Obligations.ImmediateLimits := by
  refine ⟨fun rd rs1 v => ?ranges, fun rd rs1 v s => ?meanings, fun _ _ _ => issue_illegal⟩
  case ranges =>
    refine ⟨fun above => ?_, fun inRange hrd => ?_, fun above => ?_, fun inRange => ?_, fun above => ?_,
      fun inRange => ?_⟩
    · exact decode_encode_of_immediate (i := .sincos rd rs1 v) (by simpa [Instr.immediateOk] using above)
    · have fits : (Instr.sincos rd rs1 v).groupsOk = true := groupsOk_iff.2 (by simpa [pastX15] using hrd)
      exact decode_encode_of_wellFormed (i := .sincos rd rs1 v)
        (wellFormed_iff.2 ⟨by simpa [Instr.immediateOk] using inRange, fits⟩)
    · exact decode_encode_of_immediate (i := .sqrtq rd rs1 v) (by simpa [Instr.immediateOk] using above)
    · exact decode_encode_of_wellFormed (i := .sqrtq rd rs1 v)
        (wellFormed_iff.2 ⟨by simpa [Instr.immediateOk] using inRange, rfl⟩)
    · exact ⟨decode_csrr_of_gt rd above, decode_csrw_of_gt rs1 above⟩
    · obtain ⟨c, _, number⟩ := exists_csr inRange
      rw [← number]
      exact ⟨c, rfl, decode_encode_of_wellFormed (i := .csrr rd c) rfl,
        decode_encode_of_wellFormed (i := .csrw c rs1) rfl⟩
  case meanings =>
    refine ⟨fun nonzero => ?_, ?_, sqrtq_completes rd rs1 v s⟩
    · simpa only [iterationCount, if_neg nonzero] using sincos_completes rd rs1 v s
    · have same : iterationCount 0 = iterationCount 30 := rfl
      simp only [exec, execSincos, same]

/-- Settles O6: with its immediates in range, a command's word is judged by the register-group check alone. -/
theorem registerGroupsEndAtX15 : Obligations.RegisterGroupsEndAtX15 := by
  intro i hi
  rw [decode_encode]
  by_cases past : pastX15 i
  · have hg : i.groupsOk = false := Bool.eq_false_iff.2 fun ok => groupsOk_iff.1 ok past
    simp [hi, hg, past]
  · simp [hi, groupsOk_iff.2 past, past]

/-- Settles O7: thirteen closed words, evaluated. -/
theorem specWordsDecode : Obligations.SpecWordsDecode := by
  unfold Obligations.SpecWordsDecode
  decide

/-- Settles O9: the step issues the word on the state whose input has lost the write. -/
theorem illegalWordHaltsTheBlock : Obligations.IllegalWordHaltsTheBlock := by
  intro s w rest e running input illegal
  have issued : step s = issue w { s with input := rest } := (step_of_input input).trans (perform_cmdWrite w rfl)
  rw [issued]
  exact issue_illegal illegal running

end Sys2Proof.Machine
end

section
/-! SUPPORT. The family of 40_cordic.md: the functions of the CORDIC unit by cases, the digit-by-digit square root that
the arcsine takes (R180), and what the commands write. -/

namespace Sys2Proof.Machine

/-! ### Sine and cosine (R123) -/

theorem sincosF_zero (N : Nat) : sincosF 0 N = (0, 65536) := if_pos rfl

theorem clamp_mem {lo hi : Int} (h : lo ≤ hi) (v : Int) : lo ≤ clamp v lo hi ∧ clamp v lo hi ≤ hi :=
  ⟨le_min h (le_max_left lo v), min_le_left hi _⟩

/-- Each component is 1.0, 0, or up to its sign a value that has been clamped to [-1.0, 1.0]. -/
theorem sincosF_bounds (θ : Int) (N : Nat) :
    (-65536 ≤ (sincosF θ N).1 ∧ (sincosF θ N).1 ≤ 65536) ∧ -65536 ≤ (sincosF θ N).2 ∧ (sincosF θ N).2 ≤ 65536 := by
  have clamped : ∀ v, -65536 ≤ clamp v (-65536) 65536 ∧ clamp v (-65536) 65536 ≤ 65536 := clamp_mem (by decide)
  have negated : ∀ v, -65536 ≤ -clamp v (-65536) 65536 ∧ -clamp v (-65536) 65536 ≤ 65536 := fun v => by
    obtain ⟨low, high⟩ := clamped v
    omega
  by_cases zero : θ = 0
  case pos => simp [zero, sincosF_zero]
  case neg =>
    simp only [sincosF, if_neg zero]
    split
    case h_1 => exact ⟨clamped _, clamped _⟩
    case h_2 => exact ⟨clamped _, negated _⟩
    case h_3 => exact ⟨negated _, negated _⟩
    case h_4 => exact ⟨negated _, clamped _⟩

/-- Away from the fast path at 0 the angle counts only through its remainder by TWO_PI16. -/
theorem sincosF_congr {θ φ : Int} (hθ : θ ≠ 0) (hφ : φ ≠ 0) (h : θ % twoPi16 = φ % twoPi16) (N : Nat) :
    sincosF θ N = sincosF φ N := by
  simp only [sincosF, if_neg hθ, if_neg hφ, h]

/-! ### The tangent (R124) -/

/-- A rotation with early stop and no angle left to turn by stays where it is (R121). -/
theorem rotate_early_zero (x y : Int) (W n : Nat) : rotate x y 0 W n true = (x, y) := by
  cases n <;> simp [rotate, rotateFrom]

theorem tanF_zero : tanF 0 = 0 := by
  have reduced : tanReduced 0 = 0 := by simp [tanReduced, shr_eq, rotate_early_zero, truncDiv]
  simp [tanF, reduced, halfPi16]

/-- The reduction sees the angle's magnitude alone, so the angle's sign becomes the tangent's. -/
theorem tanF_of_neg {θ : Int} (h : θ < 0) : tanF θ = -tanF (-θ) := by
  have nonneg : ¬ -θ < 0 := by omega
  by_cases mirrored : halfPi16 ≤ (θ.natAbs : Int) % pi16 <;>
    simp only [tanF, Int.natAbs_neg, h, nonneg, mirrored] <;> simp

theorem tanF_neg (θ : Int) : tanF (-θ) = -tanF θ := by
  rcases lt_trichotomy θ 0 with below | rfl | above
  · rw [tanF_of_neg below, neg_neg]
  · simp [tanF_zero]
  · rw [tanF_of_neg (by omega : -θ < 0), neg_neg]

/-- A non-negative angle counts only through its remainder by PI16. -/
theorem tanF_congr {θ φ : Int} (hθ : 0 ≤ θ) (hφ : 0 ≤ φ) (h : θ % pi16 = φ % pi16) : tanF θ = tanF φ := by
  simp only [tanF, Int.natAbs_of_nonneg hθ, Int.natAbs_of_nonneg hφ, h, not_lt_of_ge hθ, not_lt_of_ge hφ]

/-! ### The square root by digits (R180) -/

/-- With `k` digits to come, `r` the root so far and `n` what is left of the radicand `r * r + n`, the accumulator holds
`r * 2 ^ k`; a digit is set exactly when the square of the root with it still fits. -/
theorem isqrtSteps_eq_sqrt (k : Nat) : ∀ n r : Nat, r * r + n < (r + 2 ^ k) * (r + 2 ^ k) →
    isqrtSteps k n (r * 2 ^ k) (4 ^ k / 4) = Nat.sqrt (r * r + n) := by
  induction k with
  | zero =>
    intro n r upper
    rw [isqrtSteps, pow_zero, mul_one]
    exact Nat.eq_sqrt.2 ⟨Nat.le_add_right _ _, upper⟩
  | succ k ih =>
    intro n r upper
    have weight : 4 ^ k = 2 ^ k * 2 ^ k := mul_pow 2 2 k
    have bit : 4 ^ (k + 1) / 4 = 4 ^ k := by rw [pow_succ, Nat.mul_div_cancel _ (by decide)]
    have half : r * 2 ^ (k + 1) / 2 = r * 2 ^ k := by rw [pow_succ, ← mul_assoc, Nat.mul_div_cancel _ (by decide)]
    have square : (r + 2 ^ k) * (r + 2 ^ k) = r * r + (r * 2 ^ (k + 1) + 4 ^ k) := by rw [weight]; ring
    rw [isqrtSteps, bit, half]
    split
    case isTrue fits =>
      have root : r * 2 ^ k + 4 ^ k = (r + 2 ^ k) * 2 ^ k := by rw [weight, add_mul]
      have radicand : (r + 2 ^ k) * (r + 2 ^ k) + (n - (r * 2 ^ (k + 1) + 4 ^ k)) = r * r + n := by omega
      have bound : r + 2 ^ k + 2 ^ k = r + 2 ^ (k + 1) := by ring
      rw [root, ih _ (r + 2 ^ k) (by rwa [radicand, bound]), radicand]
    case isFalse tooLarge => exact ih n r (by omega)

/-- Sixteen digits give the root of every word (R180). -/
theorem isqrt32_eq_sqrt {n : Nat} (h : n < 2 ^ 32) : isqrt32 n = Nat.sqrt n := by
  have steps := isqrtSteps_eq_sqrt 16 n 0 (by omega)
  simpa [isqrt32] using steps

/-! ### Arcsine, arccosine and arctangent (R125 to R127) -/

/-- `tq` divides by a power of two, rounding toward zero (R12). -/
theorem tq_eq (a : Int) (s : Nat) : tq a s = Int.tdiv a (2 ^ s) := by rw [tq, truncDiv, shl_eq, one_mul]

theorem asinF_of_gt {v : Int} (h : 65536 < v.natAbs) : asinF v = sentinel := if_pos h

theorem acosF_of_gt {v : Int} (h : 65536 < v.natAbs) : acosF v = sentinel := if_pos h

theorem acosF_of_le {v : Int} (h : ¬65536 < v.natAbs) : acosF v = 102944 - asinF v := if_neg h

theorem asinF_of_le {v : Int} (h : ¬65536 < v.natAbs) :
    asinF v = vectoring (Nat.sqrt (2 ^ 28 - (Int.tdiv v 4).natAbs ^ 2)) (Int.tdiv v 4) 14 14 * 4 := by
  have radicand : ∀ u : Int, (268435456 - u * u).toNat = 2 ^ 28 - u.natAbs ^ 2 := fun u => by
    have square : u * u = (u.natAbs ^ 2 : Nat) := by rw [Nat.cast_pow, Int.natAbs_sq, sq]
    omega
  have small : ∀ m : Nat, 2 ^ 28 - m < 2 ^ 32 := fun m => by omega
  have quarter : tq v 2 = Int.tdiv v 4 := tq_eq v 2
  simp only [asinF, if_neg h, quarter, radicand, isqrt32_eq_sqrt (small _)]
  exact shl_eq _ 2

theorem vectoring_zero (x : Int) (W n : Nat) : vectoring x 0 W n = 0 := by
  cases n <;> simp [vectoring, vectorFrom]

theorem atanF_of_gt {t : Int} (h : 0x04000000 < t) : atanF t = 102944 := if_pos h

theorem atanF_of_lt {t : Int} (h : t < -0x04000000) : atanF t = -102944 := by
  have notAbove : ¬atanTMax < t := by rw [atanTMax]; omega
  rw [atanF, if_neg notAbove]
  exact if_pos h

theorem atanF_of_mem {t : Int} (hmax : ¬0x04000000 < t) (hmin : ¬t < -0x04000000) :
    atanF t = vectoring 1024 (Int.tdiv t 64) 10 10 * 64 := by
  have inQ10 : tq t 6 = Int.tdiv t 64 := tq_eq t 6
  rw [atanF, atanTMax, atanTMin, if_neg hmax, if_neg hmin, inQ10]
  exact shl_eq _ 6

/-- R136: an argument below 64 has no digit left in Q10. -/
theorem atanF_of_small {t : Int} (h : t.natAbs < 64) : atanF t = 0 := by
  have truncated : Int.tdiv t 64 = 0 :=
    Int.natAbs_eq_zero.1 ((Int.natAbs_tdiv t 64).trans (Nat.div_eq_of_lt h))
  rw [atanF_of_mem (by omega) (by omega), truncated, vectoring_zero, zero_mul]

/-! ### What the commands write -/

theorem sx_eq_zero_iff {s : State} {r : Reg} : s.sx r = 0 ↔ s.x r = 0 :=
  ⟨fun h => BitVec.eq_of_toInt_eq h, fun h => congrArg BitVec.toInt h⟩

/-- A command that narrows one value into its register completes with that word, and changes nothing else. -/
theorem completesWith_of_put {i : Instr} {s : State} {rd : Reg} {v : Int} (h : exec i s = .next (s.put rd v)) :
    CompletesWith i s rd (toWord v) :=
  ⟨_, h, x_put_self s rd v, put_onlyRegs s rd v⟩

/-- The sentinel's pattern is odd. -/
theorem toWord_mul_four_ne_sentinel (k : Int) : toWord (k * 4) ≠ 0xFFFFFFFF := by
  intro h
  have value : (k * 4 % 4294967296).toNat = 4294967295 := by
    simpa [toWord, BitVec.toNat_ofInt] using congrArg BitVec.toNat h
  omega

end Sys2Proof.Machine
end

section
/-! SUPPORT. The statements of 40_cordic.md: SINCOS, the tangent commands, ASIN and ACOS, and the oddness that R127
remarks. -/

namespace Sys2Proof.Machine

/-- Settles O25: every component is clamped, and TWO_PI16 does not change the remainder by TWO_PI16. -/
theorem sincosRangeAndPeriod : Obligations.SincosRangeAndPeriod := by
  intro θ N
  obtain ⟨⟨sinLow, sinHigh⟩, cosLow, cosHigh⟩ := sincosF_bounds θ N
  exact ⟨⟨sinLow, sinHigh, cosLow, cosHigh⟩,
    fun nonzero shifted => sincosF_congr shifted nonzero (Int.add_emod_right θ twoPi16) N⟩

/-- Settles O27: the sign passes through, and PI16 does not change the remainder by PI16. -/
theorem tangentIsOddAndPeriodic : Obligations.TangentIsOddAndPeriodic :=
  ⟨tanF_neg, fun θ nonneg => tanF_congr (by omega) nonneg (Int.add_emod_right θ pi16)⟩

/-- Settles O28: both angles are multiples of 4, as HALF_PI16 is, so neither is the sentinel. -/
theorem asinAndAcosAddToHalfPi : Obligations.AsinAndAcosAddToHalfPi := by
  intro rd rs1 s
  refine ⟨decode_encode_of_wellFormed (i := .asin rd rs1) rfl,
    decode_encode_of_wellFormed (i := .acos rd rs1) rfl, ?_⟩
  have asin : CompletesWith (.asin rd rs1) s rd (toWord (asinF (s.sx rs1))) := completesWith_of_put rfl
  have acos : CompletesWith (.acos rd rs1) s rd (toWord (acosF (s.sx rs1))) := completesWith_of_put rfl
  split
  case isTrue beyond =>
    rw [asinF_of_gt beyond, toWord_sentinel] at asin
    rw [acosF_of_gt beyond, toWord_sentinel] at acos
    exact ⟨asin, acos⟩
  case isFalse within =>
    have angle := asinF_of_le within
    refine ⟨_, _, asin, acos, congrArg toWord angle, ?_, ?_, ?_⟩
    · rw [acosF_of_le within, toWord, toWord, ← BitVec.ofInt_add, add_sub_cancel]
      rfl
    · rw [angle]
      exact toWord_mul_four_ne_sentinel _
    · have fourfold : ∀ k : Int, 102944 - k * 4 = (25736 - k) * 4 := fun k => by ring
      rw [acosF_of_le within, angle, fourfold]
      exact toWord_mul_four_ne_sentinel _

/-- Settles O24: a register is 0 as a word exactly when it is as an angle, where SINCOS_F is (0, 1.0). -/
theorem sincosWritesThePair : Obligations.SincosWritesThePair := by
  intro rd rs1 acc s
  obtain ⟨ranges, _⟩ := immediateLimits
  obtain ⟨_, legal, _⟩ := ranges rd rs1 acc
  refine ⟨fun hrd hacc => legal hacc hrd, ?_⟩
  have pair := sincos_completes rd rs1 acc s
  by_cases zero : s.x rs1 = 0
  case pos =>
    rw [sx_eq_zero_iff.2 zero, sincosF_zero] at pair
    rw [if_pos zero, if_pos zero]
    exact pair
  case neg =>
    rw [if_neg zero, if_neg zero]
    exact pair

/-- Settles O26: the clauses of ATAN are those of ATAN_F, and ATAN2 divides unless an argument is 0. -/
theorem tangentCommandsComplete : Obligations.TangentCommandsComplete := by
  intro rd rs1 rs2 s
  refine ⟨decode_encode_of_wellFormed (i := .tan rd rs1) rfl, completesWith_of_put rfl,
    decode_encode_of_wellFormed (i := .atan rd rs1) rfl, ?atan,
    decode_encode_of_wellFormed (i := .atan2 rd rs1 rs2) rfl, ?atan2⟩
  case atan =>
    have atan : CompletesWith (.atan rd rs1) s rd (toWord (atanF (s.sx rs1))) := completesWith_of_put rfl
    split_ifs with above below small
    · rwa [atanF_of_gt above] at atan
    · rwa [atanF_of_lt below] at atan
    · rwa [atanF_of_small small] at atan
    · rwa [atanF_of_mem above below] at atan
  case atan2 =>
    have atan2 : CompletesWith (.atan2 rd rs1 rs2) s rd (toWord (atan2F (s.sx rs1) (s.sx rs2))) :=
      completesWith_of_put rfl
    simp only [atan2F, sx_eq_zero_iff] at atan2
    split_ifs with zero
    · rwa [if_pos zero] at atan2
    · rwa [if_neg zero] at atan2

/-- Refutes O29: by R122's floor shifts 256 gives 192 and -256 gives -320. -/
theorem not_arctangentIsOdd : ¬ Obligations.ArctangentIsOdd := by
  intro odd
  have positive : atanF 256 = 192 := by decide
  have negative : atanF (-256) = -320 := by decide
  have mirrored := odd 256
  rw [positive, negative] at mirrored
  exact absurd mirrored (by decide)

end Sys2Proof.Machine
end

section
/-! SUPPORT. The family of 41_powlog_sqrt.md: the table interpolation, POW2_F and LOG2_F over it, the special cases of
POW_F and LOG_F, the square root in every Q-factor, and what the commands write. -/

namespace Sys2Proof.Machine

/-! ### Interpolating in a table (R162) -/

theorem interpolate_eq (tab : List Int) (i : Nat) (a : Int) :
    interpolate tab i a = tab.getD i 0 * 65536 - sat16 (tab.getD i 0 - tab.getD (i + 1) 0) * a * 2 :=
  congrArg (· - _) (shl_eq _ 16)

/-- Saturation keeps the sign of a difference, so between rising entries more weight gives more. -/
theorem interpolate_mono {tab : List Int} {i : Nat} (rising : tab.getD i 0 ≤ tab.getD (i + 1) 0) {a b : Int}
    (h : a ≤ b) : interpolate tab i a ≤ interpolate tab i b := by
  have falls : sat16 (tab.getD i 0 - tab.getD (i + 1) 0) ≤ 0 := by
    simp only [sat16, clamp, fMin, fMax]
    omega
  have product := mul_le_mul_of_nonpos_left h falls
  rw [interpolate_eq, interpolate_eq]
  omega

/-- In a table of 32 rising steps the values at the ends of each step bound the ones within it. -/
theorem interpolate_mem {tab : List Int} {low high top : Int}
    (steps : ∀ i < 32, tab.getD i 0 ≤ tab.getD (i + 1) 0 ∧ low ≤ interpolate tab i 0 ∧ interpolate tab i top ≤ high)
    {i : Nat} (hi : i < 32) {a : Int} (nonneg : 0 ≤ a) (below : a ≤ top) :
    low ≤ interpolate tab i a ∧ interpolate tab i a ≤ high := by
  obtain ⟨rising, first, last⟩ := steps i hi
  exact ⟨first.trans (interpolate_mono rising nonneg), (interpolate_mono rising below).trans last⟩

/-! ### The rounding shift -/

theorem roundShift_succ (v : Int) (s : Nat) : roundShift v (s + 1) = (v / 2 ^ s + 1) / 2 := by
  rw [roundShift, if_neg (Nat.succ_ne_zero s), shr_eq, shr_eq, pow_one, Nat.add_sub_cancel]

theorem roundShift_bounds {v : Int} (h : 1 ≤ v) (s : Nat) : 0 ≤ roundShift v s ∧ roundShift v s ≤ v := by
  cases s with
  | zero =>
    rw [roundShift_zero]
    omega
  | succ s =>
    have low : 0 ≤ v / 2 ^ s := Int.ediv_nonneg (by omega) (by positivity)
    have high : v / 2 ^ s ≤ v := Int.ediv_le_self _ (by omega)
    rw [roundShift_succ]
    omega

theorem roundShift_two_pow (k s : Nat) : roundShift (2 ^ (k + s)) s = 2 ^ k := by
  cases s with
  | zero => exact roundShift_zero _
  | succ s =>
    have split : (2 : Int) ^ (k + (s + 1)) = 2 ^ k * 2 * 2 ^ s := by ring
    rw [roundShift_succ, split, Int.mul_ediv_cancel _ (by positivity)]
    omega

/-- The highest bit of a value below 2^31 decides the rounding by 31 places. -/
theorem roundShift_31 {v : Int} (low : 2 ^ 30 ≤ v) (high : v < 2 ^ 31) : roundShift v 31 = 1 := by
  rw [roundShift_succ]
  omega

theorem roundShift_of_gt_31 {v : Int} (nonneg : 0 ≤ v) (high : v < 2 ^ 31) {s : Nat} (h : 31 < s) :
    roundShift v s = 0 := by
  obtain ⟨k, rfl⟩ := Nat.exists_eq_add_of_lt h
  have divisor : (2 : Int) ^ 31 ≤ 2 ^ (31 + k) := pow_le_pow_right₀ (by decide) (by omega)
  rw [roundShift_succ, Int.ediv_eq_zero_of_lt nonneg (by omega)]
  rfl

/-! ### POW2_F (R163) -/

/-- R163's L, the Q30 mantissa of a fraction. -/
def pow2Mantissa (f : Int) : Int := interpolate pow2Tab (f % 32768 / 1024).toNat (f % 1024 * 32)

theorem pow2F_of_gt {e : Int} (h : 30 < e) (f : Int) : pow2F e f = -1 := if_pos h

theorem pow2F_of_le {e : Int} (h : e ≤ 30) (f : Int) : pow2F e f = roundShift (pow2Mantissa f) (30 - e).toNat := by
  have weight : f % 32768 % 1024 = f % 1024 := Int.emod_emod_of_dvd f (by decide)
  simp only [pow2F, if_neg (not_lt.2 h), shr_eq, shl_eq, weight]
  rfl

/-- Only the low 15 bits of the fraction count (R164). -/
theorem pow2F_emod (e f : Int) : pow2F e (f % 32768) = pow2F e f := by
  simp only [pow2F, Int.emod_emod_of_dvd f (dvd_refl 32768)]

theorem pow2Tab_steps : ∀ i < 32, pow2Tab.getD i 0 ≤ pow2Tab.getD (i + 1) 0 ∧
    1073741824 ≤ interpolate pow2Tab i 0 ∧ interpolate pow2Tab i 32736 ≤ 2147373248 := by decide

theorem pow2Mantissa_mem (f : Int) : 1073741824 ≤ pow2Mantissa f ∧ pow2Mantissa f ≤ 2147373248 :=
  interpolate_mem pow2Tab_steps (by omega) (by omega) (by omega)

theorem pow2Mantissa_of_zero {f : Int} (h : f % 32768 = 0) : pow2Mantissa f = 2 ^ 30 := by
  have weight : f % 1024 = 0 := by omega
  rw [pow2Mantissa, h, weight]
  decide

theorem pow2F_bounds {e : Int} (h : e ≤ 30) (f : Int) : 0 ≤ pow2F e f ∧ pow2F e f ≤ 2147373248 := by
  obtain ⟨low, high⟩ := pow2Mantissa_mem f
  obtain ⟨nonneg, le⟩ := roundShift_bounds (v := pow2Mantissa f) (by omega) (30 - e).toNat
  rw [pow2F_of_le h]
  exact ⟨nonneg, le.trans high⟩

theorem pow2F_of_fraction_zero {e f : Int} (nonneg : 0 ≤ e) (h : e ≤ 30) (hf : f % 32768 = 0) :
    pow2F e f = 2 ^ e.toNat := by
  have places : e.toNat + (30 - e).toNat = 30 := by omega
  have shifted := roundShift_two_pow e.toNat (30 - e).toNat
  rw [places] at shifted
  rw [pow2F_of_le h, pow2Mantissa_of_zero hf, shifted]

theorem pow2F_neg_one (f : Int) : pow2F (-1) f = 1 := by
  obtain ⟨low, high⟩ := pow2Mantissa_mem f
  rw [pow2F_of_le (by decide)]
  exact roundShift_31 (by omega) (by omega)

theorem pow2F_of_lt_neg_one {e : Int} (h : e < -1) (f : Int) : pow2F e f = 0 := by
  obtain ⟨low, high⟩ := pow2Mantissa_mem f
  rw [pow2F_of_le (by omega)]
  exact roundShift_of_gt_31 (by omega) (by omega) (by omega)

/-! ### LOG2_F (R165) -/

/-- R165's xn: the input shifted left until its highest bit is bit 30. -/
def normalized (x : Nat) : Nat := x * 2 ^ (30 - Nat.log2 x)

theorem log2_le_30 {x : Nat} (pos : 0 < x) (h : x < 2 ^ 31) : Nat.log2 x ≤ 30 :=
  Nat.le_of_lt_succ ((Nat.log2_lt pos.ne').2 h)

theorem normalized_mem {x : Nat} (pos : 0 < x) (h : x < 2 ^ 31) : 2 ^ 30 ≤ normalized x ∧ normalized x < 2 ^ 31 := by
  have exponent := log2_le_30 pos h
  constructor
  · calc 2 ^ 30 = 2 ^ Nat.log2 x * 2 ^ (30 - Nat.log2 x) := by rw [← pow_add, Nat.add_sub_cancel' exponent]
      _ ≤ normalized x := Nat.mul_le_mul_right _ (Nat.log2_self_le pos.ne')
  · calc normalized x < 2 ^ (Nat.log2 x + 1) * 2 ^ (30 - Nat.log2 x) :=
          Nat.mul_lt_mul_of_pos_right Nat.lt_log2_self (by positivity)
      _ = 2 ^ 31 := by rw [← pow_add]; congr 1; omega

theorem normalized_two_pow {e : Nat} (h : e ≤ 30) : normalized (2 ^ e) = 2 ^ 30 := by
  rw [normalized, Nat.log2_two_pow, ← pow_add, Nat.add_sub_cancel' h]

/-- The Q15 fraction of R165: bits 29:25 of the normalised input choose the entry, bits 24:10 are the weight. -/
def log2Fraction (x : Nat) : Int :=
  interpolate log2Tab (normalized x / 2 ^ 25 - 32) (normalized x / 2 ^ 10 % 2 ^ 15 : Nat) / 65536

theorem log2F_of_nonpos {x : Int} (h : x ≤ 0) : log2F x = (0, 0) := if_pos h

theorem log2F_of_pos {x : Nat} (pos : 0 < x) (h : x < 2 ^ 31) : log2F x = ((Nat.log2 x : Int), log2Fraction x) := by
  have exponent := log2_le_30 pos h
  have shifted : shl (x : Int) (30 - Nat.log2 x) = (normalized x : Nat) := by rw [shl_eq, normalized]; push_cast; rfl
  have index : (((normalized x : Nat) : Int) / 2 ^ 25 - 32).toNat = normalized x / 2 ^ 25 - 32 := by omega
  have weight : ((normalized x : Nat) : Int) / 2 ^ 10 % 32768 = (normalized x / 2 ^ 10 % 2 ^ 15 : Nat) := by omega
  have undo : (30 : Int) - (30 - Nat.log2 x : Nat) = Nat.log2 x := by omega
  have notNonpos : ¬(x : Int) ≤ 0 := by omega
  simp only [log2F, if_neg notNonpos, Int.toNat_natCast, shifted, shr_eq, index, weight, undo]
  rfl

theorem log2Tab_steps : ∀ i < 32, log2Tab.getD i 0 ≤ log2Tab.getD (i + 1) 0 ∧
    0 ≤ interpolate log2Tab i 0 ∧ interpolate log2Tab i 32767 ≤ 2147418111 := by decide

theorem log2Fraction_mem {x : Nat} (pos : 0 < x) (h : x < 2 ^ 31) : 0 ≤ log2Fraction x ∧ log2Fraction x ≤ 32766 := by
  obtain ⟨low, high⟩ := normalized_mem pos h
  obtain ⟨nonneg, le⟩ := interpolate_mem log2Tab_steps (i := normalized x / 2 ^ 25 - 32)
    (a := (normalized x / 2 ^ 10 % 2 ^ 15 : Nat)) (by omega) (by omega) (by omega)
  rw [log2Fraction]
  omega

theorem log2Fraction_two_pow {e : Nat} (h : e ≤ 30) : log2Fraction (2 ^ e) = 0 := by
  rw [log2Fraction, normalized_two_pow h]
  decide

/-! ### POW_F and LOG_F (R170, R173) -/

theorem powF_zero (b : Int) : powF b 0 = 65536 := if_pos rfl

theorem powF_base_zero {p : Int} (hp : p ≠ 0) : powF 0 p = 0 := by rw [powF, if_neg hp, if_pos rfl]

theorem powF_of_neg {b p : Int} (hp : p ≠ 0) (hb : b < 0) : powF b p = sentinel := by
  rw [powF, if_neg hp, if_neg hb.ne, if_pos hb]

/-- The power is taken in the log domain: T is the exponent times the base's logarithm, moved to Q16. -/
theorem powF_of_pos {b p : Int} (hp : p ≠ 0) (hb : 0 < b) :
    powF b p = pow2F ((p * log2Q15 b / 65536 + 524288) / 32768) ((p * log2Q15 b / 65536 + 524288) % 32768) := by
  simp only [powF, if_neg hp, if_neg hb.ne', if_neg hb.le.not_gt, shr_eq]
  rfl

theorem logF_of_base {b : Int} (h : b = 0 ∨ b = 65536) (x : Int) : logF b x = 0 := if_pos h

theorem logF_of_domain {b x : Int} (base : ¬(b = 0 ∨ b = 65536)) (h : b < 0 ∨ x ≤ 0) : logF b x = sentinel := by
  rw [logF, if_neg base, if_pos h]

theorem logF_of_quotient {b x : Int} (base : ¬(b = 0 ∨ b = 65536)) (h : ¬(b < 0 ∨ x ≤ 0)) :
    logF b x = fdivF (log2Q16 x) (log2Q16 b) := by
  rw [logF, if_neg base, if_neg h]

theorem fdivF_zero (a : Int) : fdivF a 0 = sentinel := if_pos rfl

theorem fdivF_of_ne_zero (a : Int) {b : Int} (h : b ≠ 0) :
    fdivF a b = max (-2147483648) (min 2147483647 (Int.tdiv (a * 65536) b)) := by
  simp only [fdivF, if_neg h, sat32, clamp, fMin32, fMax32, truncDiv]
  omega

/-! ### The square root in a Q-factor (R181) -/

/-- The floor of the root of `v`, moved to Q-factor `q`: an odd factor takes the root of half the input. -/
def rootInQ (v q : Nat) : Nat :=
  if q % 2 = 0 then Nat.sqrt v * 2 ^ (q / 2) else Nat.sqrt (v / 2) * 2 ^ ((q + 1) / 2)

theorem rootInQ_mono {v w : Nat} (h : v ≤ w) (q : Nat) : rootInQ v q ≤ rootInQ w q := by
  rw [rootInQ, rootInQ]
  split
  case isTrue => exact Nat.mul_le_mul_right _ (Nat.sqrt_le_sqrt h)
  case isFalse => exact Nat.mul_le_mul_right _ (Nat.sqrt_le_sqrt (Nat.div_le_div_right h))

theorem rootInQ_lt {v q : Nat} (hv : v < 2 ^ 31) (hq : q ≤ 31) : rootInQ v q < 2 ^ 31 := by
  rw [rootInQ]
  split
  case isTrue even =>
    have root : Nat.sqrt v < 46341 := Nat.sqrt_lt.2 (by omega)
    have shift : 2 ^ (q / 2) ≤ 2 ^ 15 := Nat.pow_le_pow_right (by decide) (by omega)
    calc _ ≤ 46340 * 2 ^ 15 := Nat.mul_le_mul (by omega) shift
      _ < 2 ^ 31 := by decide
  case isFalse odd =>
    have root : Nat.sqrt (v / 2) < 32768 := Nat.sqrt_lt.2 (by omega)
    have shift : 2 ^ ((q + 1) / 2) ≤ 2 ^ 16 := Nat.pow_le_pow_right (by decide) (by omega)
    calc _ ≤ 32767 * 2 ^ 16 := Nat.mul_le_mul (by omega) shift
      _ < 2 ^ 31 := by decide

theorem sqrtqF_of_neg {v : Int} (h : v < 0) (q : Nat) : sqrtqF v q = sentinel := if_pos h

/-- The moved root fits a signed word, so wrap32 keeps it. -/
theorem sqrtqF_of_nonneg {v q : Nat} (hv : v < 2 ^ 31) (hq : q ≤ 31) : sqrtqF v q = (rootInQ v q : Nat) := by
  have small := rootInQ_lt hv hq
  have nonneg : ¬(v : Int) < 0 := by omega
  rw [rootInQ] at small ⊢
  split at small
  case isTrue even =>
    have notOdd : ¬q % 2 = 1 := by omega
    rw [sqrtqF, if_neg nonneg, if_neg notOdd, if_pos even, Int.toNat_natCast, isqrt32_eq_sqrt (by omega), shl_eq]
    exact_mod_cast wrap32_of_mem (by omega)
  case isFalse notEven =>
    have odd : q % 2 = 1 := by omega
    have half : (shr (v : Int) 1).toNat = v / 2 := by rw [shr_eq]; omega
    have places : (q - 1) / 2 + 1 = (q + 1) / 2 := by omega
    rw [sqrtqF, if_neg nonneg, if_pos odd, if_neg notEven, half, places, isqrt32_eq_sqrt (by omega), shl_eq]
    exact_mod_cast wrap32_of_mem (by omega)

/-! ### What the commands write -/

/-- A register that is not negative reads the same signed and unsigned. -/
theorem sx_of_nonneg {s : State} {r : Reg} (h : 0 ≤ s.sx r) : s.sx r = (s.x r).toNat ∧ (s.x r).toNat < 2 ^ 31 := by
  have width := (s.x r).isLt
  rw [State.sx, BitVec.toInt_eq_toNat_cond] at h ⊢
  split at h <;> omega

/-- A register is compared with a word by their signed values. -/
theorem x_eq_iff {s : State} {r : Reg} {w : Word} : s.x r = w ↔ s.sx r = w.toInt :=
  BitVec.toInt_inj.symm

theorem toWord_natCast (n : Nat) : toWord n = BitVec.ofNat 32 n := BitVec.ofInt_natCast 32 n

/-- A command that narrows two values into consecutive registers completes with both words, and changes nothing else. -/
theorem completesWith2_of_put {i : Instr} {s : State} {rd : Reg} {v0 v1 : Int}
    (h : exec i s = .next ((s.put rd v0).put (rd + 1) v1)) : CompletesWith2 i s rd (toWord v0) (toWord v1) := by
  obtain ⟨apart, _⟩ := group_ne rd
  exact ⟨_, h, by rw [x_put_of_ne _ apart.symm, x_put_self], x_put_self _ _ _,
    (put_onlyRegs s rd v0).trans (put_onlyRegs _ (rd + 1) v1)⟩

/-- The sentinel of POW2_F as a word. -/
theorem toWord_pow2F (e f : Int) : toWord (pow2F e f) = if 30 < e then 0xFFFFFFFF else toWord (pow2F e f) := by
  split
  case isTrue above => exact (congrArg toWord (pow2F_of_gt above f)).trans toWord_sentinel
  case isFalse => rfl

/-- SQRTQ_F of a register as a word. -/
theorem toWord_sqrtqF {s : State} {r : Reg} {q : Nat} (hq : q ≤ 31) :
    toWord (sqrtqF (s.sx r) q) =
      if s.sx r < 0 then 0xFFFFFFFF else BitVec.ofNat 32 (rootInQ (s.x r).toNat q) := by
  split
  case isTrue negative => exact (congrArg toWord (sqrtqF_of_neg negative q)).trans toWord_sentinel
  case isFalse nonneg =>
    obtain ⟨value, small⟩ := sx_of_nonneg (not_lt.1 nonneg)
    rw [value, sqrtqF_of_nonneg small hq, toWord_natCast]

end Sys2Proof.Machine
end

section
/-! SUPPORT. The statements of 41_powlog_sqrt.md: POW, EXP and LOG, the two primitives, and the square roots. -/

namespace Sys2Proof.Machine

/-- Settles O30: the clauses are those of POW_F and LOG_F, and POW2_F gives the sentinel above exponent 30. -/
theorem powExpLogResults : Obligations.PowExpLogResults := by
  intro rd rs1 rs2 s
  refine ⟨decode_encode_of_wellFormed (i := .pow rd rs1 rs2) rfl, ?pow,
    decode_encode_of_wellFormed (i := .exp rd rs1) rfl, ?exp,
    decode_encode_of_wellFormed (i := .log rd rs1 rs2) rfl, ?log⟩
  case pow =>
    have pow : CompletesWith (.pow rd rs1 rs2) s rd (toWord (powF (s.sx rs1) (s.sx rs2))) := completesWith_of_put rfl
    split_ifs with exponentZero baseZero negative
    · rwa [sx_eq_zero_iff.2 exponentZero, powF_zero] at pow
    · rwa [sx_eq_zero_iff.2 baseZero, powF_base_zero (mt sx_eq_zero_iff.1 exponentZero)] at pow
    · rwa [powF_of_neg (mt sx_eq_zero_iff.1 exponentZero) negative, toWord_sentinel] at pow
    · have positive : 0 < s.sx rs1 := lt_of_le_of_ne (not_lt.1 negative) (Ne.symm (mt sx_eq_zero_iff.1 baseZero))
      rw [powF_of_pos (mt sx_eq_zero_iff.1 exponentZero) positive, toWord_pow2F] at pow
      exact pow
  case exp =>
    have exp : CompletesWith (.exp rd rs1) s rd (toWord (powF 178145 (s.sx rs1))) := completesWith_of_put rfl
    split_ifs with zero
    · rwa [sx_eq_zero_iff.2 zero, powF_zero] at exp
    · exact exp
  case log =>
    have log : CompletesWith (.log rd rs1 rs2) s rd (toWord (logF (s.sx rs1) (s.sx rs2))) := completesWith_of_put rfl
    have isBase : s.x rs1 = 0 ∨ s.x rs1 = 65536 ↔ s.sx rs1 = 0 ∨ s.sx rs1 = 65536 := or_congr x_eq_iff x_eq_iff
    rw [if_congr isBase rfl rfl]
    split_ifs with base domain divisorZero
    · rwa [logF_of_base base] at log
    · rwa [logF_of_domain base domain, toWord_sentinel] at log
    · rwa [logF_of_quotient base domain, divisorZero, fdivF_zero, toWord_sentinel] at log
    · rwa [logF_of_quotient base domain, fdivF_of_ne_zero _ divisorZero] at log

/-- Settles O31: the mantissa lies in [2^30, 2^31), and the result is its rounding shift by 30 less the exponent. -/
theorem powerOfTwoResults : Obligations.PowerOfTwoResults := by
  intro rd rs1 rs2 s
  have fraction : pow2F (s.sx rs1) ((s.x rs2).toNat % 32768 : Nat) = pow2F (s.sx rs1) (s.x rs2).toNat := by
    rw [Int.natCast_mod]
    exact pow2F_emod _ _
  have pow2 : CompletesWith (.pow2 rd rs1 rs2) s rd (toWord (pow2F (s.sx rs1) (s.x rs2).toNat)) :=
    completesWith_of_put rfl
  refine ⟨decode_encode_of_wellFormed (i := .pow2 rd rs1 rs2) rfl, _, pow2, fraction.symm,
    fun above => pow2F_of_gt above _, fun inRange => pow2F_bounds inRange _,
    fun nonneg inRange zero => pow2F_of_fraction_zero nonneg inRange (by omega), fun minusOne => ?_,
    fun below => pow2F_of_lt_neg_one below _⟩
  rw [minusOne, pow2F_neg_one]

/-- Settles O32: the exponent is the place of the input's highest bit, which normalising moves to bit 30, and the fraction
stays below the table's last entry. -/
theorem logarithmOfTwoResults : Obligations.LogarithmOfTwoResults := by
  intro rd rs1 s
  have fits : rd.val ≤ 14 → (Instr.log2 rd rs1).groupsOk = true := fun h => groupsOk_iff.2 (by simpa [pastX15] using h)
  refine ⟨fun h => decode_encode_of_wellFormed (i := .log2 rd rs1) (wellFormed_iff.2 ⟨rfl, fits h⟩), ?_⟩
  have log2 : CompletesWith2 (.log2 rd rs1) s rd (toWord (log2F (s.sx rs1)).1) (toWord (log2F (s.sx rs1)).2) :=
    completesWith2_of_put rfl
  by_cases positive : 0 < s.sx rs1
  case neg =>
    rw [log2F_of_nonpos (not_lt.1 positive)] at log2
    exact ⟨0, 0, log2, fun _ => ⟨rfl, rfl⟩, fun h => absurd h positive, fun h => by omega, fun h => by omega⟩
  case pos =>
    obtain ⟨value, small⟩ := sx_of_nonneg positive.le
    have pos : 0 < (s.x rs1).toNat := by omega
    obtain ⟨f, hf⟩ := Int.eq_ofNat_of_zero_le (log2Fraction_mem pos small).1
    have results : log2F (s.sx rs1) = ((Nat.log2 (s.x rs1).toNat : Int), (f : Int)) := by
      rw [value, log2F_of_pos pos small, hf]
    rw [results, toWord_natCast, toWord_natCast] at log2
    refine ⟨Nat.log2 (s.x rs1).toNat, f, log2, fun h => absurd positive (not_lt.2 h), fun _ => ?fields, ?three, ?largest⟩
    case fields =>
      obtain ⟨low, high⟩ := normalized_mem pos small
      have next : normalized (s.x rs1).toNat / 2 ^ 25 - 31 = normalized (s.x rs1).toNat / 2 ^ 25 - 32 + 1 := by omega
      refine ⟨?_, ?_, ?_, ?_, fun power => ?_⟩
      · rw [value]
        exact_mod_cast Nat.log2_self_le pos.ne'
      · rw [value]
        exact_mod_cast Nat.lt_log2_self
      · rw [← hf, log2Fraction, interpolate_eq, ← next]
        rfl
      · obtain ⟨_, below⟩ := log2Fraction_mem pos small
        omega
      · have isPower : (s.x rs1).toNat = 2 ^ Nat.log2 (s.x rs1).toNat := by
          rw [value] at power
          exact_mod_cast power
        have zero := log2Fraction_two_pow (log2_le_30 pos small)
        rw [← isPower, hf] at zero
        omega
    case three =>
      intro three
      have printed : log2F 3 = (1, 19168) := by decide
      rw [three, printed, Prod.mk.injEq] at results
      omega
    case largest =>
      intro largest
      have printed : log2F 2147483647 = (30, 32766) := by decide
      rw [largest, printed, Prod.mk.injEq] at results
      omega

/-- Settles O33: SQRT is SQRTQ at 16, and the root is that of SQRTQ_F. -/
theorem squareRootResults : Obligations.SquareRootResults := by
  intro rd rs1 q s hq
  obtain ⟨ranges, _⟩ := immediateLimits
  obtain ⟨_, _, _, legal, _⟩ := ranges rd rs1 q
  have sqrt : CompletesWith (.sqrt rd rs1) s rd (toWord (sqrtqF (s.sx rs1) 16)) := completesWith_of_put rfl
  have sqrtq := sqrtq_completes rd rs1 q s
  rw [toWord_sqrtqF (by decide)] at sqrt
  rw [toWord_sqrtqF hq, rootInQ, apply_ite (BitVec.ofNat 32)] at sqrtq
  exact ⟨decode_encode_of_wellFormed (i := .sqrt rd rs1) rfl, legal hq, sqrt, sqrtq⟩

/-- Settles O34: the floor root is monotonic, and so is moving it. -/
theorem squareRootIsMonotonic : Obligations.SquareRootIsMonotonic := by
  intro q hq
  constructor
  · have zero : sqrtqF ((0 : Nat) : Int) q = (rootInQ 0 q : Nat) := sqrtqF_of_nonneg (by decide) hq
    simpa [rootInQ] using zero
  · intro v v' nonneg le small
    obtain ⟨n, rfl⟩ := Int.eq_ofNat_of_zero_le nonneg
    obtain ⟨m, rfl⟩ := Int.eq_ofNat_of_zero_le (nonneg.trans le)
    rw [sqrtqF_of_nonneg (by omega) hq, sqrtqF_of_nonneg (by omega) hq]
    exact_mod_cast rootInQ_mono (by omega) q

end Sys2Proof.Machine
end

section
/-! SUPPORT. The facts and the statements of 42_scalar_saturating.md: the Q16 scalar commands as word arithmetic, the
quotient of FDIV by sign and magnitude, and the results of the 16-bit unit. -/

namespace Sys2Proof.Machine

/-! ### The Q16 scalar operations on registers (R200 to R203) -/

theorem toWord_faddF (a b : Word) : toWord (faddF a.toInt b.toInt) = a + b := by
  rw [faddF, toWord_wrap32, toWord_add]

theorem toWord_fsubF (a b : Word) : toWord (fsubF a.toInt b.toInt) = a - b := by
  rw [fsubF, toWord_wrap32, toWord_sub]

theorem toWord_fmulF (a b : Word) : toWord (fmulF a.toInt b.toInt) = q16Product a b := by
  rw [fmulF, toWord_wrap32, shr_eq]
  rfl

/-- Rounding toward zero divides the magnitudes and then applies the sign. -/
theorem tdiv_eq_sign_magnitude : ∀ a b : Int, Int.tdiv a b =
    if (a < 0) = (b < 0) then ((a.natAbs / b.natAbs : Nat) : Int) else -((a.natAbs / b.natAbs : Nat) : Int)
  | .ofNat m, .ofNat n => by
    have alike : (Int.ofNat m < 0) = (Int.ofNat n < 0) := by
      rw [eq_iff_iff]
      exact iff_of_false (Int.natCast_nonneg m).not_gt (Int.natCast_nonneg n).not_gt
    rw [if_pos alike]
    rfl
  | .ofNat m, .negSucc n => by simp [Int.tdiv]
  | .negSucc m, .ofNat n => by simp [Int.tdiv]
  | .negSucc m, .negSucc n => by simp [Int.tdiv]

theorem fdivF_bounds (a b : Int) : -2147483648 ≤ fdivF a b ∧ fdivF a b ≤ 2147483647 := by
  rw [fdivF]
  split
  case isTrue => decide
  case isFalse => exact sat32_bounds _

/-- A quotient of equal signs can only saturate above, one of different signs only below (R203). -/
theorem fdivF_eq_sign_magnitude (a : Int) {b : Int} (h : b ≠ 0) :
    fdivF a b =
      if (a < 0) = (b < 0) then min 2147483647 (((a * 65536).natAbs / b.natAbs : Nat) : Int)
      else max (-2147483648) (-(((a * 65536).natAbs / b.natAbs : Nat) : Int)) := by
  have sign : (a * 65536 < 0) = (b < 0) ↔ (a < 0) = (b < 0) := by rw [eq_iff_iff, eq_iff_iff]; omega
  rw [fdivF_of_ne_zero a h, tdiv_eq_sign_magnitude, if_congr sign rfl rfl]
  generalize (a * 65536).natAbs / b.natAbs = quotient
  split <;> omega

/-! ### The 16-bit unit (R210 to R214) -/

theorem half_eq (s : State) (r : Reg) : s.half r = ((s.x r).extractLsb' 0 16).toInt := by
  rw [State.half, sext16, BitVec.setWidth_eq_extractLsb' (by decide)]

theorem sat16_eq (v : Int) : sat16 v = if v < -32768 then -32768 else if 32767 < v then 32767 else v := by
  simp only [sat16, clamp, fMin, fMax]
  omega

/-- A command that saturates `v` to 16 bits writes the limited value sign-extended (R210). -/
theorem completesWith_of_put_sat16 {i : Instr} {s : State} {rd : Reg} {v : Int}
    (h : exec i s = .next (s.put rd (sat16 v))) :
    CompletesWith i s rd (BitVec.ofInt 32 (if v < -32768 then -32768 else if 32767 < v then 32767 else v)) := by
  rw [← sat16_eq]
  exact completesWith_of_put h

/-! ### The statements -/

/-- Settles O35: narrowing to a register undoes wrap32, so the word operations wrap by themselves. -/
theorem scalarArithmeticWraps : Obligations.ScalarArithmeticWraps := by
  intro rd rs1 rs2 s
  refine ⟨decode_encode_of_wellFormed (i := .fadd rd rs1 rs2) rfl, ?sum,
    decode_encode_of_wellFormed (i := .fsub rd rs1 rs2) rfl, ?difference,
    decode_encode_of_wellFormed (i := .fmul rd rs1 rs2) rfl, ?product⟩
  case sum =>
    rw [← toWord_faddF]
    exact completesWith_of_put rfl
  case difference =>
    rw [← toWord_fsubF]
    exact completesWith_of_put rfl
  case product =>
    change CompletesWith _ s rd (q16Product (s.x rs1) (s.x rs2))
    rw [← toWord_fmulF]
    exact completesWith_of_put rfl

/-- Settles O36: the quotient is that of FDIV_F, whose sentinel is -1. -/
theorem divisionSaturates : Obligations.DivisionSaturates := by
  intro rd rs1 rs2 s
  have fdiv : CompletesWith (.fdiv rd rs1 rs2) s rd (toWord (fdivF (s.sx rs1) (s.sx rs2))) := completesWith_of_put rfl
  obtain ⟨low, high⟩ := fdivF_bounds (s.sx rs1) (s.sx rs2)
  refine ⟨decode_encode_of_wellFormed (i := .fdiv rd rs1 rs2) rfl, _, fdiv, low, high, fun zero => ?_,
    fun nonzero => ?_⟩
  · rw [sx_eq_zero_iff.2 zero, fdivF_zero]
    rfl
  · exact fdivF_eq_sign_magnitude _ (mt sx_eq_zero_iff.1 nonzero)

/-- Settles O37: the commands saturate the sum, the difference and the Q15 product of the halves, and the register. -/
theorem saturatingUnitResults : Obligations.SaturatingUnitResults := by
  intro rd rs1 rs2 s a b sat
  have halfA : s.half rs1 = a := half_eq s rs1
  have halfB : s.half rs2 = b := half_eq s rs2
  have product : shr (a * b) 15 = a * b / 32768 := shr_eq (a * b) 15
  refine ⟨decode_encode_of_wellFormed (i := .sadd16 rd rs1 rs2) rfl, completesWith_of_put_sat16 ?sum,
    decode_encode_of_wellFormed (i := .ssub16 rd rs1 rs2) rfl, completesWith_of_put_sat16 ?difference,
    decode_encode_of_wellFormed (i := .smul16 rd rs1 rs2) rfl, completesWith_of_put_sat16 ?product,
    decode_encode_of_wellFormed (i := .sat16 rd rs1) rfl, completesWith_of_put_sat16 rfl⟩
  case sum => rw [← halfA, ← halfB]; rfl
  case difference => rw [← halfA, ← halfB]; rfl
  case product => rw [← product, ← halfA, ← halfB]; rfl

end Sys2Proof.Machine
end

section
/-! SUPPORT. The facts and the statements of 43_vector.md: the scalar functions on register values give register values,
so the nested dot and cross products are word arithmetic; and the scale factor of VNORM. -/

namespace Sys2Proof.Machine

/-! ### Decoding (R99, R100) -/

/-- The word of a command whose immediates and register groups are in range decodes to the command. -/
theorem decode_encode_of_limits {i : Instr} (immediates : i.immediateOk = true) (groups : ¬pastX15 i) :
    decode (encode i) = .ok i :=
  decode_encode_of_wellFormed (wellFormed_iff.2 ⟨immediates, groupsOk_iff.2 groups⟩)

/-! ### The vector functions on registers (R231 to R235) -/

theorem faddF_toInt (a b : Word) : faddF a.toInt b.toInt = (a + b).toInt :=
  congrArg BitVec.toInt (toWord_add a b)

theorem fmulF_toInt (a b : Word) : fmulF a.toInt b.toInt = (q16Product a b).toInt := by
  rw [fmulF, shr_eq]
  rfl

theorem q16Product_comm (a b : Word) : q16Product a b = q16Product b a := by
  rw [q16Product, mul_comm, q16Product]

/-- A component of VCROSS as a word (R235). -/
theorem toWord_fsubF_fmulF (a b c d : Word) :
    toWord (fsubF (fmulF a.toInt b.toInt) (fmulF c.toInt d.toInt)) = q16Product a b - q16Product c d := by
  rw [fmulF_toInt, fmulF_toInt, toWord_fsubF]

/-- The sum of three Q16 products of registers, as VDOT writes it (R234). -/
def State.dotWord (s : State) (r q : Reg) : Word :=
  q16Product (s.x r) (s.x q) + q16Product (s.x (r + 1)) (s.x (q + 1)) + q16Product (s.x (r + 2)) (s.x (q + 2))

theorem vdotF_vec (s : State) (r q : Reg) : vdotF (s.vec r) (s.vec q) = (s.dotWord r q).toInt := by
  simp only [vdotF, State.vec, State.sx, fmulF_toInt, faddF_toInt, State.dotWord]

/-! ### The scale factor of VNORM (R236) -/

/-- The floor root moved to Q16 is a multiple of 2^8, which cancels in the quotient; the quotient does not saturate. -/
theorem fdivF_sqrtqF {d : Nat} (h : 0 < d) (small : d < 2 ^ 31) :
    fdivF 65536 (sqrtqF d 16) = (16777216 / Nat.sqrt d : Nat) := by
  have root : rootInQ d 16 = Nat.sqrt d * 2 ^ 8 := rfl
  have positive : 0 < Nat.sqrt d := Nat.sqrt_pos.2 h
  have nonzero : ((Nat.sqrt d * 2 ^ 8 : Nat) : Int) ≠ 0 := by omega
  have quotient : Int.tdiv (65536 * 65536) ((Nat.sqrt d * 2 ^ 8 : Nat) : Int) = (16777216 / Nat.sqrt d : Nat) :=
    calc _ = ((16777216 * 2 ^ 8 / (Nat.sqrt d * 2 ^ 8) : Nat) : Int) := rfl
      _ = _ := by rw [Nat.mul_div_mul_right _ _ (by decide)]
  have bound : 16777216 / Nat.sqrt d ≤ 16777216 := Nat.div_le_self _ _
  rw [sqrtqF_of_nonneg small (by decide), root, fdivF_of_ne_zero _ nonzero, quotient]
  generalize 16777216 / Nat.sqrt d = q at bound
  omega

/-- The scale factor for the squared length `d` as a word. -/
def normScaleWord (d : Word) : Word :=
  if d.toInt ≤ 0 then 0 else BitVec.ofNat 32 (16777216 / Nat.sqrt d.toNat)

theorem normScale_vec (s : State) (r : Reg) : normScale (s.vec r) = (normScaleWord (s.dotWord r r)).toInt := by
  rw [normScale, vdotF_vec]
  generalize s.dotWord r r = d
  rw [normScaleWord]
  split
  case isTrue => rfl
  case isFalse positive =>
    have signed : d.toInt = d.toNat := BitVec.toInt_eq_toNat_of_msb (by
      rw [BitVec.msb_eq_toInt, decide_eq_false_iff_not]; omega)
    have small : d.toNat < 2 ^ 31 := by have := BitVec.toInt_lt (x := d); omega
    have bound : 16777216 / Nat.sqrt d.toNat ≤ 16777216 := Nat.div_le_self _ _
    rw [signed, fdivF_sqrtqF (by omega) small, ← toWord_natCast, toInt_toWord]
    generalize 16777216 / Nat.sqrt d.toNat = q at bound
    exact (wrap32_of_mem (by omega)).symm

/-! ### What the commands write (R230) -/

/-- A command that narrows a vector into the group at `rd` completes with its three words, and changes nothing else. -/
theorem completesWith3_of_putVec {i : Instr} {s : State} {rd : Reg} {v : Vec3} {w0 w1 w2 : Word}
    (h : exec i s = .next (s.putVec rd v)) (h0 : toWord v.x = w0) (h1 : toWord v.y = w1) (h2 : toWord v.z = w2) :
    CompletesWith3 i s rd w0 w1 w2 := by
  obtain ⟨x0, x1, x2⟩ := x_put3 s rd v.x v.y v.z
  exact ⟨_, h, x0.trans h0, x1.trans h1, x2.trans h2, put3_onlyRegs s rd v.x v.y v.z⟩

/-- VSCALE and VNORM: the vector at `r` times a word. -/
theorem completesWith3_of_scale {i : Instr} {s : State} {rd r : Reg} {k : Word}
    (h : exec i s = .next (s.putVec rd (vscaleF (s.vec r) k.toInt))) :
    CompletesWith3 i s rd (q16Product (s.x r) k) (q16Product (s.x (r + 1)) k) (q16Product (s.x (r + 2)) k) :=
  completesWith3_of_putVec h (toWord_fmulF _ _) (toWord_fmulF _ _) (toWord_fmulF _ _)

theorem vcross_completes (rd rs1 rs2 : Reg) (s : State) :
    CompletesWith3 (.vcross rd rs1 rs2) s rd
      (q16Product (s.x (rs1 + 1)) (s.x (rs2 + 2)) - q16Product (s.x (rs1 + 2)) (s.x (rs2 + 1)))
      (q16Product (s.x (rs1 + 2)) (s.x rs2) - q16Product (s.x rs1) (s.x (rs2 + 2)))
      (q16Product (s.x rs1) (s.x (rs2 + 1)) - q16Product (s.x (rs1 + 1)) (s.x rs2)) :=
  completesWith3_of_putVec rfl (toWord_fsubF_fmulF _ _ _ _) (toWord_fsubF_fmulF _ _ _ _) (toWord_fsubF_fmulF _ _ _ _)

/-! ### The statements -/

/-- Settles O38: the components are those of the scalar functions, over the registers of the state before. -/
theorem vectorSumsAndProducts : Obligations.VectorSumsAndProducts := by
  intro rd rs1 rs2 s
  refine ⟨fun hd h1 => ⟨decode_encode_of_limits (i := .vscale rd rs1 rs2) rfl ?vscale, fun h2 =>
      ⟨decode_encode_of_limits (i := .vadd rd rs1 rs2) rfl ?vadd,
        decode_encode_of_limits (i := .vsub rd rs1 rs2) rfl ?vsub⟩⟩,
    fun h1 h2 => decode_encode_of_limits (i := .vdot rd rs1 rs2) rfl ?vdot,
    completesWith3_of_putVec rfl (toWord_faddF _ _) (toWord_faddF _ _) (toWord_faddF _ _),
    completesWith3_of_putVec rfl (toWord_fsubF _ _) (toWord_fsubF _ _) (toWord_fsubF _ _),
    completesWith3_of_scale rfl, ?product⟩
  case product =>
    have vdot : CompletesWith (.vdot rd rs1 rs2) s rd (toWord (vdotF (s.vec rs1) (s.vec rs2))) :=
      completesWith_of_put rfl
    rwa [vdotF_vec, toWord_toInt] at vdot
  all_goals
    rw [pastX15]
    omega

/-- Settles O39: for one group with itself each component is a product less the same product with its factors
exchanged. -/
theorem crossProductResults : Obligations.CrossProductResults := by
  intro rd rs1 rs2 s
  refine ⟨fun hd h1 h2 => decode_encode_of_limits (i := .vcross rd rs1 rs2) rfl ?limits,
    vcross_completes rd rs1 rs2 s, ?itself⟩
  case limits =>
    rw [pastX15]
    omega
  case itself =>
    have cancel : ∀ a b : Word, q16Product a b - q16Product b a = 0 := fun a b => by
      rw [q16Product_comm, BitVec.sub_self]
      rfl
    have vcross := vcross_completes rd rs1 rs1 s
    rwa [cancel, cancel, cancel] at vcross

/-- Settles O40: VNORM is VSCALE by the scale factor of the wrapped squared length. -/
theorem normalizeResults : Obligations.NormalizeResults := by
  intro rd rs1 s
  refine ⟨fun hd h1 => decode_encode_of_limits (i := .vnorm rd rs1) rfl ?limits, ?scaled⟩
  case limits =>
    rw [pastX15]
    omega
  case scaled =>
    have run : exec (.vnorm rd rs1) s = .next (s.putVec rd (vscaleF (s.vec rs1) (normScale (s.vec rs1)))) := rfl
    rw [normScale_vec] at run
    exact completesWith3_of_scale run

end Sys2Proof.Machine
end

section
/-! SUPPORT. The invariant of every run (R6, R35 to R37, R41, R45, R262, R294): what it asks of each kind of update, and
that commands, the host's actions and steps meet it. -/

namespace Sys2Proof.Machine

/-! ### The slot invariant (R45, R294) -/

/-- What holds of the zero slot holds of every slot in the list exactly when it holds of every channel number. -/
theorem forall_slots_iff {s : State} {P : Slot → Prop} (zero : P Slot.zero) :
    (∀ sl ∈ s.slots, P sl) ↔ ∀ c, P (s.slot c) := by
  constructor
  · intro h c
    by_cases hc : c < s.nch
    · exact h _ (slot_mem hc)
    · rwa [State.slot, List.getD_eq_default _ _ (not_lt.1 hc)]
  · intro h sl mem
    obtain ⟨c, hc, rfl⟩ := List.getElem_of_mem mem
    have at_c := h c
    rwa [State.slot, List.getD_eq_getElem _ _ hc] at at_c

theorem ok_of_empty {sl : Slot} (h : sl.active = false) (e : Nat) : sl.Ok e := fun active =>
  absurd active (by simp [h])

/-- The slot invariant speaks of CUR, BASE and END alone. -/
theorem Slot.Ok.of_eq {sl sl' : Slot} {e : Nat} (h : sl.Ok e) (cur : sl'.cur = sl.cur) (base : sl'.base = sl.base)
    (endAddr : sl'.endAddr = sl.endAddr) : sl'.Ok e := by
  rwa [Slot.Ok, Slot.active, cur, base, endAddr]

/-- A cursor moves up, and a slot is still active only if it stays before END (R290). -/
theorem afterFrame_ok {sl : Slot} {e : Nat} (h : sl.Ok e) : sl.afterFrame.Ok e := by
  unfold Slot.afterFrame
  split
  case isFalse => exact h
  case isTrue active =>
    intro stays
    obtain ⟨pastHeader, _⟩ := h active
    have goesOn : sl.finishes = false := by simpa [active_advance active] using stays
    have beforeEnd : sl.nextCursor < sl.endAddr.toNat := by simpa [Slot.finishes] using goesOn
    have up : sl.cur.toNat ≤ sl.nextCursor := Nat.le_add_right _ _
    rw [advance_cur_toNat goesOn, advance_base, advance_endAddr]
    omega

/-- The sound that MSTART installs starts after its header and, its checks passed, not past END (R281). -/
theorem newSlot_ok {s : State} {r : Reg} (h : (s.startArgs r).playable = true) (srate : Half) (lv rv : Fin 128) :
    (s.newSlot (s.startArgs r) srate lv rv).Ok s.params.endAdjust := by
  obtain ⟨long, fits⟩ := playable_eq_true.1 h
  intro _
  have cur : (s.newSlot (s.startArgs r) srate lv rv).cur.toNat = (s.x (r + 2)).toNat + 8 := by
    change (s.x (r + 2) + 8#32).toNat = _
    rw [BitVec.toNat_add, BitVec.toNat_ofNat]
    omega
  have endAddr : s.params.endAdjust = 1 → ((s.newSlot (s.startArgs r) srate lv rv).endAddr.toNat : Int) =
      (s.x (r + 2)).toNat + s.sx (r + 3) - 1 := fun adjust => by
    change ((BitVec.ofInt 32 ((s.x (r + 2)).toNat + s.sx (r + 3) - s.params.endAdjust)).toNat : Int) = _
    rw [adjust, BitVec.toNat_ofInt]
    omega
  have base : (s.newSlot (s.startArgs r) srate lv rv).base = s.x (r + 2) := rfl
  refine ⟨by rw [cur, base], fun adjust => ?_⟩
  have := endAddr adjust
  omega

/-! ### The updates -/

section
variable {s t : State}

/-- The invariant asks nothing of registers, TICK, CONFIG, admission, events, input and the host's last read; of memory
and slots it asks their own parts. -/
theorem Inv.of_frame (h : Inv s)
    (frame : t = { s with
      regs := t.regs, tick := t.tick, pitched := t.pitched, slots := t.slots, mem := t.mem, withheld := t.withheld
      events := t.events, input := t.input, readData := t.readData })
    (memory : Memory.wf t.mem = true) (nch : t.nch = s.nch) (slots : ∀ c, (t.slot c).Ok s.params.endAdjust) :
    Inv t := by
  have params : t.params = s.params := (congrArg State.params frame :)
  have outRate : t.outRate = s.outRate := (congrArg State.outRate frame :)
  have stepTab : t.stepTab = s.stepTab := (congrArg State.stepTab frame :)
  have halted : t.halted = s.halted := (congrArg State.halted frame :)
  have cause : t.cause = s.cause := (congrArg State.cause frame :)
  have faultCmd : t.faultCmd = s.faultCmd := (congrArg State.faultCmd frame :)
  have faultInfo : t.faultInfo = s.faultInfo := (congrArg State.faultInfo frame :)
  exact
    { memory := memory
      params := params ▸ h.params
      channels := nch ▸ h.channels
      rate := outRate ▸ h.rate
      table := by rw [stepTab, outRate, h.table]
      running := by rw [halted, cause, faultCmd, faultInfo]; exact h.running
      stopped := by rw [halted, cause]; exact h.stopped
      slots := by rw [params]; exact (forall_slots_iff (ok_of_empty rfl _)).2 slots }

theorem Inv.slot (h : Inv s) (c : Nat) : (s.slot c).Ok s.params.endAdjust :=
  (forall_slots_iff (ok_of_empty rfl _)).1 h.slots c

/-- Neither memory nor slots change. -/
theorem Inv.of_eq (h : Inv s)
    (frame : t = { s with
      regs := t.regs, tick := t.tick, pitched := t.pitched, withheld := t.withheld, events := t.events
      input := t.input, readData := t.readData }) : Inv t := by
  have slots : t.slots = s.slots := (congrArg State.slots frame :)
  have mem : t.mem = s.mem := (congrArg State.mem frame :)
  refine h.of_frame ?_ (mem ▸ h.memory) (congrArg List.length slots) fun c => ?_
  · rw [slots, mem]; exact frame
  · rw [slot_of_slots_eq slots]; exact h.slot c

theorem Inv.put (h : Inv s) (r : Reg) (v : Int) : Inv (s.put r v) := h.of_eq rfl

/-- A fault halts with a cause, and the fault record is then free (R35). -/
theorem Inv.raise (h : Inv s) (w : Word) {k : Cause} (hk : k ≠ .none) (i : Word) : Inv (s.raise w k i) :=
  ⟨h.memory, h.params, h.channels, h.rate, h.table, nofun, fun _ => hk, h.slots⟩

theorem Inv.putByte (h : Inv s) (a : Word) (b : Byte) : Inv (s.putByte a.toNat b) :=
  h.of_frame rfl (Memory.wf_put h.memory a.isLt b) rfl h.slot

theorem Inv.setSlot (h : Inv s) {c : Nat} (hc : c < s.nch) {sl : Slot} (ok : sl.Ok s.params.endAdjust) :
    Inv (s.setSlot c sl) := by
  refine h.of_frame rfl h.memory (nch_setSlot s c sl) fun d => ?_
  rw [slot_setSlot s c d sl hc]
  split
  · exact ok
  · exact h.slot d

/-- A released slot is empty (R261). -/
theorem Inv.releaseIfActive (h : Inv s) {c : Nat} (hc : c < s.nch) : Inv (s.releaseIfActive c) := by
  unfold State.releaseIfActive
  split
  · exact (h.setSlot hc (sl := { s.slot c with cur := 0 }) (ok_of_empty rfl _)).of_eq rfl
  · exact h

/-- MINIT and reset leave empty slots and the table of a legal rate (R280, R380). -/
theorem Inv.initMixer (h : Inv s) {rate : Word} (low : 1 ≤ rate.toNat) (high : rate.toNat ≤ 65535) :
    Inv (s.initMixer rate) where
  memory := h.memory
  params := h.params
  channels := by rw [State.nch, initMixer_slots, List.length_replicate]; exact h.channels
  rate := ⟨low, high⟩
  table := rfl
  running := h.running
  stopped := h.stopped
  slots sl mem := by rw [List.eq_of_mem_replicate mem]; exact ok_of_empty rfl _

theorem Inv.resetBlock (h : Inv s) : Inv s.resetBlock := by
  obtain ⟨low, high⟩ : 1 ≤ s.params.outRateReset ∧ s.params.outRateReset ≤ 65535 := by
    have legal := h.params
    simp only [Config.Params.legal, Bool.and_eq_true, decide_eq_true_eq] at legal
    omega
  have value : (BitVec.ofNat 32 s.params.outRateReset).toNat = s.params.outRateReset := by
    rw [BitVec.toNat_ofNat]; omega
  have restarted := h.initMixer (rate := BitVec.ofNat 32 s.params.outRateReset) (by rwa [value]) (by rwa [value])
  exact ⟨h.memory, h.params, restarted.channels, restarted.rate, rfl, fun _ => ⟨rfl, rfl, rfl⟩, nofun,
    restarted.slots⟩

/-- Every frame of an MMIX that committed keeps every slot's invariant and memory's canonical form. -/
theorem Inv.mixFrames (h : Inv s) {n o : Nat} {e : Option Word} (frames : State.mixFrames n o s = (t, e)) : Inv t := by
  obtain ⟨frame, nch, memory, _, k, _, _, slots, _⟩ := mixFrames_frame frames
  refine h.of_frame ?_ (memory h.memory) nch fun c => ?_
  · rw [frame]
  · rw [slots]
    exact Function.Iterate.rec (Slot.Ok s.params.endAdjust) (h.slot c) (fun _ ok => afterFrame_ok ok) k

/-! ### Commands, host actions, steps -/

theorem exec_inv {i : Instr} (inv : Inv s) (h : exec i s = .next t) : Inv t := by
  rcases exec_cases h with
    ⟨frame, _⟩ | ⟨rd, rs1, _, low, high, rfl⟩ | ⟨rd, rs1, _, started⟩ | ⟨rd, rs1, _, updated⟩ |
      ⟨rs1, ch, _, hch, rfl⟩ | ⟨rs1, rs2, u, e, _, frames, ended⟩
  case inl => -- registers, TICK and CONFIG alone
    refine inv.of_eq ?_
    rw [frame]
  case inr.inl => -- MINIT
    exact (inv.initMixer low high).put _ _
  case inr.inr.inl => -- MSTART
    obtain ⟨ch, srate, lv, rv, hch, playable, rfl⟩ | ⟨k, e, cause, rfl⟩ := started
    · obtain ⟨_, inRange⟩ := channel_eq_some.1 hch
      refine ((inv.releaseIfActive inRange).setSlot (by rwa [nch_releaseIfActive]) ?_).put _ _
      rw [releaseIfActive_params]
      exact newSlot_ok playable srate lv rv
    · exact inv.raise _ (by rcases cause with rfl | rfl <;> decide) _
  case inr.inr.inr.inl => -- MUPDATE
    obtain ⟨ch, st, lv, rv, hch, rfl⟩ | ⟨e, rfl⟩ := updated
    · obtain ⟨_, inRange⟩ := channel_eq_some.1 hch
      have ok : { s.slot ch with step := st, lvol := lv, rvol := rv }.Ok s.params.endAdjust :=
        (inv.slot ch).of_eq rfl rfl rfl
      exact (inv.setSlot inRange ok).put _ _
    · exact inv.raise _ (by decide) _
  case inr.inr.inr.inr.inl => -- MSTOP
    obtain ⟨_, inRange⟩ := channel_eq_some.1 hch
    exact inv.releaseIfActive inRange
  case inr.inr.inr.inr.inr => -- MMIX
    obtain ⟨_, rfl⟩ | ⟨a, _, rfl⟩ := ended
    · exact inv.mixFrames frames
    · exact (inv.mixFrames frames).raise _ (by decide) _

theorem issue_inv {w : Word} (inv : Inv s) (h : issue w s = .next t) : Inv t := by
  unfold issue at h
  split at h
  · cases h; exact inv
  · split at h
    · cases h; exact inv.raise w (by decide) 0
    · exact exec_inv inv h

theorem windowWrite_inv {r : WindowReg} {w : Word} (inv : Inv s) (h : windowWrite r w s = .next t) : Inv t := by
  cases r with
  | cmd => exact issue_inv inv h
  | csr c => cases h; exact inv.of_eq (by cases c <;> rfl)
  | reserved => cases h; exact inv
  | x q => cases h; exact inv.of_eq rfl

theorem perform_inv {a : HostAction} (inv : Inv s) (h : perform a s = .next t) : Inv t := by
  cases a with
  | windowWrite addr size w =>
    simp only [perform] at h
    split at h
    · cases h
    · exact windowWrite_inv inv h
  | windowRead addr size =>
    simp only [perform] at h
    split at h
    · cases h
    · cases h; exact inv.of_eq rfl
  | store addr b => cases h; exact inv.putByte addr b
  | storeDuring w addr b =>
    simp only [perform] at h
    split at h
    · cases h; exact inv.putByte addr b
    · cases h
  | setAdmission l => cases h; exact inv.of_eq rfl
  | reset running => cases h; exact inv.resetBlock

end

/-- Settles O16: with no action left a step is the identity; otherwise the host's next action keeps the invariant. -/
theorem stepKeepsTheInvariant : Obligations.StepKeepsTheInvariant := by
  intro s t inv h
  cases hi : s.input with
  | nil => rw [step_of_no_input hi] at h; cases h; exact inv
  | cons a rest =>
    rw [step_of_input hi] at h
    exact perform_inv (inv.of_eq rfl) h

end Sys2Proof.Machine
end

section
/-! SUPPORT. The facts and the statements of the slot commands of 44_mixer.md: volumes (R270 to R272), steps (R265,
R266), MINIT, MSTART, MUPDATE, MSTOP and the slot queries (R280 to R285, R287). -/

namespace Sys2Proof.Machine

/-! ### Volumes (R270 to R272) -/

theorem panLeft_eq (vol sep : Int) : panLeft vol sep = vol - vol * (sep + 1) * (sep + 1) / 65536 := by
  rw [panLeft, shr_eq]
  rfl

theorem panRight_eq (vol sep : Int) : panRight vol sep = vol - vol * (sep - 256) * (sep - 256) / 65536 := by
  rw [panRight, shr_eq, add_sub_assoc]
  rfl

/-- A square of at most 2^16 takes from a volume no more than the volume. -/
theorem pan_mem {vol k : Int} (h0 : 0 ≤ vol) (h127 : vol ≤ 127) (hk : k * k ≤ 65536) :
    0 ≤ vol - vol * k * k / 65536 ∧ vol - vol * k * k / 65536 ≤ 127 := by
  have low : 0 ≤ vol * k * k := by rw [mul_assoc]; exact mul_nonneg h0 (mul_self_nonneg k)
  have high : vol * k * k ≤ vol * 65536 := by rw [mul_assoc]; exact mul_le_mul_of_nonneg_left hk h0
  omega

theorem volPan_eq_ok {vol sep : Int} {l r : Fin 128} (hl : panLeft vol sep = l.val) (hr : panRight vol sep = r.val) :
    volPan vol sep = .ok (l, r) := by
  rw [volPan, volumeRow_eq_some.2 hl.symm, volumeRow_eq_some.2 hr.symm]

theorem volPan_eq_error {vol sep : Int}
    (h : panLeft vol sep < 0 ∨ 127 < panLeft vol sep ∨ panRight vol sep < 0 ∨ 127 < panRight vol sep) :
    volPan vol sep = .error (volumeInfo (panLeft vol sep) (panRight vol sep)) := by
  rcases volPan_cases vol sep with ⟨l, r, hl, hr, _⟩ | ⟨_, he⟩
  · omega
  · exact he

/-- FAULT_INFO holds the low halves of both volumes (R340). -/
theorem volumeInfo_eq (lv rv : Int) : volumeInfo lv rv = BitVec.ofInt 32 (lv % 65536 + rv % 65536 * 65536) := by
  apply BitVec.eq_of_toNat_eq
  rw [volumeInfo, BitVec.toNat_append, ← Nat.shiftLeft_add_eq_or_of_lt (BitVec.isLt _), Nat.shiftLeft_eq]
  simp only [BitVec.toNat_ofInt]
  omega

/-- Settles O58: the square of the right volume's offset is that of the left's at 255 - sep. -/
theorem panIsMirrored : Obligations.PanIsMirrored := by
  refine ⟨fun vol sep => ?mirror, fun vol sep v0 v127 s0 s255 => ?legal, fun vol sep => ?check⟩
  case mirror =>
    rw [panRight_eq, panLeft_eq]
    ring_nf
  case legal =>
    have left := pan_mem (k := sep + 1) v0 v127 (by nlinarith)
    have right := pan_mem (k := sep - 256) v0 v127 (by nlinarith)
    rw [← panLeft_eq] at left
    rw [← panRight_eq] at right
    rcases volPan_cases vol sep with ⟨l, r, hl, hr, ok⟩ | ⟨outside, _⟩
    · exact ⟨l, r, ok, hl, hr⟩
    · omega
  case check =>
    rcases volPan_cases vol sep with ⟨l, r, hl, hr, ok⟩ | ⟨outside, error⟩
    · exact iff_of_false (fun ⟨_, error⟩ => by rw [ok] at error; cases error) (by omega)
    · exact iff_of_true ⟨_, error⟩ (by omega)

/-! ### Steps (R265, R266) -/

/-- SRATE * 2^16 / OUTRATE fits a register for every rate but 0. -/
theorem rateRatio_le (srate : Half) (rate : Nat) : srate.toNat * 65536 / rate ≤ 4294901760 :=
  (Nat.div_le_self _ _).trans (by omega)

theorem stepF_of_fixed {s : State} (h : s.pitched = false) (srate : Half) (pitch : Word) :
    (s.stepF srate pitch).toNat = srate.toNat * 65536 / s.outRate.toNat := by
  have fits := rateRatio_le srate s.outRate.toNat
  simp only [State.stepF, h, Bool.false_eq_true, if_false, BitVec.toNat_ofNat]
  exact Nat.mod_eq_of_lt (by omega)

theorem stepF_of_pitched {s : State} (h : s.pitched = true) (srate : Half) (pitch : Word) :
    (s.stepF srate pitch).toNat = min 4294967295
      (srate.toNat * 65536 / s.outRate.toNat * s.stepTab[(Fin.ofNat 256 pitch.toNat)].toNat / 65536) := by
  simp only [State.stepF, h, if_true, BitVec.toNat_ofNat, Nat.shiftRight_eq_div_pow]
  omega

/-- Pitch 128 is the exponent 0 (R262). -/
theorem stepEntry_middle (rate : Nat) : stepEntry rate 128 = 65536 := by
  have exponent : truncDiv ((((128 : Nat) : Int) - 128) * pitchRefRate * 65536) (pitchSpan * rate) = 0 := by
    simp [truncDiv]
  rw [stepEntry, exponent, powF_zero]
  rfl

/-- Settles O59: the two forms of STEP_F; the middle entry of STEPTAB multiplies by 1. -/
theorem stepIsTheRateRatio : Obligations.StepIsTheRateRatio := by
  intro s srate pitch rate b
  have masked : Fin.ofNat 256 (pitch.toNat % 256) = Fin.ofNat 256 pitch.toNat :=
    Fin.ext (Nat.mod_mod _ _)
  refine ⟨fun fixed => ?_, fun pitched => ?_, fun table middle => ?_⟩
  · rw [stepF_of_fixed fixed]
    exact ⟨Nat.div_mul_le_self _ _, Nat.lt_mul_of_div_lt (Nat.lt_succ_self _) rate⟩
  · simp only [masked]
    exact stepF_of_pitched pitched srate pitch
  · cases hp : s.pitched with
    | false => exact stepF_of_fixed hp srate pitch
    | true =>
      have entry : s.stepTab[Fin.ofNat 256 pitch.toNat] = 65536 := by
        rw [table, buildStepTab_getElem, ← stepEntry_middle s.outRate.toNat]
        exact congrArg _ middle
      have fits : b ≤ 4294901760 := rateRatio_le srate _
      rw [stepF_of_pitched hp, entry]
      change min 4294967295 (b * 65536 / 65536) = b
      omega

/-! ### What the commands write -/

@[simp] theorem put_slot (s : State) (r : Reg) (v : Int) (c : Nat) : (s.put r v).slot c = s.slot c := rfl
@[simp] theorem put_nch (s : State) (r : Reg) (v : Int) : (s.put r v).nch = s.nch := rfl

theorem completesWith_sentinel {i : Instr} {s : State} {rd : Reg} (h : exec i s = .next (s.put rd (-1))) :
    CompletesWith i s rd 0xFFFFFFFF := completesWith_of_put h

/-- The registers of a state whose register file is that of `s` but for one result. -/
theorem sameRegsBut_put {s t : State} (h : t.regs = s.regs) (rd : Reg) (v : Int) : SameRegsBut [rd] s (t.put rd v) :=
  fun r hr => (x_put_of_ne t (by simpa [eq_comm] using hr) v).trans (x_of_regs_eq h r)

/-- A command that writes four consecutive registers, in order, completes with the four words (R287). -/
theorem completesWith4_of_setX {i : Instr} {s : State} {rd : Reg} {v0 v1 v2 v3 : Word}
    (h : exec i s = .next ((((s.setX rd v0).setX (rd + 1) v1).setX (rd + 2) v2).setX (rd + 3) v3)) :
    CompletesWith4 i s rd v0 v1 v2 v3 := by
  obtain ⟨h01, h02, h12, h03, h13, h23⟩ := group_ne rd
  refine ⟨_, h, ?_, ?_, ?_, x_setX_self _ _ _, ?_⟩
  · rw [x_setX_of_ne _ h03.symm, x_setX_of_ne _ h02.symm, x_setX_of_ne _ h01.symm, x_setX_self]
  · rw [x_setX_of_ne _ h13.symm, x_setX_of_ne _ h12.symm, x_setX_self]
  · rw [x_setX_of_ne _ h23.symm, x_setX_self]
  · exact (((setX_onlyRegs s rd v0).trans (setX_onlyRegs _ (rd + 1) v1)).trans
      (setX_onlyRegs _ (rd + 2) v2)).trans (setX_onlyRegs _ (rd + 3) v3)

/-! ### RELEASE events in the order of the channels (R280, R290) -/

/-- One RELEASE for every slot that meets `p`, in increasing order of the channels, the first slot being channel `c`. -/
def releasesWhere (p : Slot → Bool) (c : Nat) (slots : List Slot) : List Event :=
  ((List.range slots.length).filter fun k => p (slots.getD k Slot.zero)).map
    fun k => .release (c + k) (slots.getD k Slot.zero).base

theorem releasesWhere_cons (p : Slot → Bool) (c : Nat) (sl : Slot) (rest : List Slot) :
    releasesWhere p c (sl :: rest) =
      if p sl then .release c sl.base :: releasesWhere p (c + 1) rest else releasesWhere p (c + 1) rest := by
  have later : ((List.range rest.length).filter ((fun k => p ((sl :: rest).getD k Slot.zero)) ∘ Nat.succ)).map
      ((fun k => Event.release (c + k) ((sl :: rest).getD k Slot.zero).base) ∘ Nat.succ) =
        releasesWhere p (c + 1) rest := by
    refine List.map_congr_left fun k _ => ?_
    simp only [Function.comp_apply, Nat.succ_eq_add_one, List.getD_cons_succ]
    rw [Nat.add_right_comm, Nat.add_assoc]
  rw [← later, releasesWhere, List.length_cons, List.range_succ_eq_map, List.filter_cons, List.filter_map,
    List.getD_cons_zero]
  split
  · rw [List.map_cons, List.map_map]; rfl
  · rw [List.map_map]

theorem releasesFrom_eq (c : Nat) (slots : List Slot) : releasesFrom c slots = releasesWhere Slot.active c slots := by
  induction slots generalizing c with
  | nil => rfl
  | cons sl rest ih => rw [releasesWhere_cons, ← ih]; rfl

/-- From channel 0 on the events are those of the channels of the state. -/
theorem releasesWhere_slots (s : State) (p : Slot → Bool) :
    releasesWhere p 0 s.slots = ((List.range s.nch).filter fun c => p (s.slot c)).map
      fun c => .release c (s.slot c).base := by
  simp only [releasesWhere, Nat.zero_add]
  rfl

/-! ### MINIT (R280) -/

theorem exec_minit_of_illegal {rd rs1 : Reg} {s : State} (h : (s.x rs1).toNat = 0 ∨ 65535 < (s.x rs1).toNat) :
    exec (.minit rd rs1) s = .next (s.put rd (-1)) := if_pos (by omega)

theorem exec_minit_of_legal {rd rs1 : Reg} {s : State} (h : ¬((s.x rs1).toNat = 0 ∨ 65535 < (s.x rs1).toNat)) :
    exec (.minit rd rs1) s = .next ((s.initMixer (s.x rs1)).put rd 0) := if_neg (by omega)

theorem slot_initMixer (s : State) (rate : Word) (c : Nat) : (s.initMixer rate).slot c = Slot.zero := by
  rw [State.slot, initMixer_slots, List.getD_eq_getElem?_getD, List.getElem?_replicate]
  split <;> rfl

/-- Settles O44: the two cases of MINIT; the events in order are `releasesWhere`. -/
theorem minitRestartsTheMixer : Obligations.MinitRestartsTheMixer := by
  intro rd rs1 s
  refine ⟨decode_encode_of_wellFormed (i := .minit rd rs1) rfl, ?_⟩
  split
  case isTrue illegal => exact completesWith_sentinel (exec_minit_of_illegal illegal)
  case isFalse legal =>
    refine ⟨_, exec_minit_of_legal legal, x_put_self _ _ _, sameRegsBut_put rfl rd 0, List.length_replicate,
      slot_initMixer s (s.x rs1), rfl, buildStepTab_getElem (s.x rs1), ?_, ⟨rfl, rfl, rfl, rfl⟩, rfl, rfl,
      ⟨rfl, rfl, rfl, rfl⟩, fun _ => rfl⟩
    rw [← releasesWhere_slots, ← releasesFrom_eq]
    rfl

/-! ### MSTART (R281) -/

section
variable {rd rs1 : Reg} {s : State} {c : Nat}

theorem exec_mstart_of_rejected (h : s.channel rs1 = none ∨ (s.startArgs rs1).playable = false) :
    exec (.mstart rd rs1) s = .next (s.put rd (-1)) := by
  simp only [exec, execMstart]
  rcases h with noChannel | unplayable
  · rw [noChannel]
  · cases s.channel rs1 with
    | none => rfl
    | some ch => exact if_pos unplayable

theorem exec_mstart_of_busError {e : Word} (hch : s.channel rs1 = some c) (hp : (s.startArgs rs1).playable = true)
    (header : s.portRead2 ((s.x (rs1 + 2)).toNat + 2) = .error e) :
    exec (.mstart rd rs1) s = .next (s.raise (encode (.mstart rd rs1)) .busError e) := by
  have header : s.portRead2 ((s.startArgs rs1).base.toNat + 2) = .error e := header
  simp only [exec, execMstart, hch, hp, header, Bool.true_eq_false, if_false, faultBy]

theorem exec_mstart_of_volumeRange {e : Word} {srate : Half} (hch : s.channel rs1 = some c)
    (hp : (s.startArgs rs1).playable = true) (header : s.portRead2 ((s.x (rs1 + 2)).toNat + 2) = .ok srate)
    (pan : volPan (s.sx (rs1 + 4)) (s.sx (rs1 + 5)) = .error e) :
    exec (.mstart rd rs1) s = .next (s.raise (encode (.mstart rd rs1)) .volumeRange e) := by
  have header : s.portRead2 ((s.startArgs rs1).base.toNat + 2) = .ok srate := header
  have pan : volPan (s.startArgs rs1).vol (s.startArgs rs1).sep = .error e := pan
  simp only [exec, execMstart, hch, hp, header, pan, Bool.true_eq_false, if_false, faultBy]

theorem exec_mstart_of_ok {lv rv : Fin 128} {srate : Half} (hch : s.channel rs1 = some c)
    (hp : (s.startArgs rs1).playable = true) (header : s.portRead2 ((s.x (rs1 + 2)).toNat + 2) = .ok srate)
    (pan : volPan (s.sx (rs1 + 4)) (s.sx (rs1 + 5)) = .ok (lv, rv)) :
    exec (.mstart rd rs1) s =
      .next (((s.releaseIfActive c).setSlot c (s.newSlot (s.startArgs rs1) srate lv rv)).put rd c) := by
  have header : s.portRead2 ((s.startArgs rs1).base.toNat + 2) = .ok srate := header
  have pan : volPan (s.startArgs rs1).vol (s.startArgs rs1).sep = .ok (lv, rv) := pan
  simp only [exec, execMstart, hch, hp, header, pan, Bool.true_eq_false, if_false]

end

/-- A two-byte read of admitted bytes, little-endian (R62). -/
theorem portRead2_of_admitted {s : State} {a : Nat} (low : s.canAccess a .read = true)
    (high : s.canAccess (a + 1) .read = true) : s.portRead2 a = .ok (s.byteAt (a + 1) ++ s.byteAt a) := by
  simp [State.portRead2, State.portRead, low, high]

/-- Settles O45: no channel, or a length or an address that is not playable. -/
theorem mstartRejections : Obligations.MstartRejections := by
  intro rd rs1 s h
  refine completesWith_sentinel (exec_mstart_of_rejected ?_)
  rw [channel_eq_none, ← Bool.not_eq_true, playable_eq_true]
  omega

/-- Settles O46: every check passed, the slot is the one of `newSlot`. -/
theorem mstartInstallsTheSound : Obligations.MstartInstallsTheSound := by
  intro rd rs1 s c lv rv base vol sep number inRange long fits low high left right
  have header : s.portRead2 (base + 2) = .ok (s.byteAt (base + 3) ++ s.byteAt (base + 2)) :=
    portRead2_of_admitted low high
  have pan := volPan_eq_ok ((panLeft_eq vol sep).trans left) ((panRight_eq vol sep).trans right)
  have run := exec_mstart_of_ok (rd := rd) (channel_eq_some.2 ⟨number, inRange⟩) (playable_eq_true.2 ⟨long, fits⟩)
    header pan
  have inRange' : c < (s.releaseIfActive c).nch := by rwa [nch_releaseIfActive]
  have cur : (s.newSlot (s.startArgs rs1) (s.byteAt (base + 3) ++ s.byteAt (base + 2)) lv rv).cur =
      BitVec.ofNat 32 (base + 8) := by
    change s.x (rs1 + 2) + 8 = _
    rw [BitVec.ofNat_add, BitVec.ofNat_toNat, BitVec.setWidth_eq]
    rfl
  refine ⟨_, run, (x_put_self _ _ _).trans (toWord_natCast c), sameRegsBut_put (by simp) rd c, by simp,
    fun d other => ?_, ?_, ?_⟩
  · rw [put_slot, slot_setSlot _ _ _ _ inRange', if_neg other.symm, slot_releaseIfActive s c d inRange,
      if_neg other.symm]
  · rw [put_events, setSlot_events, events_releaseIfActive]
  · rw [put_slot, slot_setSlot _ _ _ _ inRange', if_pos rfl]
    refine ⟨cur, rfl, rfl, rfl, rfl, rfl, rfl, rfl, rfl, rfl, ?_, ?_, ?_, byteAt_of_mem_eq (by simp)⟩ <;>
      simp [SameFaultRecord, SameControl, SameHostSide]

/-- Settles O47: the header read names the first byte refused; the volumes are checked after it. -/
theorem mstartFaults : Obligations.MstartFaults := by
  intro rd rs1 s c base vol sep lv rv number inRange long fits
  have hch : s.channel rs1 = some c := channel_eq_some.2 ⟨number, inRange⟩
  have hp : (s.startArgs rs1).playable = true := playable_eq_true.2 ⟨long, fits⟩
  refine ⟨fun low => ?_, fun low high => ?_, fun low high outside => ?_⟩
  · have header : s.portRead2 (base + 2) = .error (BitVec.ofNat 32 (base + 2)) := by
      rw [portRead2_error, firstRefused_cons, if_neg (by simp [low])]
    exact ⟨_, exec_mstart_of_busError hch hp header, raise_haltedBy s _ _ _⟩
  · have header : s.portRead2 (base + 2) = .error (BitVec.ofNat 32 (base + 3)) := by
      rw [portRead2_error, firstRefused_cons, if_pos low, firstRefused_cons, if_neg (by simp [high])]
    exact ⟨_, exec_mstart_of_busError hch hp header, raise_haltedBy s _ _ _⟩
  · have header := portRead2_of_admitted low high
    have pan := volPan_eq_error (vol := vol) (sep := sep) (by rwa [panLeft_eq, panRight_eq])
    rw [volumeInfo_eq, panLeft_eq, panRight_eq] at pan
    exact ⟨_, exec_mstart_of_volumeRange hch hp header pan, raise_haltedBy s _ _ _⟩

/-! ### MUPDATE (R282) -/

section
variable {rd rs1 : Reg} {s : State} {c : Nat}

theorem exec_mupdate_of_none (h : s.channel rs1 = none) : exec (.mupdate rd rs1) s = .next (s.put rd (-1)) := by
  simp only [exec, execMupdate, h]

theorem exec_mupdate_of_volumeRange {e : Word} (hch : s.channel rs1 = some c)
    (pan : volPan (s.sx (rs1 + 1)) (s.sx (rs1 + 2)) = .error e) :
    exec (.mupdate rd rs1) s = .next (s.raise (encode (.mupdate rd rs1)) .volumeRange e) := by
  simp only [exec, execMupdate, hch, pan, faultBy]

theorem exec_mupdate_of_ok {lv rv : Fin 128} (hch : s.channel rs1 = some c)
    (pan : volPan (s.sx (rs1 + 1)) (s.sx (rs1 + 2)) = .ok (lv, rv)) :
    exec (.mupdate rd rs1) s = .next ((s.setSlot c { s.slot c with
      step := s.stepF (s.slot c).srate (s.x (rs1 + 3)), lvol := lv, rvol := rv }).put rd 0) := by
  simp only [exec, execMupdate, hch, pan]

end

/-- Settles O48: the three outcomes of MUPDATE. -/
theorem mupdateRewritesTheVoice : Obligations.MupdateRewritesTheVoice := by
  intro rd rs1 s vol sep lv rv
  refine ⟨fun limit => decode_encode_of_limits (i := .mupdate rd rs1) rfl ?group,
    fun outside => completesWith_sentinel (exec_mupdate_of_none (channel_eq_none.2 outside)),
    fun c number inRange => ?voice⟩
  case group =>
    rw [pastX15]
    omega
  case voice =>
    have hch : s.channel rs1 = some c := channel_eq_some.2 ⟨number, inRange⟩
    have left : panLeft vol sep = lv := panLeft_eq vol sep
    have right : panRight vol sep = rv := panRight_eq vol sep
    split
    case isTrue outside =>
      have pan := volPan_eq_error (vol := vol) (sep := sep) (by rwa [left, right])
      rw [volumeInfo_eq, left, right] at pan
      exact ⟨_, exec_mupdate_of_volumeRange hch pan, raise_haltedBy s _ _ _⟩
    case isFalse inside =>
      rcases volPan_cases vol sep with ⟨l, r, hl, hr, pan⟩ | ⟨outside, _⟩
      · refine ⟨_, exec_mupdate_of_ok hch pan, x_put_self _ _ _, sameRegsBut_put rfl rd 0, by simp,
          fun d other => ?_, ?_⟩
        · rw [put_slot, slot_setSlot _ _ _ _ inRange, if_neg other.symm]
        · rw [put_slot, slot_setSlot _ _ _ _ inRange, if_pos rfl]
          exact ⟨rfl, hl.trans left, hr.trans right, rfl, ⟨rfl, rfl, rfl, rfl⟩, ⟨rfl, rfl, rfl, rfl⟩,
            ⟨rfl, rfl, rfl, rfl⟩, fun _ => rfl⟩
      · rw [left, right] at outside
        exact absurd outside inside

/-! ### MSTOP (R283) -/

theorem exec_mstop_of_none {rs1 : Reg} {s : State} (h : s.channel rs1 = none) : exec (.mstop rs1) s = .next s := by
  simp only [exec, execMstop, h]

theorem exec_mstop_of_some {rs1 : Reg} {s : State} {c : Nat} (h : s.channel rs1 = some c) :
    exec (.mstop rs1) s = .next (s.releaseIfActive c) := by
  simp only [exec, execMstop, h]

theorem releaseIfActive_of_empty {s : State} {c : Nat} (h : (s.slot c).active = false) : s.releaseIfActive c = s := by
  simp [State.releaseIfActive, h]

theorem releaseIfActive_of_active {s : State} {c : Nat} (h : (s.slot c).active = true) :
    s.releaseIfActive c = s.releaseSlot c := if_pos h

/-- The number is a channel or not whatever the slots hold. -/
theorem channel_releaseIfActive (s : State) (c : Nat) (r : Reg) : (s.releaseIfActive c).channel r = s.channel r := by
  have value : (s.releaseIfActive c).sx r = s.sx r :=
    congrArg BitVec.toInt (x_of_regs_eq (releaseIfActive_regs s c) r)
  rw [State.channel, value, nch_releaseIfActive, State.channel]

/-- Settles O49: a released slot is empty, and releasing an empty slot changes nothing. -/
theorem mstopReleasesOnce : Obligations.MstopReleasesOnce := by
  intro rs1 s
  refine ⟨decode_encode_of_wellFormed (i := .mstop rs1) rfl, fun c number inRange active => ?_, fun empty => ?_⟩
  · have hch : s.channel rs1 = some c := channel_eq_some.2 ⟨number, inRange⟩
    have released : ∀ d, (s.releaseIfActive c).slot d = if c = d then { s.slot c with cur := 0 } else s.slot d :=
      fun d => slot_releaseIfActive s c d inRange
    refine ⟨_, exec_mstop_of_some hch, ?_, ?_, nch_releaseIfActive s c, ?_, fun d other => ?_, ?_⟩
    · rw [releaseIfActive_of_active active]; rfl
    · rw [releaseIfActive_of_active active]; rfl
    · rw [released, if_pos rfl]
    · rw [released, if_neg other.symm]
    · rw [exec_mstop_of_some ((channel_releaseIfActive s c rs1).trans hch), releaseIfActive_of_empty]
      rw [released, if_pos rfl]
      rfl
  · cases hch : s.channel rs1 with
    | none => exact exec_mstop_of_none hch
    | some c =>
      obtain ⟨number, inRange⟩ := channel_eq_some.1 hch
      rw [exec_mstop_of_some hch, releaseIfActive_of_empty (empty c number inRange)]

/-! ### MQUERY, MANY, MINFO (R284, R285, R287) -/

section
variable {rd rs1 : Reg} {s : State} {c : Nat}

theorem mquery_of_none (h : s.channel rs1 = none) : CompletesWith (.mquery rd rs1) s rd 0 :=
  completesWith_of_put (v := 0) (by simp only [exec, execMquery, h])

theorem mquery_of_some (h : s.channel rs1 = some c) :
    CompletesWith (.mquery rd rs1) s rd (if (s.slot c).cur = 0 then 0 else 1) := by
  have run : exec (.mquery rd rs1) s = .next (s.put rd (if (s.slot c).active then 1 else 0)) := by
    simp only [exec, execMquery, h]
  have query := completesWith_of_put run
  by_cases empty : (s.slot c).cur = 0
  · rw [active_eq_false.2 empty] at query
    rw [if_pos empty]
    exact query
  · rw [active_eq_true.2 empty] at query
    rw [if_neg empty]
    exact query

theorem minfo_of_none (h : s.channel rs1 = none) :
    CompletesWith4 (.minfo rd rs1) s rd 0xFFFFFFFF 0xFFFFFFFF 0xFFFFFFFF 0xFFFFFFFF :=
  completesWith4_of_setX (by simp only [exec, execMinfo, h]; rfl)

theorem minfo_of_some (h : s.channel rs1 = some c) :
    CompletesWith4 (.minfo rd rs1) s rd (s.slot c).id (s.slot c).stime (s.slot c).cur
      (BitVec.ofNat 32 (s.slot c).rem.toNat) := by
  rw [BitVec.ofNat_toNat]
  exact completesWith4_of_setX (by simp only [exec, execMinfo, h])

theorem many_of_active (h : (s.slot c).cur ≠ 0) (inRange : c < s.nch) : CompletesWith (.many rd) s rd 1 := by
  have any : s.slots.any Slot.active = true := List.any_eq_true.2 ⟨_, slot_mem inRange, active_eq_true.2 h⟩
  have run : exec (.many rd) s = .next (s.put rd 1) := by simp only [exec, execMany, any, if_true]
  exact completesWith_of_put run

theorem many_of_empty (h : ∀ sl ∈ s.slots, sl.active = false) : CompletesWith (.many rd) s rd 0 := by
  have any : s.slots.any Slot.active = false := List.any_eq_false.2 fun sl mem => by simp [h sl mem]
  have run : exec (.many rd) s = .next (s.put rd 0) := by
    simp only [exec, execMany, any, Bool.false_eq_true, if_false]
  exact completesWith_of_put run

end

/-- Settles O50: each query by its own lemma. -/
theorem slotQueries : Obligations.SlotQueries := by
  intro rd rs1 s
  refine ⟨decode_encode_of_wellFormed (i := .mquery rd rs1) rfl, decode_encode_of_wellFormed (i := .many rd) rfl,
    fun limit => decode_encode_of_limits (i := .minfo rd rs1) rfl ?group, fun c number inRange => ?channel,
    fun outside => ?noChannel, fun ⟨c, inRange, active⟩ => many_of_active active inRange,
    fun empty => many_of_empty ?empty⟩
  case group =>
    rw [pastX15]
    omega
  case channel =>
    have hch : s.channel rs1 = some c := channel_eq_some.2 ⟨number, inRange⟩
    exact ⟨mquery_of_some hch, minfo_of_some hch⟩
  case noChannel =>
    have hch : s.channel rs1 = none := channel_eq_none.2 outside
    exact ⟨mquery_of_none hch, minfo_of_none hch⟩
  case empty =>
    intro sl mem
    obtain ⟨c, inRange, rfl⟩ := List.getElem_of_mem mem
    have at_c := empty c inRange
    rwa [State.slot, List.getD_eq_getElem _ _ inRange, ← active_eq_false] at at_c

end Sys2Proof.Machine
end

section
/-! SUPPORT. The facts and the statements of MMIX (44_mixer.md R286, R290 to R295): runs of frames, the slot walk, the
frames of one slot, and which accesses a run makes. -/

namespace Sys2Proof.Machine

/-! ### Runs of frames (R286, R293) -/

section
variable {rs1 rs2 : Reg} {s t u : State} {m n o : Nat} {e : Word}

theorem mixFrames_succ_of_ok (h : s.mixFrame o = .ok t) (n : Nat) :
    State.mixFrames (n + 1) o s = State.mixFrames n (o + 4) t := by
  simp only [State.mixFrames, h]

theorem mixFrames_succ_of_error (h : s.mixFrame o = .error e) (n : Nat) :
    State.mixFrames (n + 1) o s = (s, some e) := by
  simp only [State.mixFrames, h]

/-- A run goes on where its first frames end. -/
theorem mixFrames_add_of_ok (h : State.mixFrames m o s = (t, none)) (n : Nat) :
    State.mixFrames (m + n) o s = State.mixFrames n (o + 4 * m) t := by
  induction m generalizing o s with
  | zero => cases h; rw [Nat.zero_add, Nat.mul_zero, Nat.add_zero]
  | succ m ih =>
    cases hf : s.mixFrame o with
    | error e => rw [mixFrames_succ_of_error hf] at h; cases h
    | ok v =>
      rw [mixFrames_succ_of_ok hf] at h
      rw [Nat.add_right_comm, mixFrames_succ_of_ok hf, ih h]
      congr 1
      omega

/-- A run that fails in its first frames is over there. -/
theorem mixFrames_add_of_error (h : State.mixFrames m o s = (t, some e)) (n : Nat) :
    State.mixFrames (m + n) o s = (t, some e) := by
  induction m generalizing o s with
  | zero => cases h
  | succ m ih =>
    rw [Nat.add_right_comm]
    cases hf : s.mixFrame o with
    | error e' => rwa [mixFrames_succ_of_error hf] at h ⊢
    | ok v =>
      rw [mixFrames_succ_of_ok hf] at h ⊢
      exact ih h

/-- A run does not fail if no frame of it uses a refused byte, wherever the frames before it end. -/
theorem mixFrames_completes (h : ∀ k < n, ∀ u, State.mixFrames k o s = (u, none) →
      ∀ b ∈ u.frameAccesses (o + 4 * k), u.canAccess b.1 b.2 = true) :
    ∃ t, State.mixFrames n o s = (t, none) := by
  induction n with
  | zero => exact ⟨s, rfl⟩
  | succ n ih =>
    obtain ⟨u, hu⟩ := ih fun k hk => h k (by omega)
    obtain ⟨t, ht⟩ := mixFrame_completes (h n (Nat.lt_succ_self n) u hu)
    exact ⟨t, by rw [mixFrames_add_of_ok hu, mixFrames_succ_of_ok ht]; rfl⟩

theorem exec_mmix_of_ok (h : State.mixFrames (s.sx rs2 / 4).toNat (s.x rs1).toNat s = (t, none)) :
    exec (.mmix rs1 rs2) s = .next t := by
  simp only [exec, execMmix, frameCount_eq, h]

theorem exec_mmix_of_error (h : State.mixFrames (s.sx rs2 / 4).toNat (s.x rs1).toNat s = (t, some e)) :
    exec (.mmix rs1 rs2) s = .next (t.raise (encode (.mmix rs1 rs2)) .busError e) := by
  simp only [exec, execMmix, frameCount_eq, h, faultBy]

end

/-- Settles O54: MMIX by the outcome of its run, and a longer run by the outcome of its first frames. -/
theorem mmixFramesRunInOrder : Obligations.MmixFramesRunInOrder := by
  refine ⟨fun rs1 rs2 s => ?_, fun m n o s => ?_⟩
  · rcases h : State.mixFrames (s.sx rs2 / 4).toNat (s.x rs1).toNat s with ⟨t, _ | e⟩
    · exact exec_mmix_of_ok h
    · exact exec_mmix_of_error h
  · rcases h : State.mixFrames m o s with ⟨t, _ | e⟩
    · exact mixFrames_add_of_ok h n
    · exact mixFrames_add_of_error h n

/-- Settles O60: the frames before are a run of their own, and the next one fails with the first refused access. -/
theorem mmixFaults : Obligations.MmixFaults := by
  intro rs1 rs2 s u f a k before after count frames accesses admitted refused
  have fails : u.mixFrame ((s.x rs1).toNat + 4 * f) = .error (BitVec.ofNat 32 a) := by
    rw [mixFrame_error, accesses, firstRefused_append, firstRefused_eq_none.2 admitted, Option.none_or,
      firstRefused_cons, if_neg (by simp [refused])]
  obtain ⟨later, total⟩ : ∃ later, (s.sx rs2 / 4).toNat = f + (later + 1) :=
    ⟨(s.sx rs2 / 4).toNat - f - 1, by omega⟩
  have run : State.mixFrames (s.sx rs2 / 4).toNat (s.x rs1).toNat s = (u, some (BitVec.ofNat 32 a)) := by
    rw [total, mixFrames_add_of_ok frames, mixFrames_succ_of_error fails]
  exact ⟨_, exec_mmix_of_error run, raise_haltedBy u _ _ _⟩

/-! ### The slot walk (R290, R292) -/

/-- What a slot adds to an accumulator: an active one the entry of its volume row at its sample, an empty one 0. -/
def State.contribution (s : State) (row : Slot → Fin 128) (sl : Slot) : Int :=
  if sl.active then
    match s.sampleOf sl with
    | .ok smp => volEntry s.params.volDiv (row sl) smp
    | .error _ => 0
  else 0

theorem contribution_of_empty {s : State} {sl : Slot} (h : sl.active = false) (row : Slot → Fin 128) :
    s.contribution row sl = 0 := by
  simp [State.contribution, h]

theorem contribution_of_sample {s : State} {sl : Slot} {smp : Nat} (ha : sl.active = true)
    (h : s.sampleOf sl = .ok smp) (row : Slot → Fin 128) :
    s.contribution row sl = volEntry s.params.volDiv (row sl) smp := by
  simp [State.contribution, ha, h]

/-- A walk that does not fail, slot by slot: an empty slot is passed over, an active one contributes its sample,
advances and is released if it finishes. -/
theorem walkSlots_cons_ok {s : State} {c : Nat} {sl : Slot} {rest : List Slot} {l r : Int} {w : Walk}
    (h : s.walkSlots c (sl :: rest) l r = .ok w) :
    ∃ v, s.walkSlots (c + 1) rest (l + s.contribution Slot.lvol sl) (r + s.contribution Slot.rvol sl) = .ok v ∧
      w.slots = sl.afterFrame :: v.slots ∧ w.accL = v.accL ∧ w.accR = v.accR ∧
      w.released = if sl.releasedNow then .release c sl.base :: v.released else v.released := by
  unfold State.walkSlots at h
  split at h
  case isTrue empty =>
    rw [contribution_of_empty empty, contribution_of_empty empty, add_zero, add_zero]
    split at h
    · cases h
    · next v hv =>
      cases h
      exact ⟨v, hv, by simp [Slot.afterFrame, empty], rfl, rfl, by simp [Slot.releasedNow, empty]⟩
  case isFalse notEmpty =>
    have active : sl.active = true := by simpa using notEmpty
    split at h
    · cases h
    · next smp sample =>
      rw [contribution_of_sample active sample, contribution_of_sample active sample]
      split at h
      · cases h
      · next v hv =>
        cases h
        exact ⟨v, hv, by simp [Slot.afterFrame, active], rfl, rfl, by simp [Slot.releasedNow, active]⟩

theorem walkSlots_acc {s : State} {c : Nat} {slots : List Slot} {l r : Int} {w : Walk}
    (h : s.walkSlots c slots l r = .ok w) :
    w.accL = l + (slots.map (s.contribution Slot.lvol)).sum ∧
      w.accR = r + (slots.map (s.contribution Slot.rvol)).sum := by
  induction slots generalizing c l r w with
  | nil => cases h; simp
  | cons sl rest ih =>
    obtain ⟨v, hv, _, left, right, _⟩ := walkSlots_cons_ok h
    obtain ⟨ihl, ihr⟩ := ih hv
    rw [left, right, ihl, ihr, List.map_cons, List.map_cons, List.sum_cons, List.sum_cons, add_assoc, add_assoc]
    exact ⟨rfl, rfl⟩

/-- The events of a walk, in increasing order of the channels (R290). -/
theorem walkSlots_releases {s : State} {c : Nat} {slots : List Slot} {l r : Int} {w : Walk}
    (h : s.walkSlots c slots l r = .ok w) : w.released = releasesWhere Slot.releasedNow c slots := by
  induction slots generalizing c l r w with
  | nil => cases h; rfl
  | cons sl rest ih =>
    obtain ⟨v, hv, _, _, _, released⟩ := walkSlots_cons_ok h
    rw [releasesWhere_cons, released, ih hv]

/-- Settles O55: the sums of the contributions. -/
theorem frameSumsContributions : Obligations.FrameSumsContributions :=
  fun _ _ _ _ _ _ h => walkSlots_acc h

/-! ### The bytes of a sample (R291, R294) -/

/-- A sample depends on admission and on its two bytes alone. -/
theorem sampleOf_withData {s : State} {m : Memory} {sl : Slot}
    (current : Memory.get m sl.cur.toNat = s.byteAt sl.cur.toNat)
    (next : Memory.get m sl.nextByte = s.byteAt sl.nextByte) :
    (s.withData m s.withheld).sampleOf sl = s.sampleOf sl := by
  have nextRead : (s.withData m s.withheld).portRead (if sl.cur.toNat + 1 ≤ sl.endAddr.toNat then sl.cur.toNat + 1
      else sl.cur.toNat) = s.portRead (if sl.cur.toNat + 1 ≤ sl.endAddr.toNat then sl.cur.toNat + 1
      else sl.cur.toNat) := portRead_withData next
  simp only [State.sampleOf, portRead_withData current, nextRead]

/-- The second byte of a sample is the first or the one after it, and not past END if the cursor is not. -/
theorem nextByte_mem (sl : Slot) : sl.cur.toNat ≤ sl.nextByte ∧
    (sl.cur.toNat ≤ sl.endAddr.toNat → sl.nextByte ≤ sl.endAddr.toNat) := by
  unfold Slot.nextByte Slot.byteAfter
  split <;> omega

/-- Settles O57: both bytes of the sample lie from the header's end to END. -/
theorem samplesStayInTheBuffer : Obligations.SamplesStayInTheBuffer := by
  intro s m sl active ok same
  obtain ⟨pastHeader, beforeEnd⟩ := ok active
  have beforeEnd : sl.cur.toNat ≤ sl.endAddr.toNat := beforeEnd rfl
  obtain ⟨up, inside⟩ := nextByte_mem sl
  exact sampleOf_withData (same _ pastHeader beforeEnd) (same _ (pastHeader.trans up) (inside beforeEnd))

/-! ### The frames of one slot (R290, R295) -/

/-- The cursor of a slot that has played for `f` frames, as a natural number, while it has not reached END. -/
def Slot.cursorAfter (sl : Slot) (f : Nat) : Nat := sl.cur.toNat + (sl.rem.toNat + f * sl.step.toNat) / 65536

/-- A slot that has played for `f` frames and has not reached END. -/
def Slot.playedFor (sl : Slot) (f : Nat) : Slot :=
  { sl with
    cur := BitVec.ofNat 32 (sl.cursorAfter f)
    rem := BitVec.ofNat 16 ((sl.rem.toNat + f * sl.step.toNat) % 65536) }

theorem cursorAfter_mono (sl : Slot) {f g : Nat} (h : f ≤ g) : sl.cursorAfter f ≤ sl.cursorAfter g :=
  Nat.add_le_add_left (Nat.div_le_div_right (Nat.add_le_add_left (Nat.mul_le_mul_right _ h) _)) _

theorem cursorAfter_zero (sl : Slot) : sl.cursorAfter 0 = sl.cur.toNat := by
  have := sl.rem.isLt
  unfold Slot.cursorAfter
  omega

theorem playedFor_zero (sl : Slot) : sl.playedFor 0 = sl := by
  have rem : sl.rem.toNat % 65536 = sl.rem.toNat := Nat.mod_eq_of_lt sl.rem.isLt
  rw [Slot.playedFor, cursorAfter_zero, Nat.zero_mul, Nat.add_zero, rem, BitVec.ofNat_toNat, BitVec.ofNat_toNat,
    BitVec.setWidth_eq, BitVec.setWidth_eq]

/-- `f` frames do not end the sound. -/
def Slot.PlaysFor (sl : Slot) (f : Nat) : Prop := f = 0 ∨ sl.cursorAfter f < sl.endAddr.toNat

section
variable {sl : Slot} {f : Nat}

/-- The cursor of a sound that goes on is an address. -/
theorem playedFor_cur (h : sl.PlaysFor f) : (sl.playedFor f).cur.toNat = sl.cursorAfter f := by
  refine (BitVec.toNat_ofNat _ _).trans (Nat.mod_eq_of_lt ?_)
  rcases h with rfl | before
  · rw [cursorAfter_zero]; exact sl.cur.isLt
  · exact before.trans sl.endAddr.isLt

theorem playedFor_active (ha : sl.active = true) (h : sl.PlaysFor f) : (sl.playedFor f).active = true := by
  have start : sl.cur.toNat ≠ 0 := fun zero => active_eq_true.1 ha (BitVec.eq_of_toNat_eq zero)
  have up : sl.cur.toNat ≤ sl.cursorAfter f := Nat.le_add_right _ _
  rw [active_eq_true]
  intro zero
  have value := playedFor_cur h
  rw [zero] at value
  exact start (Nat.le_zero.1 (up.trans_eq value.symm))

theorem playedFor_nextCursor (h : sl.PlaysFor f) : (sl.playedFor f).nextCursor = sl.cursorAfter (f + 1) := by
  have rem : (sl.playedFor f).rem.toNat = (sl.rem.toNat + f * sl.step.toNat) % 65536 := by
    refine (BitVec.toNat_ofNat _ _).trans (Nat.mod_eq_of_lt (Nat.mod_lt _ (by decide)))
  have step : (sl.playedFor f).step = sl.step := rfl
  rw [Slot.nextCursor, playedFor_cur h, rem, step, Nat.shiftRight_eq_div_pow, Slot.cursorAfter, Slot.cursorAfter,
    Nat.add_mul, Nat.one_mul]
  omega

/-- One more frame ends the sound exactly if the cursor comes to END. -/
theorem playedFor_finishes (h : sl.PlaysFor f) :
    (sl.playedFor f).finishes = true ↔ sl.endAddr.toNat ≤ sl.cursorAfter (f + 1) := by
  rw [Slot.finishes, playedFor_nextCursor h, decide_eq_true_eq]
  rfl

/-- One more frame that does not end the sound. -/
theorem playedFor_advance (h : sl.PlaysFor f) (goesOn : sl.cursorAfter (f + 1) < sl.endAddr.toNat) :
    (sl.playedFor f).advance = sl.playedFor (f + 1) := by
  have notYet : (sl.playedFor f).finishes = false := by
    rw [← Bool.not_eq_true, playedFor_finishes h]
    omega
  have cur : (sl.playedFor f).advance.cur = (sl.playedFor (f + 1)).cur := by
    rw [advance_cur, notYet, playedFor_nextCursor h]
    rfl
  have rem : (sl.playedFor f).advance.rem = (sl.playedFor (f + 1)).rem := by
    apply BitVec.eq_of_toNat_eq
    simp only [advance_rem, Slot.playedFor, BitVec.toNat_ofNat, Nat.add_mul, Nat.one_mul]
    omega
  have shape : ∀ u : Slot, u.advance = { u with cur := u.advance.cur, rem := u.advance.rem } := fun _ => rfl
  rw [shape, cur, rem]
  rfl

/-- An active slot after `f` frames that did not fail: it plays on at its cursor, or it came to END and is empty. -/
theorem afterFrames_cases (ha : sl.active = true) (f : Nat) :
    (sl.PlaysFor f ∧ Slot.afterFrame^[f] sl = sl.playedFor f) ∨
      (0 < f ∧ sl.endAddr.toNat ≤ sl.cursorAfter f ∧ (Slot.afterFrame^[f] sl).active = false) := by
  induction f with
  | zero => exact .inl ⟨.inl rfl, (playedFor_zero sl).symm⟩
  | succ f ih =>
    rw [Function.iterate_succ_apply']
    rcases ih with ⟨plays, eq⟩ | ⟨_, ended, isEmpty⟩
    · have active := playedFor_active ha plays
      have next : (sl.playedFor f).afterFrame = (sl.playedFor f).advance := if_pos active
      rw [eq, next]
      rcases Nat.lt_or_ge (sl.cursorAfter (f + 1)) sl.endAddr.toNat with goesOn | ends
      · exact .inl ⟨.inr goesOn, playedFor_advance plays goesOn⟩
      · refine .inr ⟨Nat.succ_pos f, ends, ?_⟩
        rw [active_advance active, (playedFor_finishes plays).2 ends]
        rfl
    · refine .inr ⟨Nat.succ_pos f, ended.trans (cursorAfter_mono sl (Nat.le_succ f)), ?_⟩
      rw [Slot.afterFrame, if_neg (by simp [isEmpty])]
      exact isEmpty

theorem afterFrames_of_empty (h : sl.active = false) (f : Nat) : Slot.afterFrame^[f] sl = sl :=
  Function.iterate_fixed (by simp [Slot.afterFrame, h]) f

/-- A slot that is active after `f` frames was active before and has played on. -/
theorem afterFrames_active (h : (Slot.afterFrame^[f] sl).active = true) :
    sl.active = true ∧ sl.PlaysFor f ∧ Slot.afterFrame^[f] sl = sl.playedFor f := by
  have active : sl.active = true := by
    by_contra inactive
    rw [afterFrames_of_empty (by simpa using inactive)] at h
    exact inactive h
  rcases afterFrames_cases active f with ⟨plays, eq⟩ | ⟨_, _, isEmpty⟩
  · exact ⟨active, plays, eq⟩
  · rw [isEmpty] at h; cases h

/-- Frames change CUR and REM of a slot and nothing else. -/
theorem afterFrames_eq (sl : Slot) (f : Nat) :
    Slot.afterFrame^[f] sl = { sl with cur := (Slot.afterFrame^[f] sl).cur, rem := (Slot.afterFrame^[f] sl).rem } := by
  refine Function.Iterate.rec (fun u : Slot => u = { sl with cur := u.cur, rem := u.rem }) rfl (fun u hu => ?_) f
  rw [afterFrame_eq u]
  generalize u.afterFrame.cur = cur, u.afterFrame.rem = rem
  rw [hu]

end

/-- Settles O56: without a fault the slot has gone through all frames, and its events are those of its stop. -/
theorem cursorAdvancesByTheStep : Obligations.CursorAdvancesByTheStep := by
  intro rs1 rs2 s t c _ run notHalted inRange active noFraction F cursor
  obtain ⟨u, e, frames, ended⟩ := execMmix_cases run
  obtain ⟨rfl, rfl⟩ | ⟨a, _, rfl⟩ := ended
  case inr => cases notHalted
  case inl =>
    obtain ⟨_, _, _, _, k, _, all, slots, new, events, record⟩ := mixFrames_frame frames
    obtain rfl : k = F := all rfl
    have rem : (s.slot c).rem.toNat = 0 := congrArg BitVec.toNat noFraction
    have atCursor : (s.slot c).cursorAfter F = cursor := by rw [Slot.cursorAfter, rem, Nat.zero_add]
    have played := afterFrames_cases active F
    rw [← slots, atCursor] at played
    refine ⟨fun before => ?_, fun mixed ends => ?_⟩
    · rcases played with ⟨_, eq⟩ | ⟨_, ends, _⟩
      · rw [eq, Slot.playedFor, atCursor, rem, Nat.zero_add]
      · omega
    · rcases played with ⟨zero | before, _⟩ | ⟨_, _, isEmpty⟩
      · omega
      · omega
      · refine ⟨isEmpty, new, events, ?_⟩
        rcases record c with ⟨_, same⟩ | ⟨_, _, released⟩
        · rw [active, isEmpty] at same; cases same
        · exact released

end Sys2Proof.Machine
end

section
/-! SUPPORT. The statements of MMIX over admitted bytes (44_mixer.md R286, R290 to R293): a run that completes, a run
without sound, and one frame in full. -/

namespace Sys2Proof.Machine

/-! ### What a run leaves unchanged -/

theorem mixFrames_sameRegs {n o : Nat} {s t : State} {e : Option Word} (h : State.mixFrames n o s = (t, e)) :
    SameRegsBut [] s t ∧ SameFaultRecord s t := by
  obtain ⟨frame, _⟩ := mixFrames_frame h
  rw [frame]
  exact ⟨fun _ _ => rfl, rfl, rfl, rfl, rfl⟩

theorem canAccess_of_withheld_eq {s t : State} (h : t.withheld = s.withheld) (a : Nat) (k : AccessKind) :
    t.canAccess a k = s.canAccess a k := by
  rw [State.canAccess, State.admits, h]
  rfl

/-! ### A run over admitted bytes (R290, R293) -/

/-- The four output bytes of a frame are admitted, with MIX_ADD_EXISTING for both kinds (R290). -/
def State.OutputAdmitted (s : State) (a : Nat) : Prop :=
  s.canAccess a .write = true ∧ (s.params.mixAddExisting = true → s.canAccess a .read = true)

/-- Every sample byte that an active slot reads in the frame after its first `f` frames is admitted. -/
def State.SampleAdmitted (s : State) (sl : Slot) (f : Nat) : Prop :=
  s.canAccess (sl.cursorAfter f) .read = true ∧ s.canAccess (sl.byteAfter (sl.cursorAfter f)) .read = true

/-- The four output bytes, one by one. -/
theorem forall_four_iff {P : Nat → Prop} {o : Nat} :
    (∀ k < 4, P (o + k)) ↔ P o ∧ P (o + 1) ∧ P (o + 2) ∧ P (o + 3) := by
  constructor
  · exact fun h => ⟨h 0 (by decide), h 1 (by decide), h 2 (by decide), h 3 (by decide)⟩
  · rintro ⟨h0, h1, h2, h3⟩ k hk
    rcases (by omega : k = 0 ∨ k = 1 ∨ k = 2 ∨ k = 3) with rfl | rfl | rfl | rfl <;> assumption

/-- A frame is over admitted bytes exactly if its output bytes and the two bytes of every active slot are admitted. -/
theorem frameAccesses_admitted_iff {s : State} {o : Nat} :
    (∀ b ∈ s.frameAccesses o, s.canAccess b.1 b.2 = true) ↔ (∀ k < 4, s.OutputAdmitted (o + k)) ∧
      ∀ sl ∈ s.slots, sl.active = true →
        s.canAccess sl.cur.toNat .read = true ∧ s.canAccess sl.nextByte .read = true := by
  have four : ∀ k : AccessKind, (∀ b ∈ [(o, k), (o + 1, k), (o + 2, k), (o + 3, k)], s.canAccess b.1 b.2 = true) ↔
      ∀ j < 4, s.canAccess (o + j) k = true := fun k => by
    rw [forall_four_iff (P := fun a => s.canAccess a k = true)]
    simp
  have existing : (∀ b ∈ (if s.params.mixAddExisting then
        [(o, AccessKind.read), (o + 1, .read), (o + 2, .read), (o + 3, .read)] else []),
      s.canAccess b.1 b.2 = true) ↔
        ∀ j < 4, s.params.mixAddExisting = true → s.canAccess (o + j) .read = true := by
    cases s.params.mixAddExisting with
    | true => rw [if_pos rfl, four]; exact forall₂_congr fun _ _ => (imp_iff_right rfl).symm
    | false => exact iff_of_true nofun fun _ _ => nofun
  have samples : (∀ b ∈ (s.slots.filter Slot.active).flatMap fun sl =>
        [(sl.cur.toNat, AccessKind.read), (sl.byteAfter sl.cur.toNat, .read)], s.canAccess b.1 b.2 = true) ↔
      ∀ sl ∈ s.slots, sl.active = true →
        s.canAccess sl.cur.toNat .read = true ∧ s.canAccess sl.nextByte .read = true := by
    simp only [List.forall_mem_flatMap, List.mem_filter, List.forall_mem_cons, List.not_mem_nil, IsEmpty.forall_iff,
      implies_true, and_true, and_imp]
    rfl
  rw [State.frameAccesses, List.forall_mem_append, List.forall_mem_append, four, existing, samples]
  simp only [State.OutputAdmitted, forall_and]

/-- A run completes if the output bytes of its frames are admitted and, of every active slot, the sample bytes of every
frame that it plays (R290). -/
theorem mixFrames_of_admitted {s : State} {n o : Nat} (output : ∀ k < 4 * n, s.OutputAdmitted (o + k))
    (samples : ∀ sl ∈ s.slots, sl.active = true → ∀ f < n, sl.PlaysFor f → s.SampleAdmitted sl f) :
    ∃ t, State.mixFrames n o s = (t, none) := by
  refine mixFrames_completes fun f hf u frames => ?_
  obtain ⟨frame, _, _, _, k, _, all, slots, _⟩ := mixFrames_frame frames
  obtain rfl : k = f := all rfl
  have withheld : u.withheld = s.withheld := (congrArg State.withheld frame :)
  have params : u.params = s.params := (congrArg State.params frame :)
  refine frameAccesses_admitted_iff.2 ⟨fun j hj => ?_, ?_⟩
  · rw [State.OutputAdmitted, canAccess_of_withheld_eq withheld, canAccess_of_withheld_eq withheld, params,
      Nat.add_assoc]
    exact output _ (by omega)
  · refine (forall_slots_iff (fun active => by cases active)).2 fun c active => ?_
    rw [slots] at active ⊢
    obtain ⟨before, plays, eq⟩ := afterFrames_active active
    have admitted := (forall_slots_iff (fun active => by cases active)).1 samples c before k hf plays
    rw [eq, Slot.nextByte, playedFor_cur plays, canAccess_of_withheld_eq withheld, canAccess_of_withheld_eq withheld]
    exact admitted

/-- Settles O51: the run completes, and what it changes is what every run of frames changes. -/
theorem mmixCompletes : Obligations.MmixCompletes := by
  intro rs1 rs2 s o F
  refine ⟨fun short => exec_mmix_of_ok ?noFrame, fun output samples => ?frames⟩
  case noFrame =>
    rw [show (s.sx rs2 / 4).toNat = 0 by omega]
    rfl
  case frames =>
    obtain ⟨t, frames⟩ := mixFrames_of_admitted (n := F) (o := o) output samples
    obtain ⟨_, nch, _, outside, f, _, _, slots, _⟩ := mixFrames_frame frames
    obtain ⟨regs, fault⟩ := mixFrames_sameRegs frames
    obtain ⟨control, host⟩ := mixFrames_sameControl frames
    refine ⟨t, exec_mmix_of_ok frames, regs, fault, control, host, nch, fun c => ?_, outside⟩
    rw [slots]
    exact afterFrames_eq _ f

/-! ### The bytes of a frame (R63, R290) -/

/-- The four bytes of a frame, low byte first, left before right. -/
theorem frame_bytes (s : State) (o : Nat) (l r : Half) :
    ((s.portWrite2 o l).portWrite2 (o + 2) r).byteAt o = l.extractLsb' 0 8 ∧
      ((s.portWrite2 o l).portWrite2 (o + 2) r).byteAt (o + 1) = l.extractLsb' 8 8 ∧
      ((s.portWrite2 o l).portWrite2 (o + 2) r).byteAt (o + 2) = r.extractLsb' 0 8 ∧
      ((s.portWrite2 o l).portWrite2 (o + 2) r).byteAt (o + 3) = r.extractLsb' 8 8 := by
  have low : ∀ v : Half, v.setWidth 8 = v.extractLsb' 0 8 := fun v => BitVec.setWidth_eq_extractLsb' (by decide)
  have high : ∀ v : Half, (v >>> 8).setWidth 8 = v.extractLsb' 8 8 := fun v => by
    apply BitVec.eq_of_toNat_eq
    simp
  refine ⟨?_, ?_, ?_, ?_⟩
  · rw [byteAt_portWrite2, if_neg (by omega), if_neg (by omega), byteAt_portWrite2, if_neg (by omega), if_pos rfl, low]
  · rw [byteAt_portWrite2, if_neg (by omega), if_neg (by omega), byteAt_portWrite2, if_pos rfl, high]
  · rw [byteAt_portWrite2, if_neg (by omega), if_pos rfl, low]
  · rw [byteAt_portWrite2, if_pos rfl, high]

/-! ### Frames without sound (R286) -/

theorem walkSlots_of_empty {s : State} {slots : List Slot} (h : ∀ sl ∈ slots, sl.active = false) (c : Nat)
    (l r : Int) : s.walkSlots c slots l r = .ok ⟨slots, [], l, r⟩ := by
  induction slots generalizing c with
  | nil => rfl
  | cons sl rest ih =>
    obtain ⟨empty, later⟩ := List.forall_mem_cons.1 h
    simp only [State.walkSlots, empty, if_true, ih later]

/-- `t` is `s` with the `n` bytes from `o` on set to 0. -/
def Zeroed (o n : Nat) (s t : State) : Prop :=
  t = { s with mem := t.mem } ∧ ∀ a, t.byteAt a = if o ≤ a ∧ a < o + n then 0 else s.byteAt a

theorem Zeroed.refl (o : Nat) (s : State) : Zeroed o 0 s s := ⟨rfl, fun a => (if_neg (by omega)).symm⟩

theorem Zeroed.trans {o m n : Nat} {s t u : State} (h : Zeroed o m s t) (g : Zeroed (o + m) n t u) :
    Zeroed o (m + n) s u := by
  obtain ⟨frame, bytes⟩ := h
  obtain ⟨frame', bytes'⟩ := g
  refine ⟨frame'.trans (by rw [frame]), fun a => ?_⟩
  rw [bytes', bytes]
  split
  · rw [if_pos (by omega)]
  · exact if_congr (by omega) rfl rfl

section
variable {s t : State} {n o : Nat} (silent : ∀ sl ∈ s.slots, sl.active = false)
  (fresh : s.params.mixAddExisting = false)
include silent fresh

theorem mixFrame_of_silence (h : s.mixFrame o = .ok t) : t = (s.portWrite2 o 0).portWrite2 (o + 2) 0 := by
  obtain ⟨l, r, w, _, start, walk, rfl⟩ := mixFrame_ok h
  rw [startAcc_zero fresh] at start
  cases start
  rw [walkSlots_of_empty silent] at walk
  cases walk
  simp only [List.append_nil]
  rfl

theorem mixFrame_zeroes (h : s.mixFrame o = .ok t) : Zeroed o 4 s t := by
  obtain ⟨_, _, outside, _⟩ := mixFrame_frame h
  obtain rfl := mixFrame_of_silence silent fresh h
  refine ⟨rfl, fun a => ?_⟩
  split
  case isFalse elsewhere => exact outside a elsewhere
  case isTrue inside =>
    obtain ⟨b0, b1, b2, b3⟩ := frame_bytes s o 0 0
    rcases (by omega : a = o ∨ a = o + 1 ∨ a = o + 2 ∨ a = o + 3) with rfl | rfl | rfl | rfl
    exacts [b0, b1, b2, b3]

theorem mixFrames_zeroes (h : State.mixFrames n o s = (t, none)) : Zeroed o (4 * n) s t := by
  have oneMore : ∀ k u v, k < n → Zeroed o (4 * k) s u → u.mixFrame (o + 4 * k) = .ok v →
      Zeroed o (4 * (k + 1)) s v := by
    intro k u v _ zeroed frame
    have ⟨same, _⟩ := zeroed
    have slots : u.slots = s.slots := (congrArg State.slots same :)
    have params : u.params = s.params := (congrArg State.params same :)
    exact zeroed.trans (mixFrame_zeroes (slots ▸ silent) (params ▸ fresh) frame)
  obtain ⟨k, _, zeroed, all, _⟩ := mixFrames_induct h (Zeroed.refl o s) oneMore
  obtain rfl : k = n := all rfl
  exact zeroed

end

/-- Settles O52: the run completes, and every frame of it is one of silence. -/
theorem mmixWithoutSoundWritesZeros : Obligations.MmixWithoutSoundWritesZeros := by
  intro rs1 rs2 s silent fresh output
  obtain ⟨t, frames⟩ := mixFrames_of_admitted (s := s) (o := (s.x rs1).toNat) (n := (s.sx rs2 / 4).toNat)
    (fun k hk => ⟨output _ (by omega) (by omega), fun adds => by rw [fresh] at adds; cases adds⟩)
    fun sl mem active => by rw [silent sl mem] at active; cases active
  obtain ⟨frame, bytes⟩ := mixFrames_zeroes silent fresh frames
  refine ⟨t, exec_mmix_of_ok frames, frame, fun a => ?_⟩
  rw [bytes]
  exact if_congr (by omega) rfl rfl

/-! ### One frame (R290 to R292, R263) -/

theorem nextCursor_eq (sl : Slot) :
    sl.nextCursor = sl.cur.toNat + (sl.rem.toNat + sl.step.toNat) / 65536 := by
  rw [Slot.nextCursor, Nat.shiftRight_eq_div_pow]

theorem releasedNow_eq (sl : Slot) : sl.releasedNow =
    (sl.active && decide (sl.endAddr.toNat ≤ sl.cur.toNat + (sl.rem.toNat + sl.step.toNat) / 65536)) := by
  rw [Slot.releasedNow, Slot.finishes, nextCursor_eq]

/-- An active slot after a frame, its two changed fields written out (R290). -/
theorem advance_eq (sl : Slot) : sl.advance = { sl with
    cur := if sl.endAddr.toNat ≤ sl.cur.toNat + (sl.rem.toNat + sl.step.toNat) / 65536 then 0
      else BitVec.ofNat 32 (sl.cur.toNat + (sl.rem.toNat + sl.step.toNat) / 65536)
    rem := BitVec.ofNat 16 ((sl.rem.toNat + sl.step.toNat) % 65536) } := by
  have rem : BitVec.ofNat 16 ((sl.rem.toNat + sl.step.toNat) % 65536) =
      BitVec.ofNat 16 (sl.rem.toNat + sl.step.toNat) := BitVec.eq_of_toNat_eq (by simp)
  rw [rem, ← nextCursor_eq, Slot.advance, Slot.finishes]
  simp only [decide_eq_true_eq]

/-- What an output sample starts from (R290). -/
def State.existing (s : State) (a : Nat) : Int :=
  if s.params.mixAddExisting then (s.byteAt (a + 1) ++ s.byteAt a : Half).toInt else 0

theorem startAcc_of_admitted {s : State} {o : Nat} (h : ∀ k < 4, s.OutputAdmitted (o + k)) :
    s.startAcc o = .ok (s.existing o, s.existing (o + 2)) := by
  unfold State.startAcc State.existing
  split
  case isFalse => rfl
  case isTrue adds =>
    have existing : ∀ k < 4, s.canAccess (o + k) .read = true := fun k hk => (h k hk).2 adds
    have left := portRead2_of_admitted (a := o) (existing 0 (by decide)) (existing 1 (by decide))
    have right := portRead2_of_admitted (a := o + 2) (existing 2 (by decide)) (existing 3 (by decide))
    rw [left, right]

/-- The interpolated sample of an active slot over admitted bytes (R290). -/
def State.sampleValue (s : State) (sl : Slot) : Nat :=
  ((s.byteAt sl.cur.toNat).toNat * (65536 - sl.rem.toNat) + (s.byteAt sl.nextByte).toNat * sl.rem.toNat) / 65536

theorem sampleOf_of_admitted {s : State} {sl : Slot} (current : s.canAccess sl.cur.toNat .read = true)
    (next : s.canAccess sl.nextByte .read = true) : s.sampleOf sl = .ok (s.sampleValue sl) := by
  rcases sampleOf_cases s sl with ⟨_, _, ok⟩ | ⟨refused, _⟩ | ⟨_, refused, _⟩
  · exact ok
  · rw [current] at refused; cases refused
  · rw [next] at refused; cases refused

theorem sum_contributions {s : State} {slots : List Slot} (row : Slot → Fin 128)
    (h : ∀ sl ∈ slots, sl.active = true → s.sampleOf sl = .ok (s.sampleValue sl)) :
    (slots.map (s.contribution row)).sum =
      ((slots.filter Slot.active).map fun sl => volEntry s.params.volDiv (row sl) (s.sampleValue sl)).sum := by
  induction slots with
  | nil => rfl
  | cons sl rest ih =>
    obtain ⟨first, later⟩ := List.forall_mem_cons.1 h
    rw [List.map_cons, List.sum_cons, ih later]
    cases active : sl.active with
    | true =>
      rw [List.filter_cons_of_pos active, List.map_cons, List.sum_cons,
        contribution_of_sample active (first active)]
    | false => rw [List.filter_cons_of_neg (by simp [active]), contribution_of_empty active, zero_add]

theorem sat16_eq_max_min (v : Int) : sat16 v = max (-32768) (min 32767 v) := by
  simp only [sat16, clamp, fMin, fMax]
  omega

/-- Settles O53: the frame's bytes, slots and events are those of its slot walk. -/
theorem mmixOneFrame : Obligations.MmixOneFrame := by
  intro rs1 rs2 s o smp sample cursor one admitted
  obtain ⟨t, frame⟩ := mixFrame_completes admitted
  have frames : State.mixFrames (s.sx rs2 / 4).toNat o s = (t, none) := by
    rw [one]
    exact mixFrames_succ_of_ok frame 0
  obtain ⟨output, reads⟩ := frameAccesses_admitted_iff.1 admitted
  obtain ⟨regs, fault⟩ := mixFrames_sameRegs frames
  obtain ⟨control, host⟩ := mixFrames_sameControl frames
  obtain ⟨_, slots, outside, _⟩ := mixFrame_frame frame
  have run := exec_mmix_of_ok frames
  obtain ⟨l, r, w, _, start, walk, rfl⟩ := mixFrame_ok frame
  rw [startAcc_of_admitted output] at start
  cases start
  obtain ⟨left, right⟩ := walkSlots_acc walk
  have samples : ∀ sl ∈ s.slots, sl.active = true → s.sampleOf sl = .ok (s.sampleValue sl) := by
    intro sl mem active
    obtain ⟨current, next⟩ := reads sl mem active
    exact sampleOf_of_admitted current next
  rw [sum_contributions Slot.lvol samples] at left
  rw [sum_contributions Slot.rvol samples] at right
  have leftSample : BitVec.ofInt 16 (sat16 w.accL) = sample o Slot.lvol := by
    rw [sat16_eq_max_min, left]
    rfl
  have rightSample : BitVec.ofInt 16 (sat16 w.accR) = sample (o + 2) Slot.rvol := by
    rw [sat16_eq_max_min, right]
    rfl
  rw [leftSample, rightSample] at run outside regs fault control host slots
  obtain ⟨b0, b1, b2, b3⟩ := frame_bytes { s with slots := w.slots, events := s.events ++ w.released } o
    (sample o Slot.lvol) (sample (o + 2) Slot.rvol)
  refine ⟨_, run, b0, b1, b2, b3, outside, slots.trans ?slots, ?events, regs, fault, control, host⟩
  case slots =>
    refine List.map_congr_left fun sl _ => ?_
    rw [Slot.afterFrame, advance_eq]
  case events =>
    rw [portWrite2_events, portWrite2_events, walkSlots_releases walk, releasesWhere_slots]
    simp only [releasedNow_eq]
    rfl

end Sys2Proof.Machine
end

section
/-! SUPPORT. The facts and the statements of 45_register_csr.md: the two halves that LI and LIH put together, what each
control register reads, and what a write to one changes. -/

namespace Sys2Proof.Machine

/-! ### One register written (R320 to R323) -/

/-- The last of two writes to a register is the one that counts. -/
theorem setX_setX (s : State) (r : Reg) (v w : Word) : (s.setX r v).setX r w = s.setX r w := by
  simp only [State.setX, Vector.set_set]

/-- A command that writes one register completes with the word written, and changes nothing else. -/
theorem completesWith_of_setX {i : Instr} {s : State} {rd : Reg} {v : Word} (h : exec i s = .next (s.setX rd v)) :
    CompletesWith i s rd v :=
  ⟨_, h, x_setX_self s rd v, setX_onlyRegs s rd v⟩

/-! ### The halves of a register (R320, R321) -/

/-- An upper half above the lower half of a word. -/
theorem append_setWidth_eq (hi : Half) (w : Word) :
    hi ++ w.setWidth 16 = BitVec.ofNat 32 (hi.toNat * 65536 + w.toNat % 65536) := by
  have low : w.toNat % 65536 < 2 ^ 16 := Nat.mod_lt _ (by decide)
  apply BitVec.eq_of_toNat_eq
  rw [BitVec.toNat_append, BitVec.toNat_setWidth, ← Nat.shiftLeft_add_eq_or_of_lt low, Nat.shiftLeft_eq,
    BitVec.toNat_ofNat]
  have high := hi.isLt
  omega

/-- The lower half of a sign-extended half is the half itself: the sign bits stand above it. -/
theorem setWidth_signExtend_half (lo : Half) : (lo.signExtend 32).setWidth 16 = lo := by
  ext i inHalf
  rw [BitVec.getElem_setWidth, BitVec.getLsbD_signExtend, if_pos inHalf,
    decide_eq_true (by omega), Bool.true_and, BitVec.getLsbD_eq_getElem]

/-- LIH replaces the sign bits that LI wrote (R321). -/
theorem exec_lih_after_li (rd : Reg) (lo hi : Half) (s : State) :
    exec (.lih rd hi) (s.setX rd (lo.signExtend 32)) = .next (s.setX rd (hi ++ lo)) := by
  have run : exec (.lih rd hi) (s.setX rd (lo.signExtend 32)) = .next ((s.setX rd (lo.signExtend 32)).setX rd
      (hi ++ ((s.setX rd (lo.signExtend 32)).x rd).setWidth 16)) := rfl
  rw [run, setX_setX, x_setX_self, setWidth_signExtend_half]

/-! ### Control registers (R34 to R41, R323, R324) -/

theorem csrr_completes (rd : Reg) (c : Csr) (s : State) : CompletesWith (.csrr rd c) s rd (s.csr c) :=
  completesWith_of_setX rfl

theorem statusWord_eq (halted : Bool) (k : Cause) :
    statusWord halted k = BitVec.ofNat 32 (halted.toNat + 256 * k.code) := by
  rw [statusWord, Nat.mul_comm]
  rfl

theorem configWord_eq (pitched : Bool) : configWord pitched = if pitched then 1 else 0 := by
  cases pitched <;> rfl

/-- STATUS and the fault record read 0 until the first fault (R35 to R37). -/
theorem Inv.csr_of_running {s : State} (inv : Inv s) (running : s.halted = false) :
    s.csr .status = 0 ∧ s.csr .faultCmd = 0 ∧ s.csr .faultInfo = 0 := by
  obtain ⟨cause, faultCmd, faultInfo⟩ := inv.running running
  refine ⟨?_, faultCmd, faultInfo⟩
  rw [State.csr, running, cause]
  rfl

/-- TICK takes the word and CONFIG its bit 0, which says whether the word is odd; the others ignore it (R324). -/
theorem csrWrite_eq (s : State) (c : Csr) (v : Word) :
    s.csrWrite c v =
      if c.number = 3 then { s with tick := v }
      else if c.number = 5 then { s with pitched := decide (v.toNat % 2 = 1) }
      else s := by
  have bit0 : v.getLsbD 0 = decide (v.toNat % 2 = 1) := by rw [BitVec.getLsbD, Nat.testBit_zero]
  cases c with
  | tick => rfl
  | config => rw [← bit0]; rfl
  | status | faultCmd | faultInfo | outRate | idReg => rfl

/-! ### The statements -/

/-- Settles O41: each command writes one register, and LIH after LI writes it again. -/
theorem loadAndMoveResults : Obligations.LoadAndMoveResults := by
  intro rd rs1 lo hi s
  have li : exec (.li rd lo) s = .next (s.setX rd (lo.signExtend 32)) := rfl
  have lih : exec (.lih rd hi) s = .next (s.setX rd (hi ++ (s.x rd).setWidth 16)) := rfl
  rw [append_setWidth_eq] at lih
  exact ⟨decode_encode_of_wellFormed (i := .li rd lo) rfl, completesWith_of_setX li,
    decode_encode_of_wellFormed (i := .lih rd hi) rfl, completesWith_of_setX lih,
    decode_encode_of_wellFormed (i := .mov rd rs1) rfl, completesWith_of_setX rfl,
    _, _, li, exec_lih_after_li rd lo hi s, x_setX_self s rd _, setX_onlyRegs s rd _⟩

/-- Settles O42: CSRR writes the register's word, which the invariant makes 0 for a fault record not yet written. -/
theorem controlRegisterReads : Obligations.ControlRegisterReads := by
  intro rd s
  have status := csrr_completes rd .status s
  have config := csrr_completes rd .config s
  rw [State.csr, statusWord_eq] at status
  rw [State.csr, configWord_eq] at config
  refine ⟨fun c => decode_encode_of_wellFormed (i := .csrr rd c) rfl, status, csrr_completes rd .faultCmd s,
    csrr_completes rd .faultInfo s, csrr_completes rd .tick s, csrr_completes rd .outRate s, config,
    csrr_completes rd .idReg s, fun inv running => ?_⟩
  obtain ⟨status0, faultCmd0, faultInfo0⟩ := inv.csr_of_running running
  exact ⟨status0 ▸ csrr_completes rd .status s, faultCmd0 ▸ csrr_completes rd .faultCmd s,
    faultInfo0 ▸ csrr_completes rd .faultInfo s⟩

/-- Settles O43: CSRW is a write of the register's word to the control register. -/
theorem controlRegisterWrites : Obligations.ControlRegisterWrites := fun c rs1 s =>
  ⟨decode_encode_of_wellFormed (i := .csrw c rs1) rfl,
    congrArg Host.Outcome.next (csrWrite_eq s c (s.x rs1))⟩

end Sys2Proof.Machine
end

section
/-! SUPPORT. The family of 60_exceptions.md: the words of the host register window, what the host's accesses to them do
while the block runs and while it is halted, that every word written to CMD leads on, and precise faults. -/

namespace Sys2Proof.Machine

/-! ### The words of the window (R360) -/

theorem windowReg_csr (c : Csr) : windowReg (4 * (c.number + 1)) = some (.csr c) := by cases c <;> rfl

section
variable {off : Nat}

/-- The words from offset 0x40 on are X0..X15. -/
theorem windowReg_of_ge (low : 0x40 ≤ off) (h : off < 0x80) (aligned : off % 4 = 0) :
    windowReg off = some (.x (Fin.ofNat 16 ((off - 0x40) / 4))) := by
  rw [windowReg, if_neg (by omega), if_neg (by omega), if_pos low]

theorem windowReg_x (r : Reg) : windowReg (0x40 + 4 * r.val) = some (.x r) := by
  have number : Fin.ofNat 16 ((0x40 + 4 * r.val - 0x40) / 4) = r := Fin.ext (by rw [Fin.val_ofNat]; omega)
  rw [windowReg_of_ge (by omega) (by omega) (by omega), number]

/-- The words between IDREG and X0 are reserved. -/
theorem windowReg_of_gap (low : 0x20 ≤ off) (h : off < 0x40) (aligned : off % 4 = 0) :
    windowReg off = some .reserved := by
  rw [windowReg, if_neg (by omega), if_neg (by omega), if_neg (by omega), ofNumber_of_gt (by omega)]

/-- R360's table: CMD, the control registers in the order of their numbers, the reserved words, the registers. -/
theorem windowReg_cases (h : off < 0x80) (aligned : off % 4 = 0) :
    (off = 0 ∧ windowReg off = some .cmd) ∨
      (∃ c : Csr, off = 4 * (c.number + 1) ∧ windowReg off = some (.csr c)) ∨
      ((0x20 ≤ off ∧ off < 0x40) ∧ windowReg off = some .reserved) ∨
      (0x40 ≤ off ∧ windowReg off = some (.x (Fin.ofNat 16 ((off - 0x40) / 4)))) := by
  rcases (by omega : off = 0 ∨ (0 < off ∧ off < 0x20) ∨ (0x20 ≤ off ∧ off < 0x40) ∨ 0x40 ≤ off) with
    rfl | control | ⟨low, high⟩ | low
  · exact .inl ⟨rfl, rfl⟩
  · obtain ⟨c, _, number⟩ := exists_csr (n := off / 4 - 1) (by omega)
    obtain rfl : off = 4 * (c.number + 1) := by omega
    exact .inr (.inl ⟨c, rfl, windowReg_csr c⟩)
  · exact .inr (.inr (.inl ⟨⟨low, high⟩, windowReg_of_gap low high aligned⟩))
  · exact .inr (.inr (.inr ⟨low, windowReg_of_ge low h aligned⟩))

/-- An access of a whole word at an offset of the window meets the word at that offset. -/
theorem windowTarget_at_offset (s : State) (h : off < 0x80) :
    s.windowTarget (s.params.qfxBase + BitVec.ofNat 32 off) .word = windowReg off := by
  have distance : (s.params.qfxBase + BitVec.ofNat 32 off - s.params.qfxBase).toNat = off := by
    rw [BitVec.add_comm, BitVec.add_sub_cancel, BitVec.toNat_ofNat]
    omega
  rw [State.windowTarget, distance]

end

/-! ### Steps in which the host accesses a word of the window (R348, R360) -/

section
variable {s : State} {off : Nat} {r : WindowReg} {w : Word} {rest : List HostAction}

theorem perform_windowRead_of_target {addr : Word} {size : AccessSize} (h : s.windowTarget addr size = some r) :
    perform (.windowRead addr size) s = .next { s with readData := s.windowRead r } := by
  simp only [perform, h]

theorem perform_windowWrite_of_target {addr : Word} {size : AccessSize} (h : s.windowTarget addr size = some r) :
    perform (.windowWrite addr size w) s = windowWrite r w s := by
  simp only [perform, h]

theorem windowRead_of_input (s : State) (rest : List HostAction) (r : WindowReg) :
    { s with input := rest }.windowRead r = s.windowRead r := by
  cases r <;> rfl

theorem step_windowRead (input : s.input = .windowRead (s.params.qfxBase + BitVec.ofNat 32 off) .word :: rest)
    (h : off < 0x80) (target : windowReg off = some r) :
    step s = .next { s with input := rest, readData := s.windowRead r } := by
  have met := (windowTarget_at_offset { s with input := rest } h).trans target
  rw [step_of_input input, perform_windowRead_of_target met, windowRead_of_input]

theorem step_windowWrite (input : s.input = .windowWrite (s.params.qfxBase + BitVec.ofNat 32 off) .word w :: rest)
    (h : off < 0x80) (target : windowReg off = some r) : step s = windowWrite r w { s with input := rest } := by
  have met := (windowTarget_at_offset { s with input := rest } h).trans target
  rw [step_of_input input, perform_windowWrite_of_target met]

theorem step_cmdWrite (input : s.input = s.cmdWrite w :: rest) : step s = issue w { s with input := rest } :=
  (step_of_input input).trans (perform_cmdWrite w rfl)

end

/-! ### Issuing a word (R342, R348) -/

section
variable {w : Word} {s : State}

theorem issue_of_halted (halted : s.halted = true) : issue w s = .next s := if_pos halted

theorem issue_of_decode {i : Instr} (running : s.halted = false) (h : decode w = .ok i) : issue w s = exec i s := by
  simp only [issue, running, h, Bool.false_eq_true, if_false]

end

/-! ### Every command has a next state (R340 to R343) -/

section
variable (rd rs1 rs2 : Reg) (s : State)

theorem exec_minit_next : ∃ t, exec (.minit rd rs1) s = .next t := by
  by_cases illegal : (s.x rs1).toNat = 0 ∨ 65535 < (s.x rs1).toNat
  · exact ⟨_, exec_minit_of_illegal illegal⟩
  · exact ⟨_, exec_minit_of_legal illegal⟩

/-- MSTART's checks in R344's order, each with its own next state. -/
theorem exec_mstart_next : ∃ t, exec (.mstart rd rs1) s = .next t := by
  cases hch : s.channel rs1 with
  | none => exact ⟨_, exec_mstart_of_rejected (.inl hch)⟩
  | some c =>
    cases hp : (s.startArgs rs1).playable with
    | false => exact ⟨_, exec_mstart_of_rejected (.inr hp)⟩
    | true =>
      cases header : s.portRead2 ((s.x (rs1 + 2)).toNat + 2) with
      | error e => exact ⟨_, exec_mstart_of_busError hch hp header⟩
      | ok srate =>
        cases pan : volPan (s.sx (rs1 + 4)) (s.sx (rs1 + 5)) with
        | error e => exact ⟨_, exec_mstart_of_volumeRange hch hp header pan⟩
        | ok rows => exact ⟨_, exec_mstart_of_ok hch hp header pan⟩

theorem exec_mupdate_next : ∃ t, exec (.mupdate rd rs1) s = .next t := by
  cases hch : s.channel rs1 with
  | none => exact ⟨_, exec_mupdate_of_none hch⟩
  | some c =>
    cases pan : volPan (s.sx (rs1 + 1)) (s.sx (rs1 + 2)) with
    | error e => exact ⟨_, exec_mupdate_of_volumeRange hch pan⟩
    | ok rows => exact ⟨_, exec_mupdate_of_ok hch pan⟩

theorem exec_mstop_next : ∃ t, exec (.mstop rs1) s = .next t := by
  cases hch : s.channel rs1 with
  | none => exact ⟨_, exec_mstop_of_none hch⟩
  | some c => exact ⟨_, exec_mstop_of_some hch⟩

theorem exec_mmix_next : ∃ t, exec (.mmix rs1 rs2) s = .next t := by
  rcases h : State.mixFrames (s.sx rs2 / 4).toNat (s.x rs1).toNat s with ⟨t, _ | e⟩
  · exact ⟨_, exec_mmix_of_ok h⟩
  · exact ⟨_, exec_mmix_of_error h⟩

theorem exec_mquery_next : ∃ t, exec (.mquery rd rs1) s = .next t := by
  cases hch : s.channel rs1 with
  | none => exact (mquery_of_none hch).imp fun _ ⟨run, _⟩ => run
  | some c => exact (mquery_of_some hch).imp fun _ ⟨run, _⟩ => run

theorem exec_minfo_next : ∃ t, exec (.minfo rd rs1) s = .next t := by
  cases hch : s.channel rs1 with
  | none => exact (minfo_of_none hch).imp fun _ ⟨run, _⟩ => run
  | some c => exact (minfo_of_some hch).imp fun _ ⟨run, _⟩ => run

end

/-- The mixer commands that branch have a next state in each branch; every other command has one outcome. -/
theorem exec_next (i : Instr) (s : State) : ∃ t, exec i s = .next t := by
  cases i
  case minit rd rs1 => exact exec_minit_next rd rs1 s
  case mstart rd rs1 => exact exec_mstart_next rd rs1 s
  case mupdate rd rs1 => exact exec_mupdate_next rd rs1 s
  case mstop rs1 => exact exec_mstop_next rs1 s
  case mquery rd rs1 => exact exec_mquery_next rd rs1 s
  case mmix rs1 rs2 => exact exec_mmix_next rs1 rs2 s
  case minfo rd rs1 => exact exec_minfo_next rd rs1 s
  all_goals exact ⟨_, rfl⟩

/-! ### The fault record of a halted block (R342) -/

section
variable {s t : State}

/-- No write to the window, a command's word included, changes the fault record of a halted block. -/
theorem windowWrite_sameFaultRecord {r : WindowReg} {w : Word} (halted : s.halted = true)
    (h : windowWrite r w s = .next t) : SameFaultRecord s t := by
  cases r with
  | cmd => cases (issue_of_halted halted).symm.trans h; exact ⟨rfl, rfl, rfl, rfl⟩
  | csr c =>
    cases h
    exact ⟨csrWrite_halted s c w, csrWrite_cause s c w, csrWrite_faultCmd s c w, csrWrite_faultInfo s c w⟩
  | reserved => cases h; exact ⟨rfl, rfl, rfl, rfl⟩
  | x q => cases h; exact ⟨rfl, rfl, rfl, rfl⟩

theorem perform_sameFaultRecord {a : HostAction} (halted : s.halted = true) (noReset : ∀ r, a ≠ .reset r)
    (h : perform a s = .next t) : SameFaultRecord s t := by
  cases a with
  | windowWrite addr size w =>
    cases target : s.windowTarget addr size with
    | none => rw [perform_windowWrite_of_no_target w target] at h; cases h
    | some r =>
      rw [perform_windowWrite_of_target target] at h
      exact windowWrite_sameFaultRecord halted h
  | windowRead addr size =>
    cases target : s.windowTarget addr size with
    | none => rw [perform_windowRead_of_no_target target] at h; cases h
    | some r => cases (perform_windowRead_of_target target).symm.trans h; exact ⟨rfl, rfl, rfl, rfl⟩
  | store addr b => cases h; exact ⟨rfl, rfl, rfl, rfl⟩
  | storeDuring w addr b =>
    have stored : perform (.storeDuring w addr b) s = .next (s.putByte addr.toNat b) := if_pos halted
    cases stored.symm.trans h
    exact ⟨rfl, rfl, rfl, rfl⟩
  | setAdmission l => cases h; exact ⟨rfl, rfl, rfl, rfl⟩
  | reset running => exact absurd rfl (noReset running)

end

/-! ### The frame that fails (R293, R343) -/

/-- A run of frames that fails has a failing frame, and stops in the state of the run of the frames before it. -/
theorem mixFrames_failing_frame {n o : Nat} {s u : State} {e : Word} (h : State.mixFrames n o s = (u, some e)) :
    ∃ f < n, State.mixFrames f o s = (u, none) ∧ u.mixFrame (o + 4 * f) = .error e := by
  obtain ⟨f, _, before, _, failing⟩ :=
    mixFrames_induct (P := fun k v => State.mixFrames k o s = (v, none)) h rfl fun k v v' _ frames frame => by
      rw [mixFrames_add_of_ok frames, mixFrames_succ_of_ok frame, State.mixFrames]
  obtain ⟨inRange, fails⟩ := failing e rfl
  exact ⟨f, inRange, before, fails⟩

theorem mixFrames_halted {n o : Nat} {s u : State} {e : Option Word} (h : State.mixFrames n o s = (u, e)) :
    u.halted = s.halted := by
  obtain ⟨frame, _⟩ := mixFrames_frame h
  exact (congrArg State.halted frame :)

/-! ### The statements -/

/-- Settles O8: the write issues the word, and a running block runs its command. -/
theorem stepRunsTheDecodedCommand : Obligations.StepRunsTheDecodedCommand := by
  intro s w rest i running input legal
  rw [step_cmdWrite input]
  exact issue_of_decode running legal

/-- Settles O11: R360's column "Host read" along its table, the control registers one by one. -/
theorem windowReadValues : Obligations.WindowReadValues := by
  intro s off rest h aligned input
  rcases windowReg_cases h aligned with
    ⟨rfl, target⟩ | ⟨c, rfl, target⟩ | ⟨⟨low, high⟩, target⟩ | ⟨low, target⟩ <;>
    rw [step_windowRead input h target]
  case inl => rfl
  case inr.inl => -- STATUS with its fields in the statement's order; the others are the state's words
    cases c with
    | status => rw [State.windowRead, State.csr, statusWord_eq]; rfl
    | faultCmd | faultInfo | tick | outRate | config | idReg => rfl
  case inr.inr.inl => -- past IDREG's word and before X0's
    simp (disch := omega) only [State.windowRead, if_neg]
  case inr.inr.inr =>
    simp (disch := omega) only [State.windowRead, if_neg, if_pos]

/-- Settles O12: R360's column "Host write" along its table, the control registers one by one. -/
theorem windowWriteEffects : Obligations.WindowWriteEffects := by
  intro s off w rest pos h aligned input
  rcases windowReg_cases h aligned with
    ⟨rfl, _⟩ | ⟨c, rfl, target⟩ | ⟨⟨low, high⟩, target⟩ | ⟨low, target⟩
  case inl => exact absurd pos (Nat.lt_irrefl 0)
  case inr.inl =>
    rw [step_windowWrite input h target]
    cases c with
    | tick => rfl
    | config => rfl
    | status | faultCmd | faultInfo | outRate | idReg => rfl
  case inr.inr.inl =>
    rw [step_windowWrite input h target, if_neg (by omega), if_neg (by omega), if_neg (by omega)]
    rfl
  case inr.inr.inr =>
    rw [step_windowWrite input h target, if_neg (by omega), if_neg (by omega), if_pos low]
    rfl

/-- Settles O10: the window's accesses at their offsets, and the fault record by `perform_sameFaultRecord`. -/
theorem haltedUntilReset : Obligations.HaltedUntilReset := by
  intro s a rest halted input
  refine ⟨?cmd, ?x, ?tick, ?config, ?status, ?record, ?reset⟩
  case cmd =>
    rintro w rfl
    rw [step_cmdWrite input]
    exact issue_of_halted halted
  case x =>
    rintro r w rfl
    exact step_windowWrite input (by omega) (windowReg_x r)
  case tick =>
    rintro w rfl
    exact step_windowWrite (off := 0x10) input (by decide) (windowReg_csr .tick)
  case config =>
    rintro w rfl
    exact step_windowWrite (off := 0x18) input (by decide) (windowReg_csr .config)
  case status =>
    rintro rfl
    rw [step_windowRead (off := 4) input (by decide) (windowReg_csr .status), State.windowRead, State.csr, halted,
      statusWord_eq]
    rfl
  case record =>
    intro t h noReset
    rw [step_of_input input] at h
    exact perform_sameFaultRecord (s := { s with input := rest }) halted noReset h
  case reset =>
    rintro r rfl
    exact ⟨_, step_of_input input, resetBlock_halted _⟩

/-- Settles O19: ignored, illegal, or a command, which goes on by `exec_next`. -/
theorem everyCommandWordGoesOn : Obligations.EveryCommandWordGoesOn := by
  intro s w
  cases running : s.halted with
  | true => exact ⟨s, issue_of_halted running⟩
  | false =>
    cases hd : decode w with
    | error e => exact (issue_illegal hd running).imp fun _ ⟨next, _⟩ => next
    | ok i => rw [issue_of_decode running hd]; exact exec_next i s

/-- Settles O21: of the next states of a command only those of `State.raise` are halted if the state before is not. -/
theorem faultsArePrecise : Obligations.FaultsArePrecise := by
  intro i s t running h halts
  rcases exec_cases h with
    ⟨frame, _⟩ | ⟨rd, rs1, _, _, _, rfl⟩ | ⟨rd, rs1, hi, started⟩ | ⟨rd, rs1, hi, updated⟩ | ⟨rs1, ch, _, _, rfl⟩ |
      ⟨rs1, rs2, u, e, hi, frames, ended⟩
  case inl => -- registers, TICK and CONFIG alone
    have same : t.halted = s.halted := (congrArg State.halted frame :)
    simp [same, running] at halts
  case inr.inl => -- MINIT
    simp [running] at halts
  case inr.inr.inl => -- MSTART
    obtain ⟨ch, srate, lv, rv, _, _, rfl⟩ | ⟨k, e, cause, rfl⟩ := started
    · simp [running] at halts
    · exact .inl ⟨rd, rs1, hi, cause, raise_haltedBy s _ k e⟩
  case inr.inr.inr.inl => -- MUPDATE
    obtain ⟨ch, st, lv, rv, _, rfl⟩ | ⟨e, rfl⟩ := updated
    · simp [running] at halts
    · exact .inr (.inl ⟨rd, rs1, hi, raise_haltedBy s _ _ e⟩)
  case inr.inr.inr.inr.inl => -- MSTOP
    simp [running] at halts
  case inr.inr.inr.inr.inr => -- MMIX
    obtain ⟨_, rfl⟩ | ⟨a, rfl, rfl⟩ := ended
    · rw [mixFrames_halted frames, running] at halts
      cases halts
    · obtain ⟨f, inRange, before, fails⟩ := mixFrames_failing_frame frames
      exact .inr (.inr ⟨rs1, rs2, f, u, hi, by omega, before, fails, raise_haltedBy u _ _ a⟩)

end Sys2Proof.Machine
end

section
/-! SUPPORT. The family of 70_reset_and_hazards.md: what reset gives the block and keeps around it, and its agreement
with MINIT over the mixer's part of the state. -/

namespace Sys2Proof.Machine

/-! ### The reset state has the invariant of runs (R380, R294) -/

/-- Settles O17: the record is clear, every slot is empty, and OUTRATE and STEPTAB are of the default rate. -/
theorem resetHasTheInvariant : Obligations.ResetHasTheInvariant where
  memory := rfl
  params := by decide
  channels := by decide
  rate := by decide
  table := rfl
  running _ := ⟨rfl, rfl, rfl⟩
  stopped := nofun
  slots sl mem := by rw [List.eq_of_mem_replicate mem]; exact ok_of_empty rfl _

/-! ### The block after a reset (R380) -/

theorem x_resetBlock (s : State) (r : Reg) : s.resetBlock.x r = 0 := Vector.getElem_replicate r.isLt

theorem nch_resetBlock (s : State) : s.resetBlock.nch = s.nch := List.length_replicate

/-- Reset zeroes the slots as MINIT does, whatever the rate. -/
theorem slot_resetBlock (s : State) (c : Nat) : s.resetBlock.slot c = Slot.zero :=
  (slot_initMixer s (BitVec.ofNat 32 s.params.outRateReset) c :)

theorem csr_status_resetBlock (s : State) : s.resetBlock.csr .status = 0 := by
  rw [State.csr, resetBlock_halted, resetBlock_cause]
  rfl

theorem csr_idReg_resetBlock (s : State) : s.resetBlock.csr .idReg = BitVec.ofNat 32 (s.nch + 0x100) :=
  congrArg idWord (nch_resetBlock s)

theorem stepTab_resetBlock (s : State) (p : Fin 256) :
    s.resetBlock.stepTab[p] = stepEntry (BitVec.ofNat 32 s.params.outRateReset).toNat p.val := by
  rw [resetBlock_stepTab, buildStepTab_getElem]

/-! ### MINIT with the reset rate and no active slot (R280, R380) -/

/-- A legal OUT_RATE_RESET keeps its value as a word, and is a rate that MINIT takes (R6). -/
theorem exec_minit_of_outRateReset {p : Config.Params} {rd rs1 : Reg} {u : State} (legal : p.legal = true)
    (rate : u.x rs1 = BitVec.ofNat 32 p.outRateReset) :
    exec (.minit rd rs1) u = .next ((u.initMixer (BitVec.ofNat 32 p.outRateReset)).put rd 0) := by
  rw [← rate]
  refine exec_minit_of_legal ?_
  simp only [Config.Params.legal, Bool.and_eq_true, decide_eq_true_eq] at legal
  rw [rate, BitVec.toNat_ofNat]
  omega

theorem releasesFrom_of_inactive {slots : List Slot} (inactive : ∀ sl ∈ slots, sl.active = false) (c : Nat) :
    releasesFrom c slots = [] := by
  induction slots generalizing c with
  | nil => rfl
  | cons sl rest ih =>
    obtain ⟨first, later⟩ := List.forall_mem_cons.1 inactive
    rw [releasesFrom, first, ih later]
    rfl

/-- With no slot active MINIT has nothing to release. -/
theorem initMixer_events_of_inactive {u : State} (inactive : ∀ sl ∈ u.slots, sl.active = false) (rate : Word) :
    (u.initMixer rate).events = u.events := by
  rw [initMixer_events, releasesFrom_of_inactive inactive, List.append_nil]

/-- The mixer's part of the state after a reset is what MINIT with OUT_RATE_RESET makes of any state with as many
channels. -/
theorem initMixer_mixer_eq_resetBlock {s u : State} (nch : u.nch = s.nch) :
    (u.initMixer (BitVec.ofNat 32 s.params.outRateReset)).slots = s.resetBlock.slots ∧
      (u.initMixer (BitVec.ofNat 32 s.params.outRateReset)).outRate = s.resetBlock.outRate ∧
      (u.initMixer (BitVec.ofNat 32 s.params.outRateReset)).stepTab = s.resetBlock.stepTab :=
  ⟨by rw [initMixer_slots, resetBlock_slots, nch], rfl, rfl⟩

/-- Settles O14: the fields of `resetBlock`, and for MINIT its legal case, with no slot to release. -/
theorem resetRestoresTheBlock : Obligations.ResetRestoresTheBlock := by
  intro s running rest input
  refine ⟨_, step_of_input input, x_resetBlock _, rfl, csr_status_resetBlock _, rfl, rfl, rfl, rfl, rfl,
    csr_idReg_resetBlock _, nch_resetBlock _, slot_resetBlock _, stepTab_resetBlock _, rfl, fun _ => rfl, rfl, rfl, rfl,
    rfl, ?minit⟩
  case minit =>
    intro rd rs1 u v legal inactive nch rate run
    cases (exec_minit_of_outRateReset legal rate).symm.trans run
    obtain ⟨slots, outRate, stepTab⟩ := initMixer_mixer_eq_resetBlock nch
    refine ⟨slots, outRate, stepTab, ?_⟩
    rw [put_events, initMixer_events_of_inactive inactive]

end Sys2Proof.Machine
end
